-- ==== Sys2Proof/Word.lean ====
section
/-! DEFINITION. The words of the block: bytes and the unsigned integers of R9 (00_scope.md). -/

namespace Sys2Proof

/-- An unsigned 8-bit value, R9. -/
abbrev Byte := BitVec 8

/-- An unsigned 16-bit value: lengths and 16-bit addresses, R9, R14. -/
abbrev U16 := BitVec 16

/-- An unsigned 32-bit value: the `out_size` operand of a command, R100. -/
abbrev U32 := BitVec 32

/-- An unsigned 64-bit value: 64-bit addresses, R14. -/
abbrev U64 := BitVec 64

end Sys2Proof
end

