-- ==== Sys2Proof/Config.lean ====
section
/-! DEFINITION. What the spec fixes (R7) and the free values it leaves open (93_implementation_defined.md section 2).
The parameters `C`, `OUT_CAP` and `PARSE_ERR` are data in State (`Params`), so that every statement over all states is over all of them. -/

namespace Sys2Proof

/-- `MIN_DECODE`, the smallest ring fill at which decoding is attempted, R7, R161. -/
abbrev Config.minDecode : Nat := 6

/-- The longest payload the 16-bit length field can carry, R80, R121. -/
abbrev Config.maxPayload : Nat := 65535

/-- FREE VALUE (log 6). The byte of `ring` at a physical offset that nothing has written: "any value; never read by any rule"
(93 row 7; R25). -/
opaque Config.anyRingByte : Nat → Byte

/-- FREE VALUE (log 7). The byte of `OUT` where the spec says "any value" (R174, R31; 93 rows 8 to 10): applied to the number of
decodes that have left the address free, and to the address. -/
opaque Config.anyOutByte : Nat → Nat → Byte

/-- FREE VALUE (log 2, 3). Whether the transport accepts an offered wire byte when no answer of it is queued (R60; 93 row 13):
applied to the number of free write answers taken before. -/
opaque Config.freeWriteAccepts : Nat → Bool

/-- FREE VALUE (log 2, 3). The transport's answer to a read when none is queued (R61; 93 rows 11 and 12): negative for an error,
else the count, cut to what R61 allows. Applied to the number of free read answers taken before. -/
opaque Config.freeReadAnswer : Nat → Int

end Sys2Proof
end

