-- ==== Sys2Proof/Syntax.lean ====
section
/-! DEFINITION. The instructions of the block: one constructor of `Instr` for each row of spec/opcode_table.json. -/

namespace Sys2Proof

/-- Where an instruction arrives: the command port (R100), the hand-over of an assembled outgoing payload to the encoder (R90, R204),
or the demultiplexer's payload in `OUT` (R88, R92). A byte means different rows on different ports (log 12). -/
inductive Port where
  /-- a host command, R100 -/
  | command
  /-- an outgoing API payload, R90, R95 -/
  | outgoing
  /-- an incoming API payload, R92, R96 -/
  | incoming
  deriving DecidableEq, Repr

/-- The four variants of an address, R14 and R101. -/
inductive Address where
  /-- `Addr64(a)` -/
  | addr64 (a : U64)
  /-- `Addr16(s)` -/
  | addr16 (s : U16)
  /-- `Addr64Broadcast` -/
  | addr64Broadcast
  /-- `Addr16Broadcast` -/
  | addr16Broadcast
  deriving DecidableEq, Repr

/-- Why bytes are no instruction of a port, R102 and R97. -/
inductive DecodeError where
  /-- no byte at all: shorter than any command's fields -/
  | empty
  /-- a command code not in R100 -/
  | reservedCode (code : Byte)
  /-- an address tag not in R101 -/
  | reservedTag (tag : Byte)
  /-- shorter than the fields require -/
  | tooShort
  /-- longer than the fields require -/
  | tooLong
  /-- an API id that is no row of this payload port, R95, R96 -/
  | unknownApiId (id : Byte)
  deriving DecidableEq, Repr

/-- One constructor for each row of spec/opcode_table.json, in the table's order. -/
inductive Instr where
  /-- RESET, R290 -/
  | reset
  /-- SEND_FRAME, R120 -/
  | sendFrame (payload : List Byte)
  /-- FILL_BUFFER, R142 -/
  | fillBuffer
  /-- DECODE_FRAME, R160 -/
  | decodeFrame (outSize : U32)
  /-- RECV_FRAME, R180 -/
  | recvFrame (outSize : U32)
  /-- PARSE_FRAME, R230 -/
  | parseFrame (size : U16)
  /-- AT_COMMAND, R200 -/
  | atCommand (frameId at0 at1 : Byte) (params : List Byte)
  /-- AT_QUEUE_PARAMETER, R201 -/
  | atQueueParameter (frameId at0 at1 : Byte) (params : List Byte)
  /-- REMOTE_AT_COMMAND with `Addr64`, R202 -/
  | remoteAtCommandA64 (frameId : Byte) (addr : U64) (options at0 at1 : Byte) (params : List Byte)
  /-- REMOTE_AT_COMMAND with `Addr16`, R202 -/
  | remoteAtCommandA16 (frameId : Byte) (addr : U16) (options at0 at1 : Byte) (params : List Byte)
  /-- REMOTE_AT_COMMAND with `Addr64Broadcast`, R202 -/
  | remoteAtCommandB64 (frameId options at0 at1 : Byte) (params : List Byte)
  /-- REMOTE_AT_COMMAND with `Addr16Broadcast`, R202 -/
  | remoteAtCommandB16 (frameId options at0 at1 : Byte) (params : List Byte)
  /-- TRANSMIT with `Addr64`, R203 -/
  | transmitA64 (frameId : Byte) (addr : U64) (options : Byte) (data : List Byte)
  /-- TRANSMIT with `Addr16`, R203 -/
  | transmitA16 (frameId : Byte) (addr : U16) (options : Byte) (data : List Byte)
  /-- TRANSMIT with `Addr64Broadcast`, R203 -/
  | transmitB64 (frameId options : Byte) (data : List Byte)
  /-- TRANSMIT with `Addr16Broadcast`, R203 -/
  | transmitB16 (frameId options : Byte) (data : List Byte)
  /-- outgoing payload 0x08, R90, R95 -/
  | apiTxAtCommand (frameId at0 at1 : Byte) (params : List Byte)
  /-- outgoing payload 0x09, R90, R95 -/
  | apiTxAtQueueParameter (frameId at0 at1 : Byte) (params : List Byte)
  /-- outgoing payload 0x17, R90, R95 -/
  | apiTxRemoteAtCommand (frameId : Byte) (addr64 : U64) (addr16 : U16) (options at0 at1 : Byte) (params : List Byte)
  /-- outgoing payload 0x00, R90, R95 -/
  | apiTxTransmit64 (frameId : Byte) (addr64 : U64) (options : Byte) (data : List Byte)
  /-- outgoing payload 0x01, R90, R95 -/
  | apiTxTransmit16 (frameId : Byte) (addr16 : U16) (options : Byte) (data : List Byte)
  /-- incoming payload 0x8A, R232; `body` is the payload after the API id, of any length -/
  | apiRxModemStatus (body : List Byte)
  /-- incoming payload 0x89, R233 -/
  | apiRxTransmitStatus (body : List Byte)
  /-- incoming payload 0x88, R234 -/
  | apiRxAtResponse (body : List Byte)
  /-- incoming payload 0x97, R235 -/
  | apiRxRemoteAtResponse (body : List Byte)
  /-- incoming payload 0x80, R236 -/
  | apiRxReceive64 (body : List Byte)
  /-- incoming payload 0x81, R237 -/
  | apiRxReceive16 (body : List Byte)
  deriving DecidableEq, Repr

/-- The port a row belongs to: its "format" in the opcode table. -/
def Instr.port : Instr → Port
  | .reset | .sendFrame _ | .fillBuffer | .decodeFrame _ | .recvFrame _ | .parseFrame _ => .command
  | .atCommand .. | .atQueueParameter .. => .command
  | .remoteAtCommandA64 .. | .remoteAtCommandA16 .. | .remoteAtCommandB64 .. | .remoteAtCommandB16 .. => .command
  | .transmitA64 .. | .transmitA16 .. | .transmitB64 .. | .transmitB16 .. => .command
  | .apiTxAtCommand .. | .apiTxAtQueueParameter .. | .apiTxRemoteAtCommand .. => .outgoing
  | .apiTxTransmit64 .. | .apiTxTransmit16 .. => .outgoing
  | .apiRxModemStatus _ | .apiRxTransmitStatus _ | .apiRxAtResponse _ => .incoming
  | .apiRxRemoteAtResponse _ | .apiRxReceive64 _ | .apiRxReceive16 _ => .incoming

end Sys2Proof
end

