-- ==== Sys2Proof/WellFormed.lean ====
section
/-! DEFINITION. Which instructions have an encoding: the byte strings of a command fit their `bytes16` count (R100), an API payload
fits the 16-bit length (R80, R121). The other operands are words of their width and always fit. -/

namespace Sys2Proof

/-- A `bytes16` operand holds at most 65535 bytes, since its count is a u16 (R100). -/
abbrev fitsBytes16 (bs : List Byte) : Bool := bs.length ≤ Config.maxPayload

/-- A payload of `fixed` bytes and the variable part `bs` holds at most 65535 bytes (R80, R121). -/
abbrev fitsPayload (fixed : Nat) (bs : List Byte) : Bool := fixed + bs.length ≤ Config.maxPayload

/-- The instruction has an encoding on its port. Whether a builder's assembled payload is too long (R121) is decided by its meaning. -/
def Instr.wellFormed : Instr → Bool
  | .reset | .fillBuffer | .decodeFrame _ | .recvFrame _ | .parseFrame _ => true
  | .sendFrame payload => fitsBytes16 payload
  | .atCommand _ _ _ params | .atQueueParameter _ _ _ params => fitsBytes16 params
  | .remoteAtCommandA64 _ _ _ _ _ params | .remoteAtCommandA16 _ _ _ _ _ params => fitsBytes16 params
  | .remoteAtCommandB64 _ _ _ _ params | .remoteAtCommandB16 _ _ _ _ params => fitsBytes16 params
  | .transmitA64 _ _ _ data | .transmitA16 _ _ _ data => fitsBytes16 data
  | .transmitB64 _ _ data | .transmitB16 _ _ data => fitsBytes16 data
  | .apiTxAtCommand _ _ _ params | .apiTxAtQueueParameter _ _ _ params => fitsPayload 4 params
  | .apiTxRemoteAtCommand _ _ _ _ _ _ params => fitsPayload 15 params
  | .apiTxTransmit64 _ _ _ data => fitsPayload 11 data
  | .apiTxTransmit16 _ _ _ data => fitsPayload 5 data
  | .apiRxModemStatus body | .apiRxTransmitStatus body | .apiRxAtResponse body => fitsPayload 1 body
  | .apiRxRemoteAtResponse body | .apiRxReceive64 body | .apiRxReceive16 body => fitsPayload 1 body

end Sys2Proof
end

