-- ==== Sys2Proof/Decode.lean ====
section
/-! DEFINITION. Decoding of the three ports (R100 to R102, R90, R92), total on any bytes and rejecting by name; the encoder, written
from the same tables; and the opcode table's own words (`decodeTableWord`). -/

namespace Sys2Proof

/-! ### Byte order (R55, R84, R206) -/

/-- Big-endian assembly, R84: `a <- 0; for each byte: a <- (a << 8) | byte`. -/
def beFold (w : Nat) (bs : List Byte) : BitVec w :=
  bs.foldl (fun a b => (a <<< 8) ||| b.setWidth w) 0

/-- `be16`, R206: two bytes, most significant first. -/
def be16 (v : U16) : List Byte := [v.extractLsb' 8 8, v.extractLsb' 0 8]

/-- Four bytes, most significant first (the u32 operand of R100). -/
def be32 (v : U32) : List Byte := [v.extractLsb' 24 8, v.extractLsb' 16 8, v.extractLsb' 8 8, v.extractLsb' 0 8]

/-- `be64`, R206: eight bytes, most significant first. -/
def be64 (v : U64) : List Byte :=
  [v.extractLsb' 56 8, v.extractLsb' 48 8, v.extractLsb' 40 8, v.extractLsb' 32 8,
   v.extractLsb' 24 8, v.extractLsb' 16 8, v.extractLsb' 8 8, v.extractLsb' 0 8]

/-! ### Reading the fields of a byte string, each with the bytes left over -/

/-- What a reader answers: a value and the bytes left, or why there is none. -/
abbrev Read (α : Type) := Except DecodeError (α × List Byte)

/-- Reads on with what an earlier reader left, unless that failed. -/
def readThen {α β : Type} (x : Read α) (k : α → List Byte → Except DecodeError β) : Except DecodeError β :=
  match x with
  | .ok (a, r) => k a r
  | .error e => .error e

/-- A `u8` field, R100. -/
def takeU8 : List Byte → Read Byte
  | b :: r => .ok (b, r)
  | [] => .error .tooShort

/-- A big-endian `u16` field, R100. -/
def takeU16 : List Byte → Read U16
  | b1 :: b0 :: r => .ok (beFold 16 [b1, b0], r)
  | _ => .error .tooShort

/-- A big-endian `u32` field, R100. -/
def takeU32 : List Byte → Read U32
  | b3 :: b2 :: b1 :: b0 :: r => .ok (beFold 32 [b3, b2, b1, b0], r)
  | _ => .error .tooShort

/-- Eight bytes big-endian: the value of `Addr64`, R101. -/
def takeU64 : List Byte → Read U64
  | b7 :: b6 :: b5 :: b4 :: b3 :: b2 :: b1 :: b0 :: r => .ok (beFold 64 [b7, b6, b5, b4, b3, b2, b1, b0], r)
  | _ => .error .tooShort

/-- A `bytes16` field, R100: a u16 count `m`, then `m` bytes. -/
def takeBytes16 (bs : List Byte) : Read (List Byte) :=
  readThen (takeU16 bs) fun m r =>
  if m.toNat ≤ r.length then .ok (r.take m.toNat, r.drop m.toNat) else .error .tooShort

/-- An `addr` field, R101: a tag byte, then 8, 2, 0 or 0 bytes. -/
def takeAddress (bs : List Byte) : Read Address :=
  readThen (takeU8 bs) fun tag r =>
  match tag with
  | 0x00#8 => readThen (takeU64 r) fun a r => .ok (.addr64 a, r)
  | 0x01#8 => readThen (takeU16 r) fun s r => .ok (.addr16 s, r)
  | 0x02#8 => .ok (.addr64Broadcast, r)
  | 0x03#8 => .ok (.addr16Broadcast, r)
  | t => .error (.reservedTag t)

/-! ### The command port (R100 to R102) -/

/-- The row of REMOTE_AT_COMMAND for an address variant (opcode table, R202). -/
def remoteAtInstr (f : Byte) (addr : Address) (o a0 a1 : Byte) (params : List Byte) : Instr :=
  match addr with
  | .addr64 a => .remoteAtCommandA64 f a o a0 a1 params
  | .addr16 s => .remoteAtCommandA16 f s o a0 a1 params
  | .addr64Broadcast => .remoteAtCommandB64 f o a0 a1 params
  | .addr16Broadcast => .remoteAtCommandB16 f o a0 a1 params

/-- The row of TRANSMIT for an address variant (opcode table, R203). -/
def transmitInstr (f : Byte) (addr : Address) (o : Byte) (data : List Byte) : Instr :=
  match addr with
  | .addr64 a => .transmitA64 f a o data
  | .addr16 s => .transmitA16 f s o data
  | .addr64Broadcast => .transmitB64 f o data
  | .addr16Broadcast => .transmitB16 f o data

/-- The fields of a command after its code byte, R100. -/
def readFields (code : Byte) (r : List Byte) : Read Instr :=
  match code with
  | 0x00#8 => .ok (.reset, r)
  | 0x01#8 => readThen (takeBytes16 r) fun p r => .ok (.sendFrame p, r)
  | 0x10#8 => .ok (.fillBuffer, r)
  | 0x11#8 => readThen (takeU32 r) fun n r => .ok (.decodeFrame n, r)
  | 0x12#8 => readThen (takeU32 r) fun n r => .ok (.recvFrame n, r)
  | 0x20#8 => readThen (takeU16 r) fun n r => .ok (.parseFrame n, r)
  | 0x30#8 =>
    readThen (takeU8 r) fun f r =>
    readThen (takeU8 r) fun a0 r =>
    readThen (takeU8 r) fun a1 r =>
    readThen (takeBytes16 r) fun ps r =>
    .ok (.atCommand f a0 a1 ps, r)
  | 0x31#8 =>
    readThen (takeU8 r) fun f r =>
    readThen (takeU8 r) fun a0 r =>
    readThen (takeU8 r) fun a1 r =>
    readThen (takeBytes16 r) fun ps r =>
    .ok (.atQueueParameter f a0 a1 ps, r)
  | 0x32#8 =>
    readThen (takeU8 r) fun f r =>
    readThen (takeAddress r) fun addr r =>
    readThen (takeU8 r) fun o r =>
    readThen (takeU8 r) fun a0 r =>
    readThen (takeU8 r) fun a1 r =>
    readThen (takeBytes16 r) fun ps r =>
    .ok (remoteAtInstr f addr o a0 a1 ps, r)
  | 0x33#8 =>
    readThen (takeU8 r) fun f r =>
    readThen (takeAddress r) fun addr r =>
    readThen (takeU8 r) fun o r =>
    readThen (takeBytes16 r) fun d r =>
    .ok (transmitInstr f addr o d, r)
  | c => .error (.reservedCode c)

/-- One command at the front of a byte string, with the bytes after it. -/
def readCommand : List Byte → Read Instr
  | [] => .error .empty
  | code :: r => readFields code r

/-- A command string: exactly one command, neither shorter nor longer than its fields (R102). -/
def decodeCommand (bs : List Byte) : Except DecodeError Instr :=
  match readCommand bs with
  | .ok (i, []) => .ok i
  | .ok (_, _ :: _) => .error .tooLong
  | .error e => .error e

/-! ### The payload ports (R88, R90, R92, R95, R96) -/

/-- An outgoing payload: the API id (R95), then the fields of R90; what is left over is the variable part. That a payload which is no row
of R90 (empty, another id, shorter than its fixed fields) is no instruction of this port is a DESIGN CHOICE, safe (log 20): the spec says
nothing of one. -/
def decodeOutgoing : List Byte → Except DecodeError Instr
  | [] => .error .empty
  | 0x08#8 :: r =>
    match r with
    | f :: a0 :: a1 :: ps => .ok (.apiTxAtCommand f a0 a1 ps)
    | _ => .error .tooShort
  | 0x09#8 :: r =>
    match r with
    | f :: a0 :: a1 :: ps => .ok (.apiTxAtQueueParameter f a0 a1 ps)
    | _ => .error .tooShort
  | 0x17#8 :: r =>
    readThen (takeU8 r) fun f r =>
    readThen (takeU64 r) fun a64 r =>
    readThen (takeU16 r) fun a16 r =>
    match r with
    | o :: a0 :: a1 :: ps => .ok (.apiTxRemoteAtCommand f a64 a16 o a0 a1 ps)
    | _ => .error .tooShort
  | 0x00#8 :: r =>
    readThen (takeU8 r) fun f r =>
    readThen (takeU64 r) fun a64 r =>
    readThen (takeU8 r) fun o d =>
    .ok (.apiTxTransmit64 f a64 o d)
  | 0x01#8 :: r =>
    readThen (takeU8 r) fun f r =>
    readThen (takeU16 r) fun a16 r =>
    readThen (takeU8 r) fun o d =>
    .ok (.apiTxTransmit16 f a16 o d)
  | id :: _ => .error (.unknownApiId id)

/-- An incoming payload: the API id selects the row (R88, R96); the length is checked by the row's meaning. -/
def decodeIncoming : List Byte → Except DecodeError Instr
  | [] => .error .empty
  | 0x8A#8 :: body => .ok (.apiRxModemStatus body)
  | 0x89#8 :: body => .ok (.apiRxTransmitStatus body)
  | 0x88#8 :: body => .ok (.apiRxAtResponse body)
  | 0x97#8 :: body => .ok (.apiRxRemoteAtResponse body)
  | 0x80#8 :: body => .ok (.apiRxReceive64 body)
  | 0x81#8 :: body => .ok (.apiRxReceive16 body)
  | id :: _ => .error (.unknownApiId id)

/-- The decoder of a port. -/
def decode (port : Port) (bs : List Byte) : Except DecodeError Instr :=
  match port with
  | .command => decodeCommand bs
  | .outgoing => decodeOutgoing bs
  | .incoming => decodeIncoming bs

/-! ### The encoder -/

/-- The `bytes16` encoding, R100. -/
def putBytes16 (bs : List Byte) : List Byte := be16 (BitVec.ofNat 16 bs.length) ++ bs

/-- The `addr` encoding, R101. -/
def putAddress : Address → List Byte
  | .addr64 a => 0x00#8 :: be64 a
  | .addr16 s => 0x01#8 :: be16 s
  | .addr64Broadcast => [0x02#8]
  | .addr16Broadcast => [0x03#8]

/-- The bytes of an instruction on its port: R100 and R101 for commands, R90 and R92 for payloads. -/
def encode : Instr → List Byte
  | .reset => [0x00#8]
  | .sendFrame p => 0x01#8 :: putBytes16 p
  | .fillBuffer => [0x10#8]
  | .decodeFrame n => 0x11#8 :: be32 n
  | .recvFrame n => 0x12#8 :: be32 n
  | .parseFrame n => 0x20#8 :: be16 n
  | .atCommand f a0 a1 ps => [0x30#8, f, a0, a1] ++ putBytes16 ps
  | .atQueueParameter f a0 a1 ps => [0x31#8, f, a0, a1] ++ putBytes16 ps
  | .remoteAtCommandA64 f a o a0 a1 ps => [0x32#8, f] ++ putAddress (.addr64 a) ++ [o, a0, a1] ++ putBytes16 ps
  | .remoteAtCommandA16 f a o a0 a1 ps => [0x32#8, f] ++ putAddress (.addr16 a) ++ [o, a0, a1] ++ putBytes16 ps
  | .remoteAtCommandB64 f o a0 a1 ps => [0x32#8, f] ++ putAddress .addr64Broadcast ++ [o, a0, a1] ++ putBytes16 ps
  | .remoteAtCommandB16 f o a0 a1 ps => [0x32#8, f] ++ putAddress .addr16Broadcast ++ [o, a0, a1] ++ putBytes16 ps
  | .transmitA64 f a o d => [0x33#8, f] ++ putAddress (.addr64 a) ++ [o] ++ putBytes16 d
  | .transmitA16 f a o d => [0x33#8, f] ++ putAddress (.addr16 a) ++ [o] ++ putBytes16 d
  | .transmitB64 f o d => [0x33#8, f] ++ putAddress .addr64Broadcast ++ [o] ++ putBytes16 d
  | .transmitB16 f o d => [0x33#8, f] ++ putAddress .addr16Broadcast ++ [o] ++ putBytes16 d
  | .apiTxAtCommand f a0 a1 ps => [0x08#8, f, a0, a1] ++ ps
  | .apiTxAtQueueParameter f a0 a1 ps => [0x09#8, f, a0, a1] ++ ps
  | .apiTxRemoteAtCommand f a64 a16 o a0 a1 ps => [0x17#8, f] ++ be64 a64 ++ be16 a16 ++ [o, a0, a1] ++ ps
  | .apiTxTransmit64 f a64 o d => [0x00#8, f] ++ be64 a64 ++ [o] ++ d
  | .apiTxTransmit16 f a16 o d => [0x01#8, f] ++ be16 a16 ++ [o] ++ d
  | .apiRxModemStatus body => 0x8A#8 :: body
  | .apiRxTransmitStatus body => 0x89#8 :: body
  | .apiRxAtResponse body => 0x88#8 :: body
  | .apiRxRemoteAtResponse body => 0x97#8 :: body
  | .apiRxReceive64 body => 0x80#8 :: body
  | .apiRxReceive16 body => 0x81#8 :: body

/-! ### The opcode table's words -/

/-- The bytes of a table word of `nbits` bits, in the order the block receives them. The table numbers a row's bits as one number
whose most significant byte is the first byte: the code 32 of REMOTE_AT_COMMAND.A64 is bits 23..16 of a 24-bit row, its address tag
bits 7..0 (log 12). -/
def tableBytes (nbits w : Nat) : List Byte :=
  (List.range (nbits / 8)).map (fun k => BitVec.ofNat 8 (w / 256 ^ (nbits / 8 - 1 - k)))

/-- `bs` with zero bytes after it up to `n` bytes. -/
def padTo (n : Nat) (bs : List Byte) : List Byte := bs ++ List.replicate (n - bs.length) 0#8

/-- The number of bytes of the shortest payload of an API id: R90's fixed length for the outgoing ids, R96's minimum for the incoming. -/
def shortestPayload (id : Byte) : Nat :=
  match id with
  | 0x08#8 => 4
  | 0x09#8 => 4
  | 0x17#8 => 15
  | 0x00#8 => 11
  | 0x01#8 => 5
  | 0x8A#8 => 2
  | 0x89#8 => 3
  | 0x88#8 => 5
  | 0x97#8 => 15
  | 0x80#8 => 11
  | 0x81#8 => 5
  | _ => 0

/-- The longest command with empty byte strings is REMOTE_AT_COMMAND with an `Addr64`: 16 bytes (R100, R101). -/
def longestFixedCommand : Nat := 16

/-- A command's given bytes with the operand bytes of zeros that complete it, and no more. -/
def completeCommand (bs : List Byte) : List Byte :=
  match readCommand (bs ++ List.replicate longestFixedCommand 0#8) with
  | .ok (_, rest) => bs ++ List.replicate (longestFixedCommand - rest.length) 0#8
  | .error _ => bs

/-- The port and the whole byte string a table word stands for. A word is a command if its first byte is a command code of R100, else
an outgoing payload if it is an API id of R95, else an incoming one (log 12). -/
def tableInstr (nbits w : Nat) : Port × List Byte :=
  let bs := tableBytes nbits w
  match decodeCommand (completeCommand bs) with
  | .ok _ => (.command, completeCommand bs)
  | .error _ =>
    let p := padTo (shortestPayload (bs.headD 0#8)) bs
    match decodeOutgoing p with
    | .ok _ => (.outgoing, p)
    | .error _ => (.incoming, p)

/-- The instruction the decoder reads from a row's word of `nbits` bits, the bytes above them zero. -/
def decodeTableWord (nbits w : Nat) : Option Instr :=
  match decode (tableInstr nbits w).1 (tableInstr nbits w).2 with
  | .ok i => some i
  | .error _ => none

end Sys2Proof
end

