-- ==== Sys2Proof/Machine/State.lean ====
section
/-! DEFINITION. The state of the block and of what stands beside it (10_state.md), as plain data; why a step can stop; the state after
reset. -/

namespace Sys2Proof.Machine

/-- A byte memory: (address, byte) pairs, addresses strictly rising. An address that is not listed holds no byte of its own: reading it
gives a free value (log 6, 7), so every listed byte differs from what an unlisted address reads as. -/
abbrev Memory := List Host.Cell

/-- The parameters of R7 that a model takes as arguments. No command writes them (R22). -/
structure Params where
  /-- `C`, the ring capacity, R22 -/
  ringCap : Nat
  /-- `OUT_CAP`, the size of OUT, R26 -/
  outCap : Nat
  /-- `PARSE_ERR.wrong_length`, R260 -/
  wrongLengthCode : Int
  /-- `PARSE_ERR.unknown_id`, R260 -/
  unknownIdCode : Int
  deriving DecidableEq, Repr

/-- The four agents of R15. -/
inductive Agent where
  /-- issues commands, owns OUT -/
  | host
  /-- performs a command -/
  | block
  /-- answers reads and writes -/
  | transport
  /-- appends to `rx_pending` -/
  | line
  deriving DecidableEq, Repr

/-- What happens next: a move of the host or the line, or a payload handed over inside the block (log 1, 21). -/
inductive Event where
  /-- the host issues a command string on the command port, R100 -/
  | command (bytes : List Byte)
  /-- an assembled outgoing payload is handed to the encoder, R90, R204 (log 10) -/
  | outgoing (payload : List Byte)
  /-- the payload `OUT[0..size)` is handed to the demultiplexer, R88, R230 (log 11) -/
  | incoming (size : U16)
  /-- the host writes bytes of its own buffer OUT, R302, 92 D38 -/
  | hostWrite (start : Nat) (bytes : List Byte)
  /-- the line appends bytes to `rx_pending`, R27, R61 -/
  | line (bytes : List Byte)
  deriving DecidableEq, Repr

/-- Which agents act in the step an event takes, in their order (R15): a command is the host's, then the block's, which asks the
transport. That the host acts in neither payload event, the outgoing one being the block's and the transport's and the incoming one the
block's alone, is a DESIGN CHOICE, safe (log 21): R15 has the block act only on a host command, and the spec names no agent that hands a
payload over. No step reads this. -/
def Event.agents : Event → List Agent
  | .command _ => [.host, .block, .transport]
  | .outgoing _ => [.block, .transport]
  | .incoming _ => [.block]
  | .hostWrite _ _ => [.host]
  | .line _ => [.line]

/-- The transport's answer to one offered wire byte, R60. -/
inductive WriteAnswer where
  /-- `ACCEPT` -/
  | accept
  /-- `REFUSE` -/
  | refuse
  /-- an answer above what was offered, which breaks the contract, R60, D30 -/
  | over
  deriving DecidableEq, Repr

/-- The part of a frame a wire byte belongs to, R125, R261. -/
inductive Stage where
  /-- the start delimiter -/
  | delim
  /-- a raw byte of the escaped length -/
  | len
  /-- a raw byte of the escaped payload -/
  | payload
  /-- a raw byte of the escaped checksum -/
  | checksum
  deriving DecidableEq, Repr

/-- The error outcomes of R260, by name (92 D16, D17). -/
inductive BlockError where
  /-- the transport refused a byte of this stage, R261 -/
  | writeFailed (stage : Stage)
  /-- a transport read answered `e < 0`, R262 -/
  | transportRead (e : Int)
  /-- R263 -/
  | wrongLengthForApi
  /-- R263 -/
  | unknownApiId
  deriving DecidableEq, Repr

/-- A slice of R238: an offset and a length into OUT. -/
structure Slice where
  /-- the index in OUT of its first byte -/
  offset : Nat
  /-- how many bytes it has -/
  length : Nat
  deriving DecidableEq, Repr

/-- The response record: exactly six variants, R238. -/
inductive Record where
  /-- R232 -/
  | modemStatus (status : Byte)
  /-- R233 -/
  | transmitStatus (frameId status : Byte)
  /-- R234 -/
  | atResponse (frameId at0 at1 status : Byte) (data : Slice)
  /-- R235 -/
  | remoteAtResponse (frameId : Byte) (addr64 : U64) (addr16 : U16) (at0 at1 status : Byte) (data : Slice)
  /-- R236 -/
  | receive64 (srcAddr : U64) (rssi options : Byte) (payload : Slice)
  /-- R237 -/
  | receive16 (srcAddr : U16) (rssi options : Byte) (payload : Slice)
  deriving DecidableEq, Repr

/-- How an operation that ends reports, R12: `return v`, or `raise` of an error. -/
inductive Status where
  /-- `return v` -/
  | value (v : Int)
  /-- `raise e` -/
  | error (e : BlockError)
  deriving DecidableEq, Repr

/-- What a command hands back on the command port, R103: its status, and PARSE_FRAME's record on success. -/
structure Response where
  /-- the status, whose number is `Status.code` -/
  status : Status
  /-- PARSE_FRAME's record -/
  record : Option Record
  deriving DecidableEq, Repr

/-- Why the machine stops with a fault: an outside party broke its contract (R12, R269). -/
inductive Fault where
  /-- Raised by FILL_BUFFER and RECV_FRAME when a queued transport read answer is above the bytes asked for, R61, R269. SAFE: the run
  stops, as the spec says. -/
  | transportOverRead
  /-- Raised by SEND_FRAME, the builders and the API_TX rows when a queued transport write answer is above the byte offered, R60, R269.
  SAFE: the run stops, as the spec says. -/
  | transportOverWrite
  /-- Raised by the fetch when the host writes an index of OUT that is not below `OUT_CAP` (R50: OUT has no such address). SAFE: the run
  stops. -/
  | outsideOut
  deriving DecidableEq, Repr

/-- Why an instruction is refused (R12, R268). -/
inductive Refusal where
  /-- Raised by exec's arm of an instruction that has no meaning yet. SAFE. -/
  | notModelled (mnemonic : String)
  /-- Raised by the step when a command string is reserved (code, address tag or length, R102), and when a payload handed to the encoder
  is no row of R90, which the spec leaves open (DESIGN CHOICE, log 20). SAFE: the block performs nothing. -/
  | reservedEncoding (e : DecodeError)
  /-- Raised by DECODE_FRAME and RECV_FRAME when `out_size > OUT_CAP` (R102, R160). SAFE. -/
  | outSizeTooLarge
  /-- Raised by PARSE_FRAME when `size > OUT_CAP` (R102, R230). SAFE. -/
  | sizeTooLarge
  /-- Raised by SEND_FRAME, the builders and the API_TX rows when the payload is over 65535 bytes (R121). SAFE. -/
  | payloadTooLong
  /-- Raised by construction when `C = 0` (92 D3). SAFE. -/
  | zeroCapacity
  deriving DecidableEq, Repr

/-- The state: the block's own (R20 to R26), the transport's (R27), and the model's own fields `events`, `writeAnswers`,
`readAnswers`, `writeDraws`, `readDraws`, `outDraws` and `response`. -/
structure State where
  /-- the parameters of R7 -/
  params : Params
  /-- `recv_idx`, R20 -/
  recvIdx : Nat
  /-- `recv_size`, R21 -/
  recvSize : Nat
  /-- `ring[0..C)`, by physical offset, R25 -/
  ring : Memory
  /-- `OUT[0..OUT_CAP)`, R26 -/
  out : Memory
  /-- `rx_pending`, oldest first, R27 -/
  rxPending : List Byte
  /-- `tx_line`, oldest first, R27 -/
  txLine : List Byte
  /-- MODEL: what happens next: moves of the host and the line, and payloads handed over (log 1, 21) -/
  events : List Event
  /-- MODEL: the transport's queued answers to offered bytes (log 2) -/
  writeAnswers : List WriteAnswer
  /-- MODEL: the transport's queued answers to reads, negative for an error (log 2) -/
  readAnswers : List Int
  /-- MODEL: how many free write answers have been taken (log 2) -/
  writeDraws : Nat
  /-- MODEL: how many free read answers have been taken (log 2) -/
  readDraws : Nat
  /-- MODEL: the `out_size` of every decode that left OUT bytes "any value", newest first (log 7) -/
  outDraws : List Nat
  /-- MODEL: what the last command returned, R103 (log 9) -/
  response : Option Response
  deriving DecidableEq, Repr

/-- The launch state with given parameters: R290 and R31 for `recv_idx` and `recv_size`; ring and OUT "any value" (nothing listed); the
named premises of R291 for the rest (log 8). -/
def State.initial (p : Params) : State where
  params := p
  recvIdx := 0
  recvSize := 0
  ring := []
  out := []
  rxPending := []
  txLine := []
  events := []
  writeAnswers := []
  readAnswers := []
  writeDraws := 0
  readDraws := 0
  outDraws := []
  response := none

/-- The parameters of the state after reset: C = 256 and OUT_CAP = 256 (DESIGN CHOICE, log 5), PARSE_ERR at R7's defaults. -/
def Params.standard : Params where
  ringCap := 256
  outCap := 256
  wrongLengthCode := -15
  unknownIdCode := -16

/-- The machine right after reset, R31, R290, R291. -/
def State.reset : State := State.initial Params.standard

end Sys2Proof.Machine
end

