-- ==== Sys2Proof/Machine/Flags.lean ====
section
/-! DEFINITION. The computed conditions of the block. It has no flags (R23): these are the escape set (R81), the checksum (R85) and the
result codes (R260), each used inside one operation and latched nowhere. -/

namespace Sys2Proof.Machine

/-- The start delimiter, R14. -/
def delimiter : Byte := 0x7E

/-- The escape byte, R14. -/
def escapeByte : Byte := 0x7D

/-- The escape set `ESC`, R81. -/
def inEsc (b : Byte) : Bool := b == 0x7E || b == 0x7D || b == 0x11 || b == 0x13

/-- The escape transform `esc`, R81. -/
def esc (b : Byte) : List Byte := if inEsc b then [escapeByte, b ^^^ 0x20] else [b]

/-- The sum of bytes mod 256, R85. -/
def sum8 (bs : List Byte) : Byte := bs.foldl (· + ·) 0

/-- `CHECKSUM = 0xFF - s`, R85. -/
def checksumOf (payload : List Byte) : Byte := 0xFF - sum8 payload

/-- A received frame is valid when payload and checksum sum to 0xFF, R85, R171. -/
def validSum (sum : Byte) : Bool := sum == 0xFF

/-- The unescaped bytes of `F(P)` after the delimiter, R80. -/
def frameBody (payload : List Byte) : List Byte :=
  be16 (BitVec.ofNat 16 payload.length) ++ payload ++ [checksumOf payload]

/-- The wire encoding of `F(P)`, R80: the delimiter, then everything else escaped. -/
def wireOf (payload : List Byte) : List Byte := delimiter :: (frameBody payload).flatMap esc

/-- The number of a write-failure stage, R260 (92 D16). -/
def stageCode : Stage → Int
  | .delim => -11
  | .len => -12
  | .payload => -13
  | .checksum => -14

/-- The number of an error, R260. -/
def errorCode (p : Params) : BlockError → Int
  | .writeFailed st => stageCode st
  | .transportRead e => e
  | .wrongLengthForApi => p.wrongLengthCode
  | .unknownApiId => p.unknownIdCode

/-- The `Int` a command returns, R103. -/
def statusCode (p : Params) : Status → Int
  | .value v => v
  | .error e => errorCode p e

end Sys2Proof.Machine
end

