-- ==== Sys2Proof/Machine/Ops.lean ====
section
/-! DEFINITION. The named operations over the state: byte memories, RingByte, Drop1, Commit (R51, R53, R54), OUT (R168, R174), the
transport primitives (R60, R61), ending a command (R12, R267) and fetching the next instruction (R100). -/

namespace Sys2Proof.Machine

/-! ### Byte memories -/

/-- The byte listed at an address, if one is. -/
def Memory.get? : Memory → Nat → Option Byte
  | [], _ => none
  | (k, v) :: m, a => if a = k then some v else Memory.get? m a

/-- Writing one byte, the addresses kept strictly rising. -/
def Memory.put : Memory → Nat → Byte → Memory
  | [], a, b => [(a, b)]
  | (k, v) :: m, a, b =>
    if a < k then (a, b) :: (k, v) :: m
    else if a = k then (a, b) :: m
    else (k, v) :: Memory.put m a b

/-- Writing bytes at an address and the ones after it, in order. -/
def Memory.putAll (m : Memory) (a : Nat) : List Byte → Memory
  | [] => m
  | b :: bs => Memory.putAll (Memory.put m a b) (a + 1) bs

/-- Forgetting what every address below `n` holds. -/
def Memory.forget (n : Nat) (m : Memory) : Memory := m.filter (fun c => decide (n ≤ c.1))

/-- The canonical form: addresses strictly rising. -/
abbrev Memory.wf (m : Memory) : Prop := m.Pairwise (fun c d => c.1 < d.1)

/-- Every listed address is below `n`. -/
abbrev Memory.within (n : Nat) (m : Memory) : Prop := ∀ c ∈ m, c.1 < n

/-! ### The ring -/

/-- The physical offset of a logical index, R51. -/
def State.physical (s : State) (i : Nat) : Nat := (s.recvIdx + i) % s.params.ringCap

/-- `RingByte(i)`, R51: used only for `i < recv_size`. -/
def State.ringByte (s : State) (i : Nat) : Byte :=
  (s.ring.get? (s.physical i)).getD (Config.anyRingByte (s.physical i))

/-- The logical window: the raw bytes held, in arrival order, R24. -/
def State.window (s : State) : List Byte := (List.range s.recvSize).map s.ringByte

/-- `Drop1()`, R53. -/
def State.drop1 (s : State) : State :=
  { s with recvIdx := (s.recvIdx + 1) % s.params.ringCap, recvSize := s.recvSize - 1 }

/-- `Commit(n)`, R54. -/
def State.commit (n : Nat) (s : State) : State :=
  { s with recvIdx := (s.recvIdx + n) % s.params.ringCap, recvSize := s.recvSize - n }

/-- `recv_size <- recv_size + r`, R141. -/
def State.grow (r : Nat) (s : State) : State := { s with recvSize := s.recvSize + r }

/-! ### OUT -/

/-- Which free value an unlisted address of OUT holds: how many decodes have left it "any value" (R174). -/
def State.outDraw (s : State) (a : Nat) : Nat := s.outDraws.countP (fun n => decide (a < n))

/-- `MemRead(OUT:a, 1)`, R11. -/
def State.outByte (s : State) (a : Nat) : Byte :=
  (s.out.get? a).getD (Config.anyOutByte (s.outDraw a) a)

/-- `OUT[0..n)`, R230. -/
def State.outBytes (s : State) (n : Nat) : List Byte := (List.range n).map s.outByte

/-- The bytes a borrowed slice denotes now, R238, R302. -/
def State.sliceBytes (s : State) (sl : Slice) : List Byte :=
  (List.range sl.length).map (fun j => s.outByte (sl.offset + j))

/-- Writing bytes of OUT from an index on, R11. -/
def State.writeOut (a : Nat) (bs : List Byte) (s : State) : State := { s with out := s.out.putAll a bs }

/-- `OUT[0..outSize)` becomes "any value", R174: what is listed there is forgotten, and fresh free values stand there. -/
def State.freeOut (outSize : Nat) (s : State) : State :=
  { s with out := s.out.forget outSize, outDraws := outSize :: s.outDraws }

/-! ### Ending a command -/

/-- `return v`, R12. -/
def State.ret (v : Int) (s : State) : State := { s with response := some ⟨.value v, none⟩ }

/-- `return (0, record)`, R230. -/
def State.retRecord (r : Record) (s : State) : State := { s with response := some ⟨.value 0, some r⟩ }

/-- `raise e`, R12: the error "entry" of R267. What was changed before stays, nothing is saved, and the host gets the code. -/
def State.raise (e : BlockError) (s : State) : State := { s with response := some ⟨.error e, none⟩ }

/-! ### The transport -/

/-- The transport's answer to the `k`-th wire byte offered from now on, R60: queued, or else free (log 2, 3). -/
def State.writeAnswer (s : State) (k : Nat) : WriteAnswer :=
  match s.writeAnswers[k]? with
  | some a => a
  | none => if Config.freeWriteAccepts (s.writeDraws + (k - s.writeAnswers.length)) then .accept else .refuse

/-- The state after the transport has answered `m` offers. -/
def State.writesTaken (m : Nat) (s : State) : State :=
  { s with writeAnswers := s.writeAnswers.drop m, writeDraws := s.writeDraws + (m - s.writeAnswers.length) }

/-- How many of the next `n` offers, from the `k`-th on, the transport accepts before one it does not. -/
def State.acceptRun (s : State) (k : Nat) : Nat → Nat
  | 0 => 0
  | n + 1 => if s.writeAnswer k = .accept then s.acceptRun (k + 1) n + 1 else 0

/-- The accepted bytes go out on the line and the answers are used up, R60. -/
def State.sent (bs : List Byte) (answers : Nat) (s : State) : State :=
  { s.writesTaken answers with txLine := s.txLine ++ bs }

/-- `TxEmit` of wire bytes one after the other, R60, R125: each is offered in order until one is not accepted. A refusal raises
WriteFailed with that byte's stage, R261; an answer above the offer is a fault, R269. -/
def State.txEmit (offers : List (Byte × Stage)) (s : State) : Host.Outcome State Fault Refusal :=
  let m := s.acceptRun 0 offers.length
  if s.writeAnswers[m]? == some .over && decide (m < offers.length) then .fault .transportOverWrite
  else .next <|
    match offers[m]? with
    | none => (s.sent (offers.map Prod.fst) m).ret 0
    | some (_, st) => (s.sent ((offers.take m).map Prod.fst) (m + 1)).raise (.writeFailed st)

/-- The transport's next answer to a read, R61: queued, or else free (log 2, 3). -/
def State.readAnswer (s : State) : Int :=
  match s.readAnswers with
  | a :: _ => a
  | [] => Config.freeReadAnswer s.readDraws

/-- The state after the transport has answered one read. -/
def State.readTaken (s : State) : State :=
  match s.readAnswers with
  | _ :: r => { s with readAnswers := r }
  | [] => { s with readDraws := s.readDraws + 1 }

/-- A queued answer above the `n` bytes asked for breaks the contract, R61, R269. -/
def State.readBreach (s : State) (n : Nat) : Bool :=
  match s.readAnswers with
  | a :: _ => decide ((n : Int) < a)
  | [] => false

/-- What a read of up to `n` bytes answers, R61: `e < 0`, or `r` with `0 ≤ r ≤ min(n, |rx_pending|)` (log 4). -/
def State.readResult (s : State) (n : Nat) : Int :=
  if s.readAnswer < 0 then s.readAnswer else min s.readAnswer (min n s.rxPending.length : Nat)

/-- `RxRead(p, n)`, R61: the answer, and the state with the bytes moved from `rx_pending` into the ring. On an error no byte moves. -/
def State.rxRead (p n : Nat) (s : State) : Int × State :=
  let r := s.readResult n
  (r, { s.readTaken with
        ring := s.ring.putAll p (s.rxPending.take r.toNat)
        rxPending := s.rxPending.drop r.toNat })

/-! ### Fetching -/

/-- What the next step is. -/
inductive Fetch where
  /-- no event: the block waits, R279, R291 -/
  | idle
  /-- an instruction, and the state without its event -/
  | run (i : Instr) (s : State)
  /-- the host or the line has moved -/
  | moved (s : State)
  /-- no instruction of the port: R102 for a command string, log 20 for an outgoing payload -/
  | reserved (e : DecodeError)
  /-- a host write outside OUT, R50 -/
  | outside

/-- The next event (log 1, 21). The demultiplexer's opcode is the first byte of the payload in OUT (R88, R230); a
payload that is no row of R96 goes to PARSE_FRAME, which answers for it (R231, R239; log 11). A command string that is no instruction
is refused by R102. A payload handed to the encoder that is no row of R90 is refused too, by a DESIGN CHOICE, safe (log 20). -/
def State.fetch (s : State) : Fetch :=
  match s.events with
  | [] => .idle
  | e :: rest =>
    let t := { s with events := rest }
    match e with
    | .command bs =>
      match decodeCommand bs with
      | .ok i => .run i t
      | .error e => .reserved e
    | .outgoing p =>
      match decodeOutgoing p with
      | .ok i => .run i t
      | .error e => .reserved e
    | .incoming size =>
      if size.toNat ≤ s.params.outCap then
        match decodeIncoming (s.outBytes size.toNat) with
        | .ok i => .run i t
        | .error _ => .run (.parseFrame size) t
      else .run (.parseFrame size) t
    | .hostWrite a bs => if bs = [] ∨ a + bs.length ≤ s.params.outCap then .moved (t.writeOut a bs) else .outside
    | .line bs => .moved { t with rxPending := t.rxPending ++ bs }

/-- The state with an instruction's bytes standing where the next step fetches: on the command port, at the encoder, or in OUT for the
demultiplexer. -/
def State.place (port : Port) (bs : List Byte) (s : State) : State :=
  match port with
  | .command => { s with events := .command bs :: s.events }
  | .outgoing => { s with events := .outgoing bs :: s.events }
  | .incoming => { s.writeOut 0 bs with events := .incoming (BitVec.ofNat 16 bs.length) :: s.events }

end Sys2Proof.Machine
end

