-- ==== Sys2Proof/Machine/Operands.lean ====
section
/-! DEFINITION. The operand forms of payloads: the outgoing layouts (R90, R91, R206) and the fields of incoming ones (R84, R92). -/

namespace Sys2Proof.Machine

/-- `00 00 00 00 00 00 FF FE`, R91: no 64-bit address. -/
def noAddr64 : List Byte := [0x00, 0x00, 0x00, 0x00, 0x00, 0x00, 0xFF, 0xFE]

/-- `00 00 00 00 00 00 FF FF`, R91: the 64-bit broadcast. -/
def broadcast64 : List Byte := [0x00, 0x00, 0x00, 0x00, 0x00, 0x00, 0xFF, 0xFF]

/-- `FF FE`, R91: no 16-bit address. -/
def noAddr16 : List Byte := [0xFF, 0xFE]

/-- `FF FF`, R91: the 16-bit broadcast. -/
def broadcast16 : List Byte := [0xFF, 0xFF]

/-- `Fields64(addr)`, R206: the addr64 and addr16 fields of REMOTE_AT_COMMAND. -/
def fields64 : Address → List Byte × List Byte
  | .addr64 a => (be64 a, noAddr16)
  | .addr16 s => (noAddr64, be16 s)
  | .addr64Broadcast => (broadcast64, noAddr16)
  | .addr16Broadcast => (noAddr64, broadcast16)

/-- The layout of API ids 0x08 and 0x09, R90. -/
def atLayout (id f a0 a1 : Byte) (params : List Byte) : List Byte := [id, f, a0, a1] ++ params

/-- The layout of API id 0x17, R90. -/
def remoteAtLayout (f : Byte) (f64 f16 : List Byte) (o a0 a1 : Byte) (params : List Byte) : List Byte :=
  [0x17, f] ++ f64 ++ f16 ++ [o, a0, a1] ++ params

/-- The layout of API ids 0x00 and 0x01, R90. -/
def transmitLayout (id f : Byte) (field : List Byte) (o : Byte) (data : List Byte) : List Byte :=
  [id, f] ++ field ++ [o] ++ data

/-- REMOTE_AT_COMMAND's payload, R202. -/
def remoteAtPayload (f : Byte) (addr : Address) (o a0 a1 : Byte) (params : List Byte) : List Byte :=
  remoteAtLayout f (fields64 addr).1 (fields64 addr).2 o a0 a1 params

/-- TRANSMIT's payload, R203: the frame type is chosen by the address variant. -/
def transmitPayload (f : Byte) (addr : Address) (o : Byte) (data : List Byte) : List Byte :=
  match addr with
  | .addr64 a => transmitLayout 0x00 f (be64 a) o data
  | .addr64Broadcast => transmitLayout 0x00 f broadcast64 o data
  | .addr16 s => transmitLayout 0x01 f (be16 s) o data
  | .addr16Broadcast => transmitLayout 0x01 f broadcast16 o data

/-- `P[i]`, used only for `i < |P|`, R92. -/
def fieldByte (p : List Byte) (i : Nat) : Byte := p.getD i 0

/-- `u16be(o)`, R84. -/
def fieldU16 (p : List Byte) (o : Nat) : U16 := beFold 16 ((p.drop o).take 2)

/-- `u64be(o)`, R84. -/
def fieldU64 (p : List Byte) (o : Nat) : U64 := beFold 64 ((p.drop o).take 8)

/-- `S(o)`: the rest of the payload from offset `o`, as a slice of OUT, section 2 of 44_parser.md. -/
def fieldRest (p : List Byte) (o : Nat) : Slice := ⟨o, p.length - o⟩

end Sys2Proof.Machine
end

