-- ==== Sys2Proof/Machine/Encoder.lean ====
section
/-! DEFINITION. The frame encoder, 40_encoder.md: `start_frame`, `write_bytes`, `finish_frame`, the shared emission (R204) and
SEND_FRAME. -/

namespace Sys2Proof.Machine

/-- The encoder's working values during one operation: the accumulator (R28), and the wire bytes it offers to the transport, in order,
each with its stage (R261). None of them depends on the transport's answers. -/
structure Encoder where
  /-- `accum`, R28 -/
  accum : Byte
  /-- the bytes offered so far -/
  offered : List (Byte × Stage)
  deriving DecidableEq, Repr

/-- `EmitEsc(b, stage)`, R125. -/
def emitEsc (b : Byte) (stage : Stage) (e : Encoder) : Encoder :=
  { e with offered := e.offered ++ (esc b).map (fun w => (w, stage)) }

/-- `start_frame(L)`, R122: the delimiter unescaped, LEN_HI, LEN_LO, then `accum <- 0`. -/
def startFrame (len : U16) : Encoder :=
  { emitEsc (len.extractLsb' 0 8) .len (emitEsc (len.extractLsb' 8 8) .len ⟨0, [(delimiter, .delim)]⟩) with accum := 0 }

/-- `write_bytes(B)`, R123: each byte is escaped on the wire and added, unescaped, to the accumulator. -/
def writeBytes (e : Encoder) : List Byte → Encoder
  | [] => e
  | b :: bs => writeBytes { emitEsc b .payload e with accum := e.accum + b } bs

/-- `finish_frame()`, R124. -/
def finishFrame (e : Encoder) : Encoder := emitEsc (0xFF - e.accum) .checksum e

/-- Every wire byte that sending `payload` offers, R120, R204. -/
def frameOffers (payload : List Byte) : List (Byte × Stage) :=
  (finishFrame (writeBytes (startFrame (BitVec.ofNat 16 payload.length)) payload)).offered

/-- `Emit(P)`, R204, and the body of SEND_FRAME, R120: refused over 65535 bytes (R121), else the frame is offered byte by byte. -/
def emitPayload (payload : List Byte) (s : State) : Host.Outcome State Fault Refusal :=
  if Config.maxPayload < payload.length then .refused .payloadTooLong
  else s.txEmit (frameOffers payload)

/-- SEND_FRAME, R120. -/
def execSendFrame (payload : List Byte) (s : State) : Host.Outcome State Fault Refusal := emitPayload payload s

end Sys2Proof.Machine
end

