-- ==== Sys2Proof/Machine/ApiTx.lean ====
section
/-! DEFINITION. The outgoing API payloads, R90 and R95: what the block does with one is to emit it as a frame (R204, log 10). -/

namespace Sys2Proof.Machine

/-- API_TX.AT_COMMAND, id 0x08, R90, R200. -/
def execApiTxAtCommand (f a0 a1 : Byte) (params : List Byte) (s : State) : Host.Outcome State Fault Refusal :=
  emitPayload (atLayout 0x08 f a0 a1 params) s

/-- API_TX.AT_QUEUE_PARAMETER, id 0x09, R90, R201. -/
def execApiTxAtQueueParameter (f a0 a1 : Byte) (params : List Byte) (s : State) : Host.Outcome State Fault Refusal :=
  emitPayload (atLayout 0x09 f a0 a1 params) s

/-- API_TX.REMOTE_AT_COMMAND, id 0x17, R90, R202. -/
def execApiTxRemoteAtCommand (f : Byte) (a64 : U64) (a16 : U16) (o a0 a1 : Byte) (params : List Byte) (s : State) :
    Host.Outcome State Fault Refusal :=
  emitPayload (remoteAtLayout f (be64 a64) (be16 a16) o a0 a1 params) s

/-- API_TX.TRANSMIT_64, id 0x00, R90, R203. -/
def execApiTxTransmit64 (f : Byte) (a64 : U64) (o : Byte) (data : List Byte) (s : State) :
    Host.Outcome State Fault Refusal :=
  emitPayload (transmitLayout 0x00 f (be64 a64) o data) s

/-- API_TX.TRANSMIT_16, id 0x01, R90, R203. -/
def execApiTxTransmit16 (f : Byte) (a16 : U16) (o : Byte) (data : List Byte) (s : State) :
    Host.Outcome State Fault Refusal :=
  emitPayload (transmitLayout 0x01 f (be16 a16) o data) s

end Sys2Proof.Machine
end

