-- ==== Sys2Proof/Machine/Builders.lean ====
section
/-! DEFINITION. The command builders, 43_builders.md: each assembles its payload (R90, R91) and emits it (R204), with no check of its
arguments beyond the total length (R205). -/

namespace Sys2Proof.Machine

/-- AT_COMMAND, R200. -/
def execAtCommand (f a0 a1 : Byte) (params : List Byte) (s : State) : Host.Outcome State Fault Refusal :=
  emitPayload (atLayout 0x08 f a0 a1 params) s

/-- AT_QUEUE_PARAMETER, R201. -/
def execAtQueueParameter (f a0 a1 : Byte) (params : List Byte) (s : State) : Host.Outcome State Fault Refusal :=
  emitPayload (atLayout 0x09 f a0 a1 params) s

/-- REMOTE_AT_COMMAND with `Addr64`, R202. -/
def execRemoteAtCommandA64 (f : Byte) (a : U64) (o a0 a1 : Byte) (params : List Byte) (s : State) :
    Host.Outcome State Fault Refusal :=
  emitPayload (remoteAtPayload f (.addr64 a) o a0 a1 params) s

/-- REMOTE_AT_COMMAND with `Addr16`, R202. -/
def execRemoteAtCommandA16 (f : Byte) (a : U16) (o a0 a1 : Byte) (params : List Byte) (s : State) :
    Host.Outcome State Fault Refusal :=
  emitPayload (remoteAtPayload f (.addr16 a) o a0 a1 params) s

/-- REMOTE_AT_COMMAND with `Addr64Broadcast`, R202. -/
def execRemoteAtCommandB64 (f o a0 a1 : Byte) (params : List Byte) (s : State) : Host.Outcome State Fault Refusal :=
  emitPayload (remoteAtPayload f .addr64Broadcast o a0 a1 params) s

/-- REMOTE_AT_COMMAND with `Addr16Broadcast`, R202. -/
def execRemoteAtCommandB16 (f o a0 a1 : Byte) (params : List Byte) (s : State) : Host.Outcome State Fault Refusal :=
  emitPayload (remoteAtPayload f .addr16Broadcast o a0 a1 params) s

/-- TRANSMIT with `Addr64`, R203. -/
def execTransmitA64 (f : Byte) (a : U64) (o : Byte) (data : List Byte) (s : State) : Host.Outcome State Fault Refusal :=
  emitPayload (transmitPayload f (.addr64 a) o data) s

/-- TRANSMIT with `Addr16`, R203. -/
def execTransmitA16 (f : Byte) (a : U16) (o : Byte) (data : List Byte) (s : State) : Host.Outcome State Fault Refusal :=
  emitPayload (transmitPayload f (.addr16 a) o data) s

/-- TRANSMIT with `Addr64Broadcast`, R203. -/
def execTransmitB64 (f o : Byte) (data : List Byte) (s : State) : Host.Outcome State Fault Refusal :=
  emitPayload (transmitPayload f .addr64Broadcast o data) s

/-- TRANSMIT with `Addr16Broadcast`, R203. -/
def execTransmitB16 (f o : Byte) (data : List Byte) (s : State) : Host.Outcome State Fault Refusal :=
  emitPayload (transmitPayload f .addr16Broadcast o data) s

end Sys2Proof.Machine
end

