-- ==== Sys2Proof/Machine/Refill.lean ====
section
/-! DEFINITION. The ring refill, 41_ring_refill.md: FILL_BUFFER. -/

namespace Sys2Proof.Machine

/-- `end = recv_idx + recv_size`, R140. -/
def State.ringEnd (s : State) : Nat := s.recvIdx + s.recvSize

/-- `FILL_BUFFER()`, R142: its result and the state it leaves, when the transport keeps its contract. A negative result is a transport
read error; phase-1 bytes stay counted when phase 2 fails. -/
def State.fill (s : State) : Int × State :=
  if s.recvSize = s.params.ringCap then (0, s)
  else if s.ringEnd < s.params.ringCap then
    let n1 := s.params.ringCap - s.ringEnd
    let x1 := s.rxRead s.ringEnd n1
    if x1.1 < 0 then x1
    else
      let s1 := x1.2.grow x1.1.toNat
      if x1.1 = n1 ∧ s.recvIdx ≠ 0 then
        let x2 := s1.rxRead 0 s.recvIdx
        if x2.1 < 0 then x2 else (x1.1 + x2.1, x2.2.grow x2.1.toNat)
      else (x1.1, s1)
  else
    let x := s.rxRead (s.ringEnd - s.params.ringCap) (s.params.ringCap - s.recvSize)
    if x.1 < 0 then x else (x.1, x.2.grow x.1.toNat)

/-- A read that FILL_BUFFER issues is answered with more bytes than it asks for, R61, R269. Phase 2 is issued, as in R142, only after a
full phase 1 and with the head not at 0. -/
def State.fillBreach (s : State) : Bool :=
  if s.recvSize = s.params.ringCap then false
  else if s.ringEnd < s.params.ringCap then
    let n1 := s.params.ringCap - s.ringEnd
    s.readBreach n1
      || (s.readTaken.readBreach s.recvIdx && (decide (s.readResult n1 = n1) && decide (s.recvIdx ≠ 0)))
  else s.readBreach (s.params.ringCap - s.recvSize)

/-- The result of a fill as a status: a count, or the transport's own error (R103, R262). -/
def fillStatus (r : Int) (s : State) : State := if r < 0 then s.raise (.transportRead r) else s.ret r

/-- FILL_BUFFER, R142. -/
def execFillBuffer (s : State) : Host.Outcome State Fault Refusal :=
  if s.fillBreach then .fault .transportOverRead
  else .next (fillStatus s.fill.1 s.fill.2)

end Sys2Proof.Machine
end

