-- ==== Sys2Proof/Machine/Decoder.lean ====
section
/-! DEFINITION. The frame decoder, 42_decoder.md: DECODE_FRAME and RECV_FRAME. -/

namespace Sys2Proof.Machine

/-- What `Unesc(i)` answers, R162. -/
inductive Unescaped where
  /-- a byte and the next raw offset -/
  | value (v : Byte) (next : Nat)
  /-- FOUND_START -/
  | foundStart
  /-- NOT_ENOUGH_DATA -/
  | notEnough
  deriving DecidableEq, Repr

/-- `Unesc(i)`, R162. -/
def State.unesc (s : State) (i : Nat) : Unescaped :=
  if s.recvSize ≤ i then .notEnough
  else if s.ringByte i = delimiter then .foundStart
  else if s.ringByte i = escapeByte then
    if s.recvSize ≤ i + 1 then .notEnough
    else if s.ringByte (i + 1) = delimiter then .foundStart
    else .value (s.ringByte (i + 1) ^^^ 0x20) (i + 2)
  else .value (s.ringByte i) (i + 1)

/-- How step 5 ends, R167. -/
inductive BodyEnd where
  /-- all `length + 1` bytes: the bytes in order, the raw offset after them, the sum -/
  | done (bytes : List Byte) (next : Nat) (sum : Byte)
  /-- FOUND_START, R169 -/
  | foundStart
  /-- NOT_ENOUGH_DATA, R170 -/
  | notEnough
  deriving DecidableEq, Repr

/-- `v` in front of the bytes of a body that was read whole. -/
def consBody (v : Byte) : BodyEnd → BodyEnd
  | .done bytes next sum => .done (v :: bytes) next sum
  | .foundStart => .foundStart
  | .notEnough => .notEnough

/-- Step 5, R167: `n` more bytes are unescaped from raw offset `i`, `sum` the total so far. -/
def State.readBody (s : State) : Nat → Nat → Byte → BodyEnd
  | 0, i, sum => .done [] i sum
  | n + 1, i, sum =>
    match s.unesc i with
    | .value v next => consBody v (s.readBody n next (sum + v))
    | .foundStart => .foundStart
    | .notEnough => .notEnough

/-- How one frame attempt ends, R164 to R172. -/
inductive Attempt where
  /-- drop one byte and start over -/
  | drop
  /-- return 0: the frame may still complete -/
  | wait
  /-- accept: payload and checksum, and how many raw bytes to commit -/
  | accept (bytes : List Byte) (raw : Nat)
  deriving DecidableEq, Repr

/-- A `0x7E` at a logical offset in `[1, recv_size)`, R170. -/
def State.laterStart (s : State) : Bool :=
  (List.range s.recvSize).any (fun j => decide (1 ≤ j) && s.ringByte j == delimiter)

/-- The triage of NOT_ENOUGH_DATA, R170, its tests in the rule's order. -/
def State.triage (s : State) : Attempt :=
  if s.recvSize = s.params.ringCap then .drop
  else if s.laterStart then .drop
  else .wait

/-- Steps 4 to 7 for a frame whose length field is `length` and whose payload starts at raw offset `i`, R166 to R172. -/
def State.attemptBody (s : State) (outSize length i : Nat) : Attempt :=
  if length + 1 > outSize ∨ length + 4 > s.params.ringCap then .drop
  else
    match s.readBody (length + 1) i 0 with
    | .foundStart => .drop
    | .notEnough => s.triage
    | .done bytes next sum => if validSum sum then .accept bytes next else .drop

/-- One iteration of the outer loop after its guard, R160: the head check (R164), the length field (R165), then the rest. -/
def State.attempt (s : State) (outSize : Nat) : Attempt :=
  if s.ringByte 0 ≠ delimiter then .drop
  else
    match s.unesc 1 with
    | .value hi i =>
      match s.unesc i with
      | .value lo i => s.attemptBody outSize (beFold 16 [hi, lo]).toNat i
      | .foundStart => .drop
      | .notEnough => .drop
    | .foundStart => .drop
    | .notEnough => .drop

/-- The outer loop, R160, R161: the state it leaves, and the payload and checksum of the frame it accepted. `fuel` bounds the drops;
`recv_size` is always enough, since every drop lowers it by one (R173). -/
def decodeLoop (outSize : Nat) : Nat → State → State × Option (List Byte)
  | 0, s => (s, none)
  | fuel + 1, s =>
    if s.recvSize < Config.minDecode then (s, none)
    else
      match s.attempt outSize with
      | .drop => decodeLoop outSize fuel s.drop1
      | .wait => (s, none)
      | .accept bytes raw => (s.commit raw, some bytes)

/-- What the call leaves in OUT and returns, R168, R171, R174: after a frame of length L > 0, payload and checksum, the rest of
`OUT[0..outSize)` free; after a result of 0 all of `OUT[0..outSize)` is free. -/
def finishDecode (outSize : Nat) (s : State) : Option (List Byte) → State
  | none => (s.freeOut outSize).ret 0
  | some bytes =>
    if bytes.length ≤ 1 then (s.freeOut outSize).ret 0
    else ((s.freeOut outSize).writeOut 0 bytes).ret (bytes.length - 1 : Nat)

/-- DECODE_FRAME within OUT_CAP, R160. With fewer than 6 bytes held nothing changes, R160, R176, R177 (log 15). -/
def State.decodeFrame (outSize : Nat) (s : State) : State :=
  if s.recvSize < Config.minDecode then s.ret 0
  else
    let x := decodeLoop outSize s.recvSize s
    finishDecode outSize x.1 x.2

/-- DECODE_FRAME, R160. -/
def execDecodeFrame (outSize : U32) (s : State) : Host.Outcome State Fault Refusal :=
  if s.params.outCap < outSize.toNat then .refused .outSizeTooLarge
  else .next (s.decodeFrame outSize.toNat)

/-- RECV_FRAME, R180: one fill; if it failed, its error; else one decode. -/
def execRecvFrame (outSize : U32) (s : State) : Host.Outcome State Fault Refusal :=
  if s.params.outCap < outSize.toNat then .refused .outSizeTooLarge
  else if s.fillBreach then .fault .transportOverRead
  else .next (if s.fill.1 < 0 then s.fill.2.raise (.transportRead s.fill.1) else s.fill.2.decodeFrame outSize.toNat)

end Sys2Proof.Machine
end

