-- ==== Sys2Proof/Machine/Parser.lean ====
section
/-! DEFINITION. The response parser, 44_parser.md: PARSE_FRAME and the six rows of the demultiplexer. -/

namespace Sys2Proof.Machine

/-- `Need(m, exact)`, R230. -/
def needExactly (m : Nat) (p : List Byte) (r : Record) : Except BlockError Record :=
  if p.length = m then .ok r else .error .wrongLengthForApi

/-- `Need(m, atleast)`, R230. -/
def needAtLeast (m : Nat) (p : List Byte) (r : Record) : Except BlockError Record :=
  if m ≤ p.length then .ok r else .error .wrongLengthForApi

/-- 0x8A, R232. -/
def parseModemStatus (p : List Byte) : Except BlockError Record :=
  needExactly 2 p (.modemStatus (fieldByte p 1))

/-- 0x89, R233. -/
def parseTransmitStatus (p : List Byte) : Except BlockError Record :=
  needExactly 3 p (.transmitStatus (fieldByte p 1) (fieldByte p 2))

/-- 0x88, R234. -/
def parseAtResponse (p : List Byte) : Except BlockError Record :=
  needAtLeast 5 p (.atResponse (fieldByte p 1) (fieldByte p 2) (fieldByte p 3) (fieldByte p 4) (fieldRest p 5))

/-- 0x97, R235. -/
def parseRemoteAtResponse (p : List Byte) : Except BlockError Record :=
  needAtLeast 15 p (.remoteAtResponse (fieldByte p 1) (fieldU64 p 2) (fieldU16 p 10) (fieldByte p 12) (fieldByte p 13)
    (fieldByte p 14) (fieldRest p 15))

/-- 0x80, R236. -/
def parseReceive64 (p : List Byte) : Except BlockError Record :=
  needAtLeast 11 p (.receive64 (fieldU64 p 1) (fieldByte p 9) (fieldByte p 10) (fieldRest p 11))

/-- 0x81, R237. -/
def parseReceive16 (p : List Byte) : Except BlockError Record :=
  needAtLeast 5 p (.receive16 (fieldU16 p 1) (fieldByte p 3) (fieldByte p 4) (fieldRest p 5))

/-- The dispatch of R230 on the payload's first byte: no byte (R239), an unknown id (R231), or one of the six. -/
def demux : List Byte → Except BlockError Record
  | [] => .error .wrongLengthForApi
  | id :: body =>
    match id with
    | 0x8A#8 => parseModemStatus (id :: body)
    | 0x89#8 => parseTransmitStatus (id :: body)
    | 0x88#8 => parseAtResponse (id :: body)
    | 0x97#8 => parseRemoteAtResponse (id :: body)
    | 0x80#8 => parseReceive64 (id :: body)
    | 0x81#8 => parseReceive16 (id :: body)
    | _ => .error .unknownApiId

/-- The parser's answer as the command's response, R230, R263. -/
def State.answer (x : Except BlockError Record) (s : State) : State :=
  match x with
  | .ok r => s.retRecord r
  | .error e => s.raise e

/-- PARSE_FRAME, R230: the payload is `OUT[0..size)`. -/
def execParseFrame (size : U16) (s : State) : Host.Outcome State Fault Refusal :=
  if s.params.outCap < size.toNat then .refused .sizeTooLarge
  else .next (s.answer (demux (s.outBytes size.toNat)))

/-- API_RX.ModemStatus, R232: the payload is `8A` and `body`. -/
def execApiRxModemStatus (body : List Byte) (s : State) : Host.Outcome State Fault Refusal :=
  .next (s.answer (parseModemStatus (0x8A :: body)))

/-- API_RX.TransmitStatus, R233. -/
def execApiRxTransmitStatus (body : List Byte) (s : State) : Host.Outcome State Fault Refusal :=
  .next (s.answer (parseTransmitStatus (0x89 :: body)))

/-- API_RX.AtResponse, R234. -/
def execApiRxAtResponse (body : List Byte) (s : State) : Host.Outcome State Fault Refusal :=
  .next (s.answer (parseAtResponse (0x88 :: body)))

/-- API_RX.RemoteAtResponse, R235. -/
def execApiRxRemoteAtResponse (body : List Byte) (s : State) : Host.Outcome State Fault Refusal :=
  .next (s.answer (parseRemoteAtResponse (0x97 :: body)))

/-- API_RX.Receive64, R236. -/
def execApiRxReceive64 (body : List Byte) (s : State) : Host.Outcome State Fault Refusal :=
  .next (s.answer (parseReceive64 (0x80 :: body)))

/-- API_RX.Receive16, R237. -/
def execApiRxReceive16 (body : List Byte) (s : State) : Host.Outcome State Fault Refusal :=
  .next (s.answer (parseReceive16 (0x81 :: body)))

end Sys2Proof.Machine
end

