-- ==== Sys2Proof/Machine/Reset.lean ====
section
/-! DEFINITION. Reset and construction, 70_reset_and_hazards.md R290 to R292. -/

namespace Sys2Proof.Machine

/-- RESET, R290: the ring is left as it is, OUT and the transport are not touched. -/
def execReset (s : State) : Host.Outcome State Fault Refusal :=
  .next (State.ret 0 { s with recvIdx := 0, recvSize := 0 })

/-- Construction of a handle, R22, R292: `C = 0` is refused (92 D3, log 13). -/
def construct (p : Params) : Host.Outcome State Fault Refusal :=
  if p.ringCap = 0 then .refused .zeroCapacity else .next (State.initial p)

end Sys2Proof.Machine
end

