-- ==== Sys2Proof/Machine/Dispatch.lean ====
section
/-! DEFINITION. The dispatch: one arm for each row of the opcode table. -/

namespace Sys2Proof.Machine

def exec (i : Instr) (s : State) : Host.Outcome State Fault Refusal :=
  match i with
  -- the command port
  | .reset => Sys2Proof.Machine.execReset s
  | .sendFrame p => Sys2Proof.Machine.execSendFrame p s
  | .fillBuffer => Sys2Proof.Machine.execFillBuffer s
  | .decodeFrame n => Sys2Proof.Machine.execDecodeFrame n s
  | .recvFrame n => Sys2Proof.Machine.execRecvFrame n s
  | .parseFrame n => Sys2Proof.Machine.execParseFrame n s
  | .atCommand f a0 a1 ps => Sys2Proof.Machine.execAtCommand f a0 a1 ps s
  | .atQueueParameter f a0 a1 ps => Sys2Proof.Machine.execAtQueueParameter f a0 a1 ps s
  | .remoteAtCommandA64 f a o a0 a1 ps => Sys2Proof.Machine.execRemoteAtCommandA64 f a o a0 a1 ps s
  | .remoteAtCommandA16 f a o a0 a1 ps => Sys2Proof.Machine.execRemoteAtCommandA16 f a o a0 a1 ps s
  | .remoteAtCommandB64 f o a0 a1 ps => Sys2Proof.Machine.execRemoteAtCommandB64 f o a0 a1 ps s
  | .remoteAtCommandB16 f o a0 a1 ps => Sys2Proof.Machine.execRemoteAtCommandB16 f o a0 a1 ps s
  | .transmitA64 f a o d => Sys2Proof.Machine.execTransmitA64 f a o d s
  | .transmitA16 f a o d => Sys2Proof.Machine.execTransmitA16 f a o d s
  | .transmitB64 f o d => Sys2Proof.Machine.execTransmitB64 f o d s
  | .transmitB16 f o d => Sys2Proof.Machine.execTransmitB16 f o d s
  -- outgoing API payloads
  | .apiTxAtCommand f a0 a1 ps => Sys2Proof.Machine.execApiTxAtCommand f a0 a1 ps s
  | .apiTxAtQueueParameter f a0 a1 ps => Sys2Proof.Machine.execApiTxAtQueueParameter f a0 a1 ps s
  | .apiTxRemoteAtCommand f a64 a16 o a0 a1 ps => Sys2Proof.Machine.execApiTxRemoteAtCommand f a64 a16 o a0 a1 ps s
  | .apiTxTransmit64 f a o d => Sys2Proof.Machine.execApiTxTransmit64 f a o d s
  | .apiTxTransmit16 f a o d => Sys2Proof.Machine.execApiTxTransmit16 f a o d s
  -- incoming API payloads
  | .apiRxModemStatus body => Sys2Proof.Machine.execApiRxModemStatus body s
  | .apiRxTransmitStatus body => Sys2Proof.Machine.execApiRxTransmitStatus body s
  | .apiRxAtResponse body => Sys2Proof.Machine.execApiRxAtResponse body s
  | .apiRxRemoteAtResponse body => Sys2Proof.Machine.execApiRxRemoteAtResponse body s
  | .apiRxReceive64 body => Sys2Proof.Machine.execApiRxReceive64 body s
  | .apiRxReceive16 body => Sys2Proof.Machine.execApiRxReceive16 body s

end Sys2Proof.Machine
end

