-- ==== Sys2Proof/Machine/Step.lean ====
section
/-! DEFINITION. One step of the machine, and the placing of an instruction where the next step fetches it. -/

namespace Sys2Proof.Machine

/-- One step (log 1): the next event is taken; a command, or a payload handed to the encoder or the demultiplexer, is one atomic
transition (R57); with no event the block waits and its state is unchanged (R279, R291). -/
def step (s : State) : Host.Outcome State Fault Refusal :=
  match s.fetch with
  | .idle => .next s
  | .run i t => exec i t
  | .moved t => .next t
  | .reserved e => .refused (.reservedEncoding e)
  | .outside => .fault .outsideOut

/-- `s` with the instruction of an opcode-table word, numbered as the table numbers its bits, standing where the next step fetches it
(log 1, 12). -/
def State.withFetchWord (s : State) (nbits w : Nat) : State :=
  s.place (tableInstr nbits w).1 (tableInstr nbits w).2

end Sys2Proof.Machine
end

