-- ==== Sys2Proof/Safety.lean ====
section
/-! DEFINITION. What the claims speak of: the invariants of R24 and R25, the transport's contract, and what two states share. -/

namespace Sys2Proof.Machine

/-- The ring's invariants, R20 to R25: `C ≥ 1`, `recv_idx < C`, `recv_size ≤ C`, and the ring's memory in its canonical form with no
offset of `C` or above. -/
abbrev State.RingOk (s : State) : Prop :=
  1 ≤ s.params.ringCap ∧ s.recvIdx < s.params.ringCap ∧ s.recvSize ≤ s.params.ringCap ∧
    s.ring.wf ∧ s.ring.within s.params.ringCap

/-- OUT's memory is in its canonical form, with no index of `OUT_CAP` or above, R50. -/
abbrev State.OutOk (s : State) : Prop := s.out.wf ∧ s.out.within s.params.outCap

/-- The invariant of the machine, R24 with the canonical form of its two memories. -/
abbrev State.Inv (s : State) : Prop := s.RingOk ∧ s.OutOk

/-- The transport accepts each of the next `n` offered wire bytes, R60. -/
def State.Accepts (s : State) (n : Nat) : Prop := ∀ k < n, s.writeAnswer k = .accept

/-- No read that FILL_BUFFER issues from here is answered with more than was asked, R61: the transport keeps its contract. -/
abbrev State.ReadsKept (s : State) : Prop := s.fillBreach = false

/-- The machine stops with a fault in this outcome: a run in which that never happens is safe. -/
def faults (x : Host.Outcome State Fault Refusal) : Bool :=
  match x with
  | .fault _ => true
  | _ => false

/-- Two states hold the same raw bytes in the same order, with the same parameters, wherever their heads stand in the ring
(92 D5, D41). -/
def State.SameWindow (s t : State) : Prop := s.params = t.params ∧ s.window = t.window

/-- One unescaped byte as it may stand in the ring (R83, R97 items 4 and 5, R162): as itself, if it is neither delimiter nor escape byte;
or after an escape byte as the byte xor `20`, whether or not the encoder would escape it, if that is not the delimiter. -/
def ReadsAs (raw : List Byte) (b : Byte) : Prop :=
  (raw = [b] ∧ b ≠ 0x7E#8 ∧ b ≠ 0x7D#8) ∨ ∃ c, raw = [0x7D#8, c] ∧ c ≠ 0x7E#8 ∧ b = c ^^^ 0x20#8

/-- Raw bytes that are read as the given bytes, one after the other: what the encoder sends for them (R81) and every other way the
decoder takes. -/
inductive RawOf : List Byte → List Byte → Prop where
  | nil : RawOf [] []
  | cons {raw rest bytes : List Byte} {b : Byte} (h : ReadsAs raw b) (t : RawOf rest bytes) : RawOf (raw ++ rest) (b :: bytes)

/-- The stage of the `k`-th wire byte of `F(P)`, R125 and R261: the delimiter; any raw byte of the escaped length; of the escaped
payload; of the escaped checksum. -/
def stageAt (payload : List Byte) (k : Nat) : Stage :=
  let lenRaw := ((be16 (BitVec.ofNat 16 payload.length)).flatMap esc).length
  let payloadRaw := (payload.flatMap esc).length
  if k < 1 then .delim
  else if k < 1 + lenRaw then .len
  else if k < 1 + lenRaw + payloadRaw then .payload
  else .checksum

/-- What SEND_FRAME does with a payload (R120, R121, R125, R261), as a property of an instruction that sends `payload`: refused over
65535 bytes; with every wire byte accepted, the whole wire encoding of R80 is on the line and the result is 0; with the `m`-th wire byte
the first not accepted, the bytes before it stay on the line and WriteFailed of its stage is raised, or, if the transport answered more
than it was offered, the run faults. Nothing changes but `tx_line`, the transport's answers used up, and the response. -/
def EmitsFrame (i : Instr) (payload : List Byte) : Prop :=
  ∀ s : State,
    (65535 < payload.length → exec i s = .refused .payloadTooLong) ∧
    (payload.length ≤ 65535 →
      (s.Accepts (wireOf payload).length →
        exec i s = .next { s.writesTaken (wireOf payload).length with
          txLine := s.txLine ++ wireOf payload
          response := some ⟨.value 0, none⟩ }) ∧
      ∀ m < (wireOf payload).length, s.Accepts m →
        (s.writeAnswer m = .refuse →
          exec i s = .next { s.writesTaken (m + 1) with
            txLine := s.txLine ++ (wireOf payload).take m
            response := some ⟨.error (.writeFailed (stageAt payload m)), none⟩ }) ∧
        (s.writeAnswer m = .over → exec i s = .fault .transportOverWrite))

/-- What the parser does with a payload, as a property of an answer: PARSE_FRAME on a payload standing in `OUT[0..size)` gives it and
writes nothing else (R230). -/
def ParsesTo (payload : List Byte) (status : Status) (record : Option Record) : Prop :=
  ∀ (s : State) (size : U16), size.toNat ≤ s.params.outCap → s.outBytes size.toNat = payload →
    exec (.parseFrame size) s = .next { s with response := some ⟨status, record⟩ }

/-- What a row of the demultiplexer does in every state: this answer, and nothing else written (R230). -/
def RowGives (i : Instr) (status : Status) (record : Option Record) : Prop :=
  ∀ s : State, exec i s = .next { s with response := some ⟨status, record⟩ }

end Sys2Proof.Machine
end

