-- ==== Sys2Proof/Certificates/Slice0/Obligations.lean ====
section
/-! DEFINITION. The statements for the provers, each with the rule of spec/ it formalises. -/

open Sys2Proof Sys2Proof.Machine

/-! ### Steps, decoding and encoding -/

/-- R57, R100: a command string that decodes runs as that instruction, its event taken and nothing else changed around it. -/
def Obligations.StepRunsDecodedCommand : Prop :=
  ∀ (s : State) (bytes : List Byte) (rest : List Event) (i : Instr),
    s.events = .command bytes :: rest → decodeCommand bytes = .ok i →
      step s = exec i { s with events := rest }

/-- R88, R204, R230 (log 10, 11): a payload handed to the encoder, or standing in OUT for the demultiplexer, runs as its row. A payload
that is no row is refused on the encoder's port, which is the model's choice (log 20); the demultiplexer hands it to PARSE_FRAME, whatever
its size (R231, R239, R102). -/
def Obligations.StepRunsDecodedPayload : Prop :=
  (∀ (s : State) (payload : List Byte) (rest : List Event), s.events = .outgoing payload :: rest →
    (∀ i, decodeOutgoing payload = .ok i → step s = exec i { s with events := rest }) ∧
    (∀ e, decodeOutgoing payload = .error e → step s = .refused (.reservedEncoding e))) ∧
  (∀ (s : State) (size : U16) (rest : List Event), s.events = .incoming size :: rest →
    (size.toNat ≤ s.params.outCap →
      (∀ i, decodeIncoming (s.outBytes size.toNat) = .ok i → step s = exec i { s with events := rest }) ∧
      (∀ e, decodeIncoming (s.outBytes size.toNat) = .error e → step s = exec (.parseFrame size) { s with events := rest })) ∧
    (s.params.outCap < size.toNat →
      step s = exec (.parseFrame size) { s with events := rest } ∧ step s = .refused .sizeTooLarge)) ∧
  decodeOutgoing [] = .error .empty ∧ decodeIncoming [] = .error .empty ∧
  (∀ (id : Byte) (r : List Byte), id ∉ [0x08#8, 0x09#8, 0x17#8, 0x00#8, 0x01#8] →
    decodeOutgoing (id :: r) = .error (.unknownApiId id)) ∧
  (∀ (id : Byte) (r : List Byte),
    (id = 0x08#8 ∨ id = 0x09#8 → r.length + 1 < 4 → decodeOutgoing (id :: r) = .error .tooShort) ∧
    (id = 0x17#8 → r.length + 1 < 15 → decodeOutgoing (id :: r) = .error .tooShort) ∧
    (id = 0x00#8 → r.length + 1 < 11 → decodeOutgoing (id :: r) = .error .tooShort) ∧
    (id = 0x01#8 → r.length + 1 < 5 → decodeOutgoing (id :: r) = .error .tooShort)) ∧
  (∀ (id : Byte) (r : List Byte), id ∉ [0x8A#8, 0x89#8, 0x88#8, 0x97#8, 0x80#8, 0x81#8] →
    decodeIncoming (id :: r) = .error (.unknownApiId id))

/-- R15, R27, R279, R302 (log 1, 14): with no event nothing changes; the line appends to `rx_pending`; the host writes its own OUT
inside OUT_CAP, and a write outside it is a fault. -/
def Obligations.HostAndLineMoves : Prop :=
  (∀ s : State, s.events = [] → step s = .next s) ∧
  (∀ (s : State) (bytes : List Byte) (rest : List Event), s.events = .line bytes :: rest →
    step s = .next { s with events := rest, rxPending := s.rxPending ++ bytes }) ∧
  (∀ (s : State) (a : Nat) (bytes : List Byte) (rest : List Event), s.events = .hostWrite a bytes :: rest →
    a + bytes.length ≤ s.params.outCap →
      ∃ t, step s = .next t ∧ t = { s with events := rest, out := t.out } ∧
        ∀ k, t.outByte k = if a ≤ k ∧ k < a + bytes.length then bytes.getD (k - a) 0 else s.outByte k) ∧
  (∀ (s : State) (a : Nat) (bytes : List Byte) (rest : List Event), s.events = .hostWrite a bytes :: rest →
    bytes ≠ [] → s.params.outCap < a + bytes.length → step s = .fault .outsideOut)

/-- R15 (log 1, 21): in a step of the host or the line alone the block does nothing: its ring, its registers, the line it sends on and its
last response stay. -/
def Obligations.BlockIdleInOthersSteps : Prop :=
  ∀ (s t : State) (e : Event) (rest : List Event), s.events = e :: rest → Agent.block ∉ e.agents → step s = .next t →
    t.params = s.params ∧ t.recvIdx = s.recvIdx ∧ t.recvSize = s.recvSize ∧ t.ring = s.ring ∧ t.txLine = s.txLine ∧
      t.response = s.response

/-- R102: the six refusals. The first three: a command code or address tag not in the table, and a string shorter or longer than its
fields, are refused by name; a string that is accepted is exactly its instruction's fields. -/
def Obligations.ReservedCommandsRefused : Prop :=
  (∀ (s : State) (bytes : List Byte) (rest : List Event) (e : DecodeError),
    s.events = .command bytes :: rest → decodeCommand bytes = .error e → step s = .refused (.reservedEncoding e)) ∧
  (∀ (c : Byte) (r : List Byte),
    c ∉ [0x00#8, 0x01#8, 0x10#8, 0x11#8, 0x12#8, 0x20#8, 0x30#8, 0x31#8, 0x32#8, 0x33#8] →
      decodeCommand (c :: r) = .error (.reservedCode c)) ∧
  (∀ (c f tag : Byte) (r : List Byte), c = 0x32 ∨ c = 0x33 → tag ∉ [0x00#8, 0x01#8, 0x02#8, 0x03#8] →
      decodeCommand (c :: f :: tag :: r) = .error (.reservedTag tag)) ∧
  (∀ (bytes : List Byte) (i : Instr), decodeCommand bytes = .ok i → bytes = encode i) ∧
  (∀ (s : State) (n : U32), s.params.outCap < n.toNat →
    exec (.decodeFrame n) s = .refused .outSizeTooLarge ∧ exec (.recvFrame n) s = .refused .outSizeTooLarge) ∧
  (∀ (s : State) (n : U16), s.params.outCap < n.toNat → exec (.parseFrame n) s = .refused .sizeTooLarge) ∧
  (∀ (s : State) (f a0 a1 o : Byte) (x : U64) (y : U16) (bs : List Byte),
    (65535 < bs.length → exec (.sendFrame bs) s = .refused .payloadTooLong) ∧
    (65535 < 4 + bs.length → exec (.atCommand f a0 a1 bs) s = .refused .payloadTooLong ∧
      exec (.atQueueParameter f a0 a1 bs) s = .refused .payloadTooLong) ∧
    (65535 < 15 + bs.length → exec (.remoteAtCommandA64 f x o a0 a1 bs) s = .refused .payloadTooLong ∧
      exec (.remoteAtCommandA16 f y o a0 a1 bs) s = .refused .payloadTooLong ∧
      exec (.remoteAtCommandB64 f o a0 a1 bs) s = .refused .payloadTooLong ∧
      exec (.remoteAtCommandB16 f o a0 a1 bs) s = .refused .payloadTooLong) ∧
    (65535 < 11 + bs.length → exec (.transmitA64 f x o bs) s = .refused .payloadTooLong ∧
      exec (.transmitB64 f o bs) s = .refused .payloadTooLong) ∧
    (65535 < 5 + bs.length → exec (.transmitA16 f y o bs) s = .refused .payloadTooLong ∧
      exec (.transmitB16 f o bs) s = .refused .payloadTooLong))

/-- R100, R101, R90, R92: decoding an encoded well-formed instruction gives it back, every operand at every value. -/
def Obligations.DecodeOfEncodeIsTheInstruction : Prop :=
  ∀ i : Instr, i.wellFormed = true → decode i.port (encode i) = .ok i

/-- R100 to R102, R90, R92: bytes that decode are the encoding of what they decode to: each word has one meaning on its port, and no
byte of it is dropped. -/
def Obligations.DecodedBytesAreTheEncoding : Prop :=
  ∀ (port : Port) (bytes : List Byte) (i : Instr), decode port bytes = .ok i → i.port = port ∧ encode i = bytes

/-- 95_test_vectors section 3 and R101: words written out from the spec decode to the instructions they stand for. -/
def Obligations.SpecWordsDecode : Prop :=
  decodeCommand [0x00#8] = .ok .reset ∧
  decodeCommand [0x12#8, 0x00#8, 0x00#8, 0x01#8, 0x00#8] = .ok (.recvFrame 256) ∧
  decodeCommand [0x20#8, 0x00#8, 0x06#8] = .ok (.parseFrame 6) ∧
  decodeCommand [0x30#8, 0x01#8, 0x41#8, 0x50#8, 0x00#8, 0x00#8] = .ok (.atCommand 0x01 0x41 0x50 []) ∧
  decodeCommand [0x33#8, 0x01#8, 0x01#8, 0x12#8, 0x34#8, 0x00#8, 0x00#8, 0x02#8, 0x48#8, 0x69#8]
    = .ok (.transmitA16 0x01 0x1234 0x00 [0x48, 0x69]) ∧
  decodeCommand [0x01#8, 0x00#8, 0x03#8, 0x41#8, 0x42#8] = .error .tooShort ∧
  decodeCommand [0x10#8, 0x00#8] = .error .tooLong

/-! ### The encoder -/

/-- R81: the escape transform on every byte, and its four pairs. -/
def Obligations.EscapeTransform : Prop :=
  (∀ b : Byte, esc b = if b ∈ [0x7E#8, 0x7D#8, 0x11#8, 0x13#8] then [0x7D#8, b ^^^ 0x20#8] else [b]) ∧
  esc 0x7E = [0x7D, 0x5E] ∧ esc 0x7D = [0x7D, 0x5D] ∧ esc 0x11 = [0x7D, 0x31] ∧ esc 0x13 = [0x7D, 0x33]

/-- R82: in an encoded frame the only unescaped `7E` is the delimiter, no unescaped `11` or `13` appears, and a `7D` is always the first
byte of an escape pair. -/
def Obligations.EncodedFrameHasOneDelimiter : Prop :=
  ∀ payload : List Byte, ∃ tail, wireOf payload = 0x7E#8 :: tail ∧
    0x7E#8 ∉ tail ∧ 0x11#8 ∉ tail ∧ 0x13#8 ∉ tail ∧
    ∀ k, tail[k]? = some 0x7D#8 → ∃ b, tail[k + 1]? = some b ∧ b ^^^ 0x20#8 ∈ [0x7E#8, 0x7D#8, 0x11#8, 0x13#8]

/-- R85: with `s` the sum of the payload bytes mod 256 the checksum is `0xFF - s`; a received frame is valid exactly when payload and
checksum sum to `0xFF` mod 256, which is so for that checksum byte alone. -/
def Obligations.ChecksumRule : Prop :=
  ∀ payload : List Byte,
    (sum8 payload).toNat = (payload.map BitVec.toNat).sum % 256 ∧
    (checksumOf payload).toNat = 0xFF - (payload.map BitVec.toNat).sum % 256 ∧
    ∀ c : Byte,
      (validSum (sum8 (payload ++ [c])) = true ↔ ((payload.map BitVec.toNat).sum + c.toNat) % 256 = 0xFF) ∧
      (validSum (sum8 (payload ++ [c])) = true ↔ c = checksumOf payload)

/-- R86: the raw length of an encoded frame is `4 + L + e`, with `e` the number of bytes of the length, payload and checksum in the
escape set; it lies between `L + 4` and `2 L + 7`. -/
def Obligations.RawFrameLength : Prop :=
  ∀ payload : List Byte,
    (wireOf payload).length = 4 + payload.length + (frameBody payload).countP inEsc ∧
    payload.length + 4 ≤ (wireOf payload).length ∧ (wireOf payload).length ≤ 2 * payload.length + 7

/-- R120, R122 to R125, R80: `start_frame`, `write_bytes` and `finish_frame` offer exactly the wire encoding of `F(P)`, in order, each
byte with its stage. -/
def Obligations.EncoderOffersTheWire : Prop :=
  ∀ payload : List Byte,
    (frameOffers payload).map Prod.fst = wireOf payload ∧
    ∀ k < (wireOf payload).length, ((frameOffers payload).map Prod.snd)[k]? = some (stageAt payload k)

/-- R120, R121, R125, R261: SEND_FRAME, its command code and its effect. -/
def Obligations.SendFrameResult : Prop :=
  ∀ payload : List Byte,
    (payload.length ≤ 65535 → decodeCommand (0x01#8 :: putBytes16 payload) = .ok (.sendFrame payload)) ∧
    EmitsFrame (.sendFrame payload) payload

/-- R200, R201: AT_COMMAND and AT_QUEUE_PARAMETER, their command codes, and the payloads they send, for every byte of their arguments
(R205). -/
def Obligations.AtCommandsSendTheirPayload : Prop :=
  ∀ (f a0 a1 : Byte) (params : List Byte),
    (params.length ≤ 65535 →
      decodeCommand ([0x30#8, f, a0, a1] ++ putBytes16 params) = .ok (.atCommand f a0 a1 params) ∧
      decodeCommand ([0x31#8, f, a0, a1] ++ putBytes16 params) = .ok (.atQueueParameter f a0 a1 params)) ∧
    EmitsFrame (.atCommand f a0 a1 params) ([0x08, f, a0, a1] ++ params) ∧
    EmitsFrame (.atQueueParameter f a0 a1 params) ([0x09, f, a0, a1] ++ params)

/-- R202, R206, R101: REMOTE_AT_COMMAND, its command code and address tags, and its payload for each of the four address variants. -/
def Obligations.RemoteAtCommandsSendTheirPayload : Prop :=
  ∀ (f o a0 a1 : Byte) (a : U64) (x : U16) (params : List Byte),
    (params.length ≤ 65535 →
      decodeCommand ([0x32#8, f, 0x00#8] ++ be64 a ++ [o, a0, a1] ++ putBytes16 params)
        = .ok (.remoteAtCommandA64 f a o a0 a1 params) ∧
      decodeCommand ([0x32#8, f, 0x01#8] ++ be16 x ++ [o, a0, a1] ++ putBytes16 params)
        = .ok (.remoteAtCommandA16 f x o a0 a1 params) ∧
      decodeCommand ([0x32#8, f, 0x02#8] ++ [o, a0, a1] ++ putBytes16 params) = .ok (.remoteAtCommandB64 f o a0 a1 params) ∧
      decodeCommand ([0x32#8, f, 0x03#8] ++ [o, a0, a1] ++ putBytes16 params) = .ok (.remoteAtCommandB16 f o a0 a1 params)) ∧
    EmitsFrame (.remoteAtCommandA64 f a o a0 a1 params)
      ([0x17, f] ++ be64 a ++ [0xFF, 0xFE] ++ [o, a0, a1] ++ params) ∧
    EmitsFrame (.remoteAtCommandA16 f x o a0 a1 params)
      ([0x17, f] ++ [0x00, 0x00, 0x00, 0x00, 0x00, 0x00, 0xFF, 0xFE] ++ be16 x ++ [o, a0, a1] ++ params) ∧
    EmitsFrame (.remoteAtCommandB64 f o a0 a1 params)
      ([0x17, f] ++ [0x00, 0x00, 0x00, 0x00, 0x00, 0x00, 0xFF, 0xFF] ++ [0xFF, 0xFE] ++ [o, a0, a1] ++ params) ∧
    EmitsFrame (.remoteAtCommandB16 f o a0 a1 params)
      ([0x17, f] ++ [0x00, 0x00, 0x00, 0x00, 0x00, 0x00, 0xFF, 0xFE] ++ [0xFF, 0xFF] ++ [o, a0, a1] ++ params)

/-- R203, R101: TRANSMIT, its command code and address tags; it sends TRANSMIT_64 or TRANSMIT_16, chosen by the address variant. -/
def Obligations.TransmitsSendTheirPayload : Prop :=
  ∀ (f o : Byte) (a : U64) (x : U16) (data : List Byte),
    (data.length ≤ 65535 →
      decodeCommand ([0x33#8, f, 0x00#8] ++ be64 a ++ [o] ++ putBytes16 data) = .ok (.transmitA64 f a o data) ∧
      decodeCommand ([0x33#8, f, 0x01#8] ++ be16 x ++ [o] ++ putBytes16 data) = .ok (.transmitA16 f x o data) ∧
      decodeCommand ([0x33#8, f, 0x02#8] ++ [o] ++ putBytes16 data) = .ok (.transmitB64 f o data) ∧
      decodeCommand ([0x33#8, f, 0x03#8] ++ [o] ++ putBytes16 data) = .ok (.transmitB16 f o data)) ∧
    EmitsFrame (.transmitA64 f a o data) ([0x00, f] ++ be64 a ++ [o] ++ data) ∧
    EmitsFrame (.transmitB64 f o data)
      ([0x00, f] ++ [0x00, 0x00, 0x00, 0x00, 0x00, 0x00, 0xFF, 0xFF] ++ [o] ++ data) ∧
    EmitsFrame (.transmitA16 f x o data) ([0x01, f] ++ be16 x ++ [o] ++ data) ∧
    EmitsFrame (.transmitB16 f o data) ([0x01, f] ++ [0xFF, 0xFF] ++ [o] ++ data)

/-- R90, R95 (the reading of the API_TX rows is log 10): each outgoing payload goes out as its frame, which is what SEND_FRAME of the
same bytes sends. -/
def Obligations.OutgoingPayloadsAreSent : Prop :=
  ∀ (f o a0 a1 : Byte) (a : U64) (x : U16) (bs : List Byte),
    EmitsFrame (.apiTxAtCommand f a0 a1 bs) ([0x08, f, a0, a1] ++ bs) ∧
    EmitsFrame (.apiTxAtQueueParameter f a0 a1 bs) ([0x09, f, a0, a1] ++ bs) ∧
    EmitsFrame (.apiTxRemoteAtCommand f a x o a0 a1 bs) ([0x17, f] ++ be64 a ++ be16 x ++ [o, a0, a1] ++ bs) ∧
    EmitsFrame (.apiTxTransmit64 f a o bs) ([0x00, f] ++ be64 a ++ [o] ++ bs) ∧
    EmitsFrame (.apiTxTransmit16 f x o bs) ([0x01, f] ++ be16 x ++ [o] ++ bs)

/-! ### The ring refill -/

/-- R141, R144 (log 4 for a queued answer above what is pending): while the transport keeps its contract FILL_BUFFER completes; the
bytes it takes are the front of `rx_pending`, at most the free room, and become the last bytes of the window in arrival order; no other
offset of the ring changes, the head does not move, and nothing else changes but the read answers used up and the response, which is the
count, or a transport error. -/
def Obligations.FillAppendsInArrivalOrder : Prop :=
  ∀ s : State, s.RingOk → s.ReadsKept →
    ∃ (t : State) (r : Nat), exec .fillBuffer s = .next t ∧
      r ≤ s.rxPending.length ∧ r ≤ s.params.ringCap - s.recvSize ∧
      t.window = s.window ++ s.rxPending.take r ∧ t.rxPending = s.rxPending.drop r ∧
      t.recvSize = s.recvSize + r ∧
      (∀ a, (∀ j < r, a ≠ s.physical (s.recvSize + j)) → t.ring.get? a = s.ring.get? a) ∧
      (t.response = some ⟨.value r, none⟩ ∨ ∃ e < 0, t.response = some ⟨.error (.transportRead e), none⟩) ∧
      t = { s with recvSize := t.recvSize, ring := t.ring, rxPending := t.rxPending, readAnswers := t.readAnswers,
                   readDraws := t.readDraws, response := t.response }

/-- R140, R142: which reads are issued and what they return, for queued answers `a1`, `a2` within the contract: full, no read; a full
phase 1 with the head not at 0, two reads; otherwise one read (short, or head at 0, or wrapped or ending at C). That a queued answer
above the pending count and within the request counts as the pending count is the model's reading (log 4), not R61's. -/
def Obligations.FillReadsByRegion : Prop :=
  (∀ s : State, s.recvSize = s.params.ringCap →
    exec .fillBuffer s = .next { s with response := some ⟨.value 0, none⟩ }) ∧
  (∀ (s : State) (a1 a2 : Nat) (rest : List Int), s.RingOk → s.recvSize < s.params.ringCap →
    s.recvIdx + s.recvSize < s.params.ringCap → s.recvIdx ≠ 0 → s.readAnswers = (a1 : Int) :: (a2 : Int) :: rest →
    a1 = s.params.ringCap - (s.recvIdx + s.recvSize) → a1 ≤ s.rxPending.length → a2 ≤ s.recvIdx →
      ∃ t, exec .fillBuffer s = .next t ∧ t.readAnswers = rest ∧
        t.response = some ⟨.value (a1 + min a2 (s.rxPending.length - a1) : Nat), none⟩ ∧
        t.recvSize = s.recvSize + (a1 + min a2 (s.rxPending.length - a1))) ∧
  (∀ (s : State) (a1 : Nat) (rest : List Int), s.RingOk → s.recvSize < s.params.ringCap →
    s.recvIdx + s.recvSize < s.params.ringCap → s.readAnswers = (a1 : Int) :: rest →
    a1 ≤ s.params.ringCap - (s.recvIdx + s.recvSize) →
    min a1 s.rxPending.length < s.params.ringCap - (s.recvIdx + s.recvSize) ∨ s.recvIdx = 0 →
      ∃ t, exec .fillBuffer s = .next t ∧ t.readAnswers = rest ∧
        t.response = some ⟨.value (min a1 s.rxPending.length : Nat), none⟩ ∧
        t.recvSize = s.recvSize + min a1 s.rxPending.length) ∧
  (∀ (s : State) (a1 : Nat) (rest : List Int), s.RingOk → s.recvSize < s.params.ringCap →
    s.params.ringCap ≤ s.recvIdx + s.recvSize → s.readAnswers = (a1 : Int) :: rest → a1 ≤ s.params.ringCap - s.recvSize →
      ∃ t, exec .fillBuffer s = .next t ∧ t.readAnswers = rest ∧
        t.response = some ⟨.value (min a1 s.rxPending.length : Nat), none⟩ ∧
        t.recvSize = s.recvSize + min a1 s.rxPending.length)

/-- R262, R142 (92 D7): a negative answer is returned unchanged. A first read's error leaves everything else as it was; a phase-2 error
keeps the bytes of phase 1. -/
def Obligations.FillReadErrors : Prop :=
  (∀ (s : State) (e : Int) (rest : List Int), s.recvSize ≠ s.params.ringCap → s.readAnswers = e :: rest → e < 0 →
    exec .fillBuffer s =
      .next { s with readAnswers := rest, response := some ⟨.error (.transportRead e), none⟩ }) ∧
  (∀ (s : State) (a1 : Nat) (e : Int) (rest : List Int), s.RingOk → s.recvSize < s.params.ringCap →
    s.recvIdx + s.recvSize < s.params.ringCap → s.recvIdx ≠ 0 → s.readAnswers = (a1 : Int) :: e :: rest →
    a1 = s.params.ringCap - (s.recvIdx + s.recvSize) → a1 ≤ s.rxPending.length → e < 0 →
      ∃ t, exec .fillBuffer s = .next t ∧ t.response = some ⟨.error (.transportRead e), none⟩ ∧
        t.recvSize = s.recvSize + a1 ∧ t.window = s.window ++ s.rxPending.take a1)

/-- R61, R60, R269: a read answered with more than was asked, in either phase, is a fault of FILL_BUFFER and of RECV_FRAME. -/
def Obligations.OverReadFaults : Prop :=
  (∀ (s : State) (n : U32) (a : Int) (rest : List Int), s.RingOk → s.recvSize < s.params.ringCap →
    n.toNat ≤ s.params.outCap → s.readAnswers = a :: rest →
    (if s.recvIdx + s.recvSize < s.params.ringCap then ((s.params.ringCap - (s.recvIdx + s.recvSize) : Nat) : Int)
      else ((s.params.ringCap - s.recvSize : Nat) : Int)) < a →
      exec .fillBuffer s = .fault .transportOverRead ∧ exec (.recvFrame n) s = .fault .transportOverRead) ∧
  (∀ (s : State) (n : U32) (a1 : Nat) (a2 : Int) (rest : List Int), s.RingOk → s.recvSize < s.params.ringCap →
    n.toNat ≤ s.params.outCap → s.recvIdx + s.recvSize < s.params.ringCap → s.recvIdx ≠ 0 →
    s.readAnswers = (a1 : Int) :: a2 :: rest → a1 = s.params.ringCap - (s.recvIdx + s.recvSize) → a1 ≤ s.rxPending.length →
    (s.recvIdx : Int) < a2 →
      exec .fillBuffer s = .fault .transportOverRead ∧ exec (.recvFrame n) s = .fault .transportOverRead)

/-! ### The decoder -/

/-- R162, R83: the unescape primitive at every offset of every window: no byte there; the delimiter; an escape byte with nothing, the
delimiter, or any other byte after it; and any other byte, a raw `11` or `13` too, which is itself. -/
def Obligations.UnescapeOnEveryWindow : Prop :=
  ∀ (s : State) (i : Nat),
    (s.window.length ≤ i → s.unesc i = .notEnough) ∧
    (s.window[i]? = some 0x7E#8 → s.unesc i = .foundStart) ∧
    (s.window[i]? = some 0x7D#8 → s.window[i + 1]? = none → s.unesc i = .notEnough) ∧
    (s.window[i]? = some 0x7D#8 → s.window[i + 1]? = some 0x7E#8 → s.unesc i = .foundStart) ∧
    (∀ x : Byte, s.window[i]? = some 0x7D#8 → s.window[i + 1]? = some x → x ≠ 0x7E#8 →
      s.unesc i = .value (x ^^^ 0x20#8) (i + 2)) ∧
    (∀ b : Byte, s.window[i]? = some b → b ≠ 0x7E#8 → b ≠ 0x7D#8 → s.unesc i = .value b (i + 1))

/-- R161, R176, R177, R8 (log 15): with fewer than 6 bytes held, and so always with `C < 6`, the result is 0 and nothing else changes. -/
def Obligations.DecodeNeedsSixBytes : Prop :=
  ∀ (s : State) (n : U32), n.toNat ≤ s.params.outCap → s.recvSize < 6 ∨ (s.RingOk ∧ s.params.ringCap < 6) →
    exec (.decodeFrame n) s = .next { s with response := some ⟨.value 0, none⟩ }

/-- R160, R168, R173: DECODE_FRAME always completes. It moves the head forward over the bytes it takes from the front of the window,
leaves the ring, the transport and every byte of OUT from `out_size` on, and its result is between 0 and `out_size - 1`. -/
def Obligations.DecodeCompletesWithinItsFrame : Prop :=
  ∀ (s : State) (n : U32), s.RingOk → n.toNat ≤ s.params.outCap →
    ∃ (t : State) (taken result : Nat), exec (.decodeFrame n) s = .next t ∧
      taken ≤ s.recvSize ∧ t.window = s.window.drop taken ∧
      t.recvIdx = (s.recvIdx + taken) % s.params.ringCap ∧ t.recvSize = s.recvSize - taken ∧
      t.response = some ⟨.value result, none⟩ ∧ (result = 0 ∨ result + 1 ≤ n.toNat) ∧
      (∀ a, n.toNat ≤ a → t.outByte a = s.outByte a) ∧
      t = { s with recvIdx := t.recvIdx, recvSize := t.recvSize, out := t.out, outDraws := t.outDraws,
                   response := t.response }

/-- R176, R178, R168, R171, and R97 items 4 and 5: a garbage prefix with no `7E`, then a delimiter and any raw bytes that are read as the
length, payload and checksum of a payload that fits (what the encoder sends, or any other escape), then anything: one call drops the
garbage, commits exactly the frame's raw bytes, returns the payload's length and leaves payload and checksum in OUT. -/
def Obligations.DecodeFindsFrameAfterGarbage : Prop :=
  ∀ (s : State) (n : U32) (garbage raw payload rest : List Byte), s.RingOk → RawOf raw (frameBody payload) →
    s.window = garbage ++ 0x7E#8 :: raw ++ rest → 0x7E#8 ∉ garbage →
    6 ≤ 1 + raw.length + rest.length → 1 ≤ payload.length → payload.length ≤ 65535 →
    payload.length + 1 ≤ n.toNat → payload.length + 4 ≤ s.params.ringCap → n.toNat ≤ s.params.outCap →
      ∃ t, exec (.decodeFrame n) s = .next t ∧ t.window = rest ∧
        t.recvIdx = (s.recvIdx + (garbage.length + (1 + raw.length))) % s.params.ringCap ∧
        t.response = some ⟨.value payload.length, none⟩ ∧
        t.outBytes (payload.length + 1) = payload ++ [checksumOf payload]

/-- R80 to R82, R83: the wire encoding of a payload is a delimiter and raw bytes that are read as its length, payload and checksum, so
every statement about such raw bytes holds of what the encoder sends. -/
def Obligations.WireReadsAsTheFrame : Prop :=
  ∀ payload : List Byte, ∃ raw, wireOf payload = 0x7E#8 :: raw ∧ RawOf raw (frameBody payload)

/-- R181: two frames held one after the other, however their bytes are escaped, are returned by two successive calls, in order. -/
def Obligations.TwoFramesDecodeInOrder : Prop :=
  ∀ (s : State) (n : U32) (rawP rawQ p q rest : List Byte), s.RingOk → RawOf rawP (frameBody p) → RawOf rawQ (frameBody q) →
    s.window = 0x7E#8 :: rawP ++ 0x7E#8 :: rawQ ++ rest →
    6 ≤ 1 + rawQ.length + rest.length → 1 ≤ p.length → 1 ≤ q.length → p.length ≤ 65535 → q.length ≤ 65535 →
    p.length + 1 ≤ n.toNat → q.length + 1 ≤ n.toNat → p.length + 4 ≤ s.params.ringCap →
    q.length + 4 ≤ s.params.ringCap → n.toNat ≤ s.params.outCap →
      ∃ t u, exec (.decodeFrame n) s = .next t ∧ exec (.decodeFrame n) t = .next u ∧
        t.response = some ⟨.value p.length, none⟩ ∧ t.outBytes p.length = p ∧
        u.response = some ⟨.value q.length, none⟩ ∧ u.outBytes q.length = q ∧ u.window = rest

/-- R175: a zero-length frame is consumed, four raw bytes or more if some are escaped, and the result is 0. -/
def Obligations.ZeroLengthFrameConsumed : Prop :=
  ∀ (s : State) (n : U32) (raw rest : List Byte), s.RingOk → RawOf raw [0x00, 0x00, 0xFF] → s.window = 0x7E#8 :: raw ++ rest →
    6 ≤ 1 + raw.length + rest.length → 4 ≤ s.params.ringCap → 1 ≤ n.toNat → n.toNat ≤ s.params.outCap →
      ∃ t, exec (.decodeFrame n) s = .next t ∧ t.window = rest ∧
        t.recvIdx = (s.recvIdx + (1 + raw.length)) % s.params.ringCap ∧ t.response = some ⟨.value 0, none⟩

/-- R164, R166, R169, R172, R170: each kind of corruption costs exactly one byte, after which the call goes on as from there: a head
other than `7E`; a length that does not fit; a `7E` inside the frame, after a lone escape byte too; a wrong checksum; a full ring that
holds only part of the frame. The frame's bytes stand in any way the decoder reads. With 7 bytes or more the call goes on as it would from
the dropped state; with 6 the loop ends and the result is 0. -/
def Obligations.CorruptionDropsOneByte : Prop :=
  ∀ (s : State) (n : U32) (payload raw rest : List Byte) (c : Byte), s.RingOk → n.toNat ≤ s.params.outCap → 6 ≤ s.recvSize →
    payload.length ≤ 65535 →
    (s.window[0]? ≠ some 0x7E#8 ∨
      (RawOf raw (be16 (BitVec.ofNat 16 payload.length)) ∧ s.window = 0x7E#8 :: raw ++ rest ∧
        (n.toNat < payload.length + 1 ∨ s.params.ringCap < payload.length + 4)) ∨
      (RawOf raw (be16 (BitVec.ofNat 16 payload.length) ++ payload ++ [c]) ∧
        ∃ k < raw.length, s.window = 0x7E#8 :: raw.take k ++ 0x7E#8 :: rest) ∨
      (RawOf raw (be16 (BitVec.ofNat 16 payload.length) ++ payload ++ [c]) ∧ c ≠ checksumOf payload ∧
        s.window = 0x7E#8 :: raw ++ rest) ∨
      (RawOf raw (be16 (BitVec.ofNat 16 payload.length) ++ payload ++ [c]) ∧ s.recvSize = s.params.ringCap ∧
        ∃ k < raw.length, s.window = 0x7E#8 :: raw.take k)) →
      (7 ≤ s.recvSize → exec (.decodeFrame n) s = exec (.decodeFrame n) s.drop1) ∧
      (s.recvSize = 6 → ∃ t, exec (.decodeFrame n) s = .next t ∧ t.window = s.window.drop 1 ∧
        t.recvIdx = (s.recvIdx + 1) % s.params.ringCap ∧ t.response = some ⟨.value 0, none⟩)

/-- R170: a frame held in part, however its bytes are escaped and whatever its checksum, that fits and with room left in the ring, waits:
the result is 0 and the ring is as it was. -/
def Obligations.PartialFrameWaits : Prop :=
  ∀ (s : State) (n : U32) (payload raw : List Byte) (c : Byte) (k : Nat), s.RingOk →
    RawOf raw (be16 (BitVec.ofNat 16 payload.length) ++ payload ++ [c]) → s.window = 0x7E#8 :: raw.take k →
    5 ≤ k → k < raw.length → k + 1 < s.params.ringCap → payload.length ≤ 65535 →
    payload.length + 1 ≤ n.toNat → payload.length + 4 ≤ s.params.ringCap → n.toNat ≤ s.params.outCap →
      ∃ t, exec (.decodeFrame n) s = .next t ∧ t.window = s.window ∧ t.recvIdx = s.recvIdx ∧
        t.response = some ⟨.value 0, none⟩

/-- R85, R171: a frame that is returned sums, with its checksum, to `0xFF` mod 256. -/
def Obligations.ReturnedFrameSumsTo255 : Prop :=
  ∀ (s t : State) (n : U32) (len : Nat), exec (.decodeFrame n) s = .next t →
    t.response = some ⟨.value len, none⟩ → 1 ≤ len → sum8 (t.outBytes (len + 1)) = 0xFF

/-- R174 (log 7, 15, 16): after a call with at least 6 bytes held, OUT below `out_size` and beyond the returned frame holds fresh free
values: after 0 all of it, after a length all past the checksum. -/
def Obligations.OutBeyondTheFrameIsFree : Prop :=
  ∀ (s t : State) (n : U32) (len a : Nat), exec (.decodeFrame n) s = .next t → 6 ≤ s.recvSize →
    t.response = some ⟨.value len, none⟩ → a < n.toNat → (len = 0 ∨ len < a) →
      t.outByte a = Config.anyOutByte (s.outDraw a + 1) a

/-- 92 D5 and D41, R51: what DECODE_FRAME does depends on the raw bytes held and their order, not on where the head stands in the ring,
and not on any byte outside the window. -/
def Obligations.DecodeSeesOnlyTheWindow : Prop :=
  ∀ (s t s' : State) (n : U32), s.RingOk → t.RingOk → s.SameWindow t → s.out = t.out → s.outDraws = t.outDraws →
    exec (.decodeFrame n) s = .next s' →
      ∃ t', exec (.decodeFrame n) t = .next t' ∧ s'.SameWindow t' ∧ s'.response = t'.response ∧ s'.out = t'.out ∧
        s'.outDraws = t'.outDraws

/-- R180: RECV_FRAME is refused for a too large `out_size`; else it is one FILL_BUFFER; if that failed, its error is the result and
nothing is decoded; else it is DECODE_FRAME from there. It completes while the transport keeps its contract, and faults where the fill
does. -/
def Obligations.RecvIsFillThenDecode : Prop :=
  ∀ (s : State) (n : U32),
    decodeCommand (0x12#8 :: be32 n) = .ok (.recvFrame n) ∧
    (s.params.outCap < n.toNat → exec (.recvFrame n) s = .refused .outSizeTooLarge) ∧
    (n.toNat ≤ s.params.outCap →
      (s.ReadsKept → ∃ t, exec (.recvFrame n) s = .next t) ∧
      (∀ x, exec .fillBuffer s = .fault x → exec (.recvFrame n) s = .fault x) ∧
      (∀ t, exec .fillBuffer s = .next t →
        (∃ r, t.response = some ⟨r, none⟩) ∧
        (∀ e, t.response = some ⟨.error e, none⟩ → exec (.recvFrame n) s = .next t) ∧
        (∀ v, t.response = some ⟨.value v, none⟩ → exec (.recvFrame n) s = exec (.decodeFrame n) t)))

/-! ### The parser -/

/-- R232, R233: ModemStatus and TransmitStatus, of exactly their lengths. -/
def Obligations.StatusFramesParse : Prop :=
  (∀ st : Byte, ParsesTo [0x8A, st] (.value 0) (some (.modemStatus st))) ∧
  (∀ f st : Byte, ParsesTo [0x89, f, st] (.value 0) (some (.transmitStatus f st))) ∧
  (∀ body : List Byte, body.length + 1 ≠ 2 → ParsesTo (0x8A :: body) (.error .wrongLengthForApi) none) ∧
  (∀ body : List Byte, body.length + 1 ≠ 3 → ParsesTo (0x89 :: body) (.error .wrongLengthForApi) none)

/-- R234, R235: AtResponse and RemoteAtResponse, of at least their lengths, their addresses big-endian. -/
def Obligations.AtResponsesParse : Prop :=
  (∀ (f a0 a1 st : Byte) (data : List Byte),
    ParsesTo (0x88 :: f :: a0 :: a1 :: st :: data) (.value 0) (some (.atResponse f a0 a1 st ⟨5, data.length⟩))) ∧
  (∀ (f a0 a1 st : Byte) (a : U64) (x : U16) (data : List Byte),
    ParsesTo ([0x97, f] ++ be64 a ++ be16 x ++ [a0, a1, st] ++ data) (.value 0)
      (some (.remoteAtResponse f a x a0 a1 st ⟨15, data.length⟩))) ∧
  (∀ body : List Byte, body.length + 1 < 5 → ParsesTo (0x88 :: body) (.error .wrongLengthForApi) none) ∧
  (∀ body : List Byte, body.length + 1 < 15 → ParsesTo (0x97 :: body) (.error .wrongLengthForApi) none)

/-- R236, R237: Receive64 and Receive16, of at least their lengths, their addresses big-endian. -/
def Obligations.ReceiveFramesParse : Prop :=
  (∀ (a : U64) (rssi o : Byte) (data : List Byte),
    ParsesTo ([0x80] ++ be64 a ++ [rssi, o] ++ data) (.value 0) (some (.receive64 a rssi o ⟨11, data.length⟩))) ∧
  (∀ (x : U16) (rssi o : Byte) (data : List Byte),
    ParsesTo ([0x81] ++ be16 x ++ [rssi, o] ++ data) (.value 0) (some (.receive16 x rssi o ⟨5, data.length⟩))) ∧
  (∀ body : List Byte, body.length + 1 < 11 → ParsesTo (0x80 :: body) (.error .wrongLengthForApi) none) ∧
  (∀ body : List Byte, body.length + 1 < 5 → ParsesTo (0x81 :: body) (.error .wrongLengthForApi) none)

/-- R92, R232 to R237 (that a row of the demultiplexer is an instruction of its own is log 11): each row answers on every body: its
record from its least length on, WrongLengthForApi below it and, for the two exact rows, above it. -/
def Obligations.DemultiplexerRowsAnswer : Prop :=
  (∀ st : Byte, RowGives (.apiRxModemStatus [st]) (.value 0) (some (.modemStatus st))) ∧
  (∀ f st : Byte, RowGives (.apiRxTransmitStatus [f, st]) (.value 0) (some (.transmitStatus f st))) ∧
  (∀ (f a0 a1 st : Byte) (data : List Byte), RowGives (.apiRxAtResponse (f :: a0 :: a1 :: st :: data)) (.value 0)
    (some (.atResponse f a0 a1 st ⟨5, data.length⟩))) ∧
  (∀ (f a0 a1 st : Byte) (a : U64) (x : U16) (data : List Byte),
    RowGives (.apiRxRemoteAtResponse ([f] ++ be64 a ++ be16 x ++ [a0, a1, st] ++ data)) (.value 0)
      (some (.remoteAtResponse f a x a0 a1 st ⟨15, data.length⟩))) ∧
  (∀ (a : U64) (rssi o : Byte) (data : List Byte), RowGives (.apiRxReceive64 (be64 a ++ [rssi, o] ++ data)) (.value 0)
    (some (.receive64 a rssi o ⟨11, data.length⟩))) ∧
  (∀ (x : U16) (rssi o : Byte) (data : List Byte), RowGives (.apiRxReceive16 (be16 x ++ [rssi, o] ++ data)) (.value 0)
    (some (.receive16 x rssi o ⟨5, data.length⟩))) ∧
  ∀ body : List Byte,
    (body.length ≠ 1 → RowGives (.apiRxModemStatus body) (.error .wrongLengthForApi) none) ∧
    (body.length ≠ 2 → RowGives (.apiRxTransmitStatus body) (.error .wrongLengthForApi) none) ∧
    (body.length < 4 → RowGives (.apiRxAtResponse body) (.error .wrongLengthForApi) none ∧
      RowGives (.apiRxReceive16 body) (.error .wrongLengthForApi) none) ∧
    (body.length < 14 → RowGives (.apiRxRemoteAtResponse body) (.error .wrongLengthForApi) none) ∧
    (body.length < 10 → RowGives (.apiRxReceive64 body) (.error .wrongLengthForApi) none)

/-- R231, R239: an id outside the six is UnknownApiId whatever the length; an empty payload is WrongLengthForApi. -/
def Obligations.UnknownAndEmptyPayloads : Prop :=
  ParsesTo [] (.error .wrongLengthForApi) none ∧
  ∀ (id : Byte) (body : List Byte), id ∉ [0x8A#8, 0x89#8, 0x88#8, 0x97#8, 0x80#8, 0x81#8] →
    ParsesTo (id :: body) (.error .unknownApiId) none

/-- R230, R88 (log 11): PARSE_FRAME on a payload whose id is in the table does what that row of the table does. -/
def Obligations.ParseRunsTheRowOfItsId : Prop :=
  ∀ (s : State) (size : U16) (i : Instr), size.toNat ≤ s.params.outCap →
    decodeIncoming (s.outBytes size.toNat) = .ok i → exec (.parseFrame size) s = exec i s

/-- R238, R302: the slice of a record denotes the bytes of OUT from its offset on, as OUT is when they are read. -/
def Obligations.SlicesBorrowFromOut : Prop :=
  (∀ (s : State) (header data : List Byte) (n : Nat), s.outBytes n = header ++ data →
    s.sliceBytes ⟨header.length, data.length⟩ = data) ∧
  (∀ (s t : State) (sl : Slice), s.out = t.out → s.outDraws = t.outDraws → s.sliceBytes sl = t.sliceBytes sl)

/-! ### Reset, construction and the whole machine -/

/-- R290: RESET, command code 00, sets `recv_idx` and `recv_size` to 0, returns 0, and changes nothing else. -/
def Obligations.ResetResult : Prop :=
  decodeCommand [0x00#8] = .ok .reset ∧
  ∀ s : State, exec .reset s = .next { s with recvIdx := 0, recvSize := 0, response := some ⟨.value 0, none⟩ }

/-- R31, R290 for the two registers; R22 and 92 D3 (log 13): construction refuses exactly `C = 0`, and the state after reset is the
constructed one. -/
def Obligations.StateAfterReset : Prop :=
  State.reset.recvIdx = 0 ∧ State.reset.recvSize = 0 ∧ State.reset.window = [] ∧
  (∀ p : Params, construct p = .refused .zeroCapacity ↔ p.ringCap = 0) ∧
  construct Params.standard = .next State.reset

/-- R24: the invariant holds at reset. -/
def Obligations.InvAtReset : Prop := State.reset.Inv

/-- R24, R173, R144, R270: every step from a state with the invariant, whatever its events, its answers and its rings, leaves a state
with it: `C ≥ 1`, `recv_idx < C`, `recv_size ≤ C`, both memories canonical and inside their spaces. -/
def Obligations.InvKeptByEveryStep : Prop := ∀ s t : State, s.Inv → step s = .next t → t.Inv

/-- R20, R21, R22: the parameters never change; only RESET, DECODE_FRAME and RECV_FRAME move `recv_idx`; only FILL_BUFFER and RECV_FRAME
raise `recv_size`, and only RESET, DECODE_FRAME and RECV_FRAME lower it. -/
def Obligations.RegistersChangeOnlyByTheirCommands : Prop :=
  ∀ (i : Instr) (s t : State), exec i s = .next t →
    t.params = s.params ∧
    (t.recvIdx ≠ s.recvIdx → i = .reset ∨ (∃ n, i = .decodeFrame n) ∨ ∃ n, i = .recvFrame n) ∧
    (s.recvSize < t.recvSize → i = .fillBuffer ∨ ∃ n, i = .recvFrame n) ∧
    (t.recvSize < s.recvSize → i = .reset ∨ (∃ n, i = .decodeFrame n) ∨ ∃ n, i = .recvFrame n)

/-- R25, R140: only FILL_BUFFER and RECV_FRAME write the ring, and only outside the logical window. -/
def Obligations.RingWrittenOnlyInItsFreeRegion : Prop :=
  ∀ (i : Instr) (s t : State), s.RingOk → exec i s = .next t →
    (t.ring ≠ s.ring → i = .fillBuffer ∨ ∃ n, i = .recvFrame n) ∧
    ∀ k < s.recvSize, t.ring.get? (s.physical k) = s.ring.get? (s.physical k)

/-- R26, R168: of the instructions only DECODE_FRAME and RECV_FRAME change OUT, and only below their `out_size`. -/
def Obligations.OutWrittenOnlyByTheDecoder : Prop :=
  ∀ (i : Instr) (s t : State), exec i s = .next t → ∀ a, t.outByte a ≠ s.outByte a →
    (∃ n, (i = .decodeFrame n ∨ i = .recvFrame n) ∧ a < n.toNat)

/-- R27, R57, R60, R61: over any step `tx_line` only grows at its end, and `rx_pending` only loses bytes at its front and gains what the
line appends. -/
def Obligations.LinesAreFifo : Prop :=
  ∀ s t : State, step s = .next t →
    s.txLine <+: t.txLine ∧
    ∃ k, t.rxPending = s.rxPending.drop k ++
      (match s.events with
        | .line bytes :: _ => bytes
        | _ => [])

/-- R260, R261: the numbers of the errors. -/
def Obligations.ErrorNumbers : Prop :=
  ∀ p : Params,
    errorCode p (.writeFailed .delim) = -11 ∧ errorCode p (.writeFailed .len) = -12 ∧
    errorCode p (.writeFailed .payload) = -13 ∧ errorCode p (.writeFailed .checksum) = -14 ∧
    (∀ e, errorCode p (.transportRead e) = e) ∧
    errorCode p .wrongLengthForApi = p.wrongLengthCode ∧ errorCode p .unknownApiId = p.unknownIdCode ∧
    Params.standard.wrongLengthCode = -15 ∧ Params.standard.unknownIdCode = -16

/-- R264: with the default parse codes no command returns a code in `-10..-1`, unless the transport's own read error lies there. -/
def Obligations.NoInitializerCodes : Prop :=
  ∀ (i : Instr) (s t : State) (r : Response), s.params.wrongLengthCode = -15 → s.params.unknownIdCode = -16 →
    exec i s = .next t → t.response = some r → -10 ≤ statusCode s.params r.status → statusCode s.params r.status ≤ -1 →
      ∃ e, r.status = .error (.transportRead e)
end

