-- ==== Sys2Proof/Laws/Encode.lean ====
section
/-! SUPPORT. Byte order, the readers of command fields, and what each internal step of the encoder offers. -/

namespace Sys2Proof

theorem beFold_be16 (v : U16) : beFold 16 (be16 v) = v := by
  apply BitVec.eq_of_getLsbD_eq
  intro i hi
  simp only [beFold, be16, List.foldl_cons, List.foldl_nil]
  interval_cases i <;> simp

theorem beFold_be32 (v : U32) : beFold 32 (be32 v) = v := by
  apply BitVec.eq_of_getLsbD_eq
  intro i hi
  simp only [beFold, be32, List.foldl_cons, List.foldl_nil]
  interval_cases i <;> simp

theorem beFold_be64 (v : U64) : beFold 64 (be64 v) = v := by
  apply BitVec.eq_of_getLsbD_eq
  intro i hi
  simp only [beFold, be64, List.foldl_cons, List.foldl_nil]
  interval_cases i <;> simp

theorem be16_beFold (h l : Byte) : be16 (beFold 16 [h, l]) = [h, l] := by
  simp only [beFold, be16, List.foldl_cons, List.foldl_nil, List.cons.injEq, and_true]
  constructor <;> (apply BitVec.eq_of_getLsbD_eq; intro i hi; interval_cases i <;> simp)

theorem be32_beFold (a b c d : Byte) : be32 (beFold 32 [a, b, c, d]) = [a, b, c, d] := by
  simp only [beFold, be32, List.foldl_cons, List.foldl_nil, List.cons.injEq, and_true]
  refine ⟨?_, ?_, ?_, ?_⟩ <;> (apply BitVec.eq_of_getLsbD_eq; intro i hi; interval_cases i <;> simp)

theorem be64_beFold (a b c d e f g h : Byte) :
    be64 (beFold 64 [a, b, c, d, e, f, g, h]) = [a, b, c, d, e, f, g, h] := by
  simp only [beFold, be64, List.foldl_cons, List.foldl_nil, List.cons.injEq, and_true]
  refine ⟨?_, ?_, ?_, ?_, ?_, ?_, ?_, ?_⟩ <;>
    (apply BitVec.eq_of_getLsbD_eq; intro i hi; interval_cases i <;> simp)

theorem takeU8_cons (b : Byte) (r : List Byte) : takeU8 (b :: r) = .ok (b, r) := rfl

theorem takeU16_be16 (v : U16) (r : List Byte) : takeU16 (be16 v ++ r) = .ok (v, r) :=
  congrArg (fun x => Except.ok (x, r)) (beFold_be16 v)

theorem takeU32_be32 (v : U32) (r : List Byte) : takeU32 (be32 v ++ r) = .ok (v, r) :=
  congrArg (fun x => Except.ok (x, r)) (beFold_be32 v)

theorem takeU64_be64 (v : U64) (r : List Byte) : takeU64 (be64 v ++ r) = .ok (v, r) :=
  congrArg (fun x => Except.ok (x, r)) (beFold_be64 v)

theorem readThen_ok {α β : Type} (a : α) (r : List Byte) (k : α → List Byte → Except DecodeError β) :
    readThen (.ok (a, r)) k = k a r := rfl

/-- A `bytes16` operand is read back, with the bytes after it left over. -/
theorem takeBytes16_putBytes16 (bs r : List Byte) (h : bs.length ≤ Config.maxPayload) :
    takeBytes16 (putBytes16 bs ++ r) = .ok (bs, r) := by
  have hm : bs.length % 65536 = bs.length := Nat.mod_eq_of_lt (by simp only [Config.maxPayload] at h; omega)
  unfold takeBytes16 putBytes16
  rw [List.append_assoc, takeU16_be16, readThen_ok]
  simp [hm]

/-- An address operand is read back, with the bytes after it left over. -/
theorem takeAddress_putAddress (a : Address) (r : List Byte) : takeAddress (putAddress a ++ r) = .ok (a, r) := by
  unfold takeAddress
  cases a with
  | addr64 a => simp only [putAddress, List.cons_append, takeU8_cons, readThen_ok, takeU64_be64]
  | addr16 s => simp only [putAddress, List.cons_append, takeU8_cons, readThen_ok, takeU16_be16]
  | addr64Broadcast => rfl
  | addr16Broadcast => rfl

namespace Machine

/-- The bytes of `esc b`, each with its stage. -/
theorem emitEsc_offered (b : Byte) (st : Stage) (e : Encoder) :
    (emitEsc b st e).offered = e.offered ++ (esc b).map (fun w => (w, st)) := rfl

theorem emitEsc_accum (b : Byte) (st : Stage) (e : Encoder) : (emitEsc b st e).accum = e.accum := rfl

theorem sum8_cons (b : Byte) (bs : List Byte) : sum8 (b :: bs) = b + sum8 bs := by
  have h : ∀ (xs : List Byte) (a : Byte), xs.foldl (· + ·) a = a + xs.foldl (· + ·) 0 := by
    intro xs
    induction xs with
    | nil => simp
    | cons x xs ih =>
      intro a
      simp only [List.foldl_cons]
      rw [ih (a + x), ih (0 + x)]
      simp [BitVec.add_assoc]
  simp only [sum8, List.foldl_cons]
  rw [h bs (0 + b)]
  simp

/-- `write_bytes` adds the unescaped bytes to the accumulator. -/
theorem writeBytes_accum (e : Encoder) (bs : List Byte) : (writeBytes e bs).accum = e.accum + sum8 bs := by
  induction bs generalizing e with
  | nil => simp [writeBytes, sum8]
  | cons b bs ih => simp only [writeBytes, ih, sum8_cons, BitVec.add_assoc]

/-- `write_bytes` offers the escaped bytes, in order, as PAYLOAD. -/
theorem writeBytes_offered (e : Encoder) (bs : List Byte) :
    (writeBytes e bs).offered = e.offered ++ (bs.flatMap esc).map (fun w => (w, Stage.payload)) := by
  induction bs generalizing e with
  | nil => simp [writeBytes]
  | cons b bs ih => simp [writeBytes, ih, emitEsc_offered]

theorem startFrame_accum (len : U16) : (startFrame len).accum = 0 := rfl

/-- `start_frame` offers the delimiter unescaped and the two length bytes escaped. -/
theorem startFrame_offered (len : U16) :
    (startFrame len).offered =
      (delimiter, Stage.delim) :: ((be16 len).flatMap esc).map (fun w => (w, Stage.len)) := by
  simp [startFrame, emitEsc_offered, be16]

/-- What a whole frame offers, stage by stage. -/
theorem frameOffers_stages (p : List Byte) :
    frameOffers p =
      (delimiter, Stage.delim) :: ((be16 (BitVec.ofNat 16 p.length)).flatMap esc).map (fun w => (w, Stage.len)) ++
        (p.flatMap esc).map (fun w => (w, Stage.payload)) ++
        (esc (checksumOf p)).map (fun w => (w, Stage.checksum)) := by
  simp [frameOffers, finishFrame, emitEsc_offered, writeBytes_offered, writeBytes_accum, startFrame_offered,
    startFrame_accum, checksumOf]

end Machine

end Sys2Proof
end

