-- ==== Sys2Proof/Laws/Memory.lean ====
section
/-! SUPPORT. Byte memories: a read after a write, and that every operation keeps the canonical form. -/

namespace Sys2Proof.Machine

theorem Memory.get?_put (m : Memory) (a b : Nat) (v : Byte) :
    (m.put a v).get? b = if b = a then some v else m.get? b := by
  induction m with
  | nil => simp [Memory.put, Memory.get?]
  | cons c m ih =>
    obtain ⟨k, w⟩ := c
    simp only [Memory.put]
    by_cases h1 : a < k
    · simp [h1, Memory.get?]
    · by_cases h2 : a = k
      · subst h2
        by_cases h3 : b = a <;> simp [Memory.get?, h3]
      · by_cases h3 : b = k
        · have h4 : b ≠ a := by omega
          simp [h1, h2, Memory.get?, h3, h3 ▸ h4]
        · simp [h1, h2, Memory.get?, h3, ih]

theorem Memory.mem_put {m : Memory} {a : Nat} {v : Byte} {c : Host.Cell} (h : c ∈ m.put a v) : c = (a, v) ∨ c ∈ m := by
  induction m with
  | nil => simpa [Memory.put] using h
  | cons d m ih =>
    obtain ⟨k, w⟩ := d
    simp only [Memory.put] at h
    split at h
    · simpa using h
    · split at h
      · simp at h; rcases h with h | h <;> simp [h]
      · simp at h
        rcases h with h | h
        · simp [h]
        · rcases ih h with h | h <;> simp [h]

theorem Memory.put_within {m : Memory} {n a : Nat} {v : Byte} (hm : m.within n) (ha : a < n) : (m.put a v).within n := by
  intro c hc
  rcases Memory.mem_put hc with rfl | h
  · exact ha
  · exact hm c h

theorem Memory.put_wf {m : Memory} (hm : m.wf) (a : Nat) (v : Byte) : (m.put a v).wf := by
  induction m with
  | nil => simp [Memory.put, Memory.wf]
  | cons d m ih =>
    obtain ⟨k, w⟩ := d
    simp only [Memory.wf, List.pairwise_cons] at hm ih ⊢
    simp only [Memory.put]
    split
    · rename_i h
      simp only [List.pairwise_cons, List.mem_cons, forall_eq_or_imp]
      exact ⟨⟨h, fun c hc => lt_trans h (hm.1 c hc)⟩, hm⟩
    · split
      · rename_i h1 h2
        subst h2
        simpa using hm
      · rename_i h1 h2
        simp only [List.pairwise_cons]
        refine ⟨fun c hc => ?_, ih hm.2⟩
        rcases Memory.mem_put hc with rfl | h
        · show k < a
          omega
        · exact hm.1 c h

theorem Memory.putAll_wf {m : Memory} (hm : m.wf) (a : Nat) (bs : List Byte) : (m.putAll a bs).wf := by
  induction bs generalizing m a with
  | nil => exact hm
  | cons b bs ih => exact ih (Memory.put_wf hm a b) (a + 1)

theorem Memory.putAll_within {m : Memory} {n a : Nat} {bs : List Byte} (hm : m.within n) (ha : a + bs.length ≤ n) :
    (m.putAll a bs).within n := by
  induction bs generalizing m a with
  | nil => exact hm
  | cons b bs ih =>
    simp only [List.length_cons] at ha
    exact ih (Memory.put_within hm (by omega)) (by omega)

/-- A byte read after writing `bs` at `a`: the written one inside the written range, the old one outside. -/
theorem Memory.get?_putAll (m : Memory) (a : Nat) (bs : List Byte) (b : Nat) :
    (m.putAll a bs).get? b = if a ≤ b ∧ b < a + bs.length then bs[b - a]? else m.get? b := by
  induction bs generalizing m a with
  | nil =>
    simp [Memory.putAll]
  | cons c bs ih =>
    simp only [Memory.putAll, ih, Memory.get?_put, List.length_cons]
    by_cases h1 : b = a
    · subst h1
      simp
    · by_cases h2 : a ≤ b ∧ b < a + (bs.length + 1)
      · have e1 : a + 1 ≤ b ∧ b < a + 1 + bs.length := by omega
        have e2 : b - a = (b - (a + 1)) + 1 := by omega
        simp only [h2, e1, and_self, if_true]
        rw [e2, List.getElem?_cons_succ]
      · have e1 : ¬ (a + 1 ≤ b ∧ b < a + 1 + bs.length) := by omega
        rw [if_neg e1, if_neg h1, if_neg h2]

theorem Memory.forget_wf {m : Memory} (hm : m.wf) (n : Nat) : (m.forget n).wf := List.Pairwise.filter _ hm

theorem Memory.forget_within {m : Memory} {k : Nat} (hm : m.within k) (n : Nat) : (m.forget n).within k := by
  intro c hc
  exact hm c (List.mem_of_mem_filter hc)

/-- Forgetting below `n` leaves every address from `n` on as it was, and lists nothing below. -/
theorem Memory.get?_forget (m : Memory) (n a : Nat) : (m.forget n).get? a = if n ≤ a then m.get? a else none := by
  induction m with
  | nil => simp [Memory.forget, Memory.get?]
  | cons c m ih =>
    obtain ⟨k, w⟩ := c
    simp only [Memory.forget] at ih ⊢
    by_cases h : n ≤ k
    · by_cases ha : a = k
      · subst ha; simp [List.filter, h, Memory.get?]
      · simp [List.filter, h, Memory.get?, ha, ih]
    · by_cases ha : a = k
      · subst ha; simp [List.filter, h, ih]
      · simp [List.filter, h, Memory.get?, ha, ih]

/-- The two memories of the state after reset are in canonical form. -/
theorem reset_memories_wf : State.reset.ring.wf ∧ State.reset.out.wf := ⟨List.Pairwise.nil, List.Pairwise.nil⟩

end Sys2Proof.Machine
end

