-- ==== Sys2Proof/Laws/State.lean ====
section
/-! SUPPORT. One lemma for each field of State and each update of Machine/Ops.lean, so that no later proof unfolds a record update. -/

namespace Sys2Proof.Machine

/-! ### drop1 -/

@[simp] theorem State.drop1_params (s : State) : s.drop1.params = s.params := rfl
@[simp] theorem State.drop1_recvIdx (s : State) : s.drop1.recvIdx = (s.recvIdx + 1) % s.params.ringCap := rfl
@[simp] theorem State.drop1_recvSize (s : State) : s.drop1.recvSize = s.recvSize - 1 := rfl
@[simp] theorem State.drop1_ring (s : State) : s.drop1.ring = s.ring := rfl
@[simp] theorem State.drop1_out (s : State) : s.drop1.out = s.out := rfl
@[simp] theorem State.drop1_rxPending (s : State) : s.drop1.rxPending = s.rxPending := rfl
@[simp] theorem State.drop1_txLine (s : State) : s.drop1.txLine = s.txLine := rfl
@[simp] theorem State.drop1_events (s : State) : s.drop1.events = s.events := rfl
@[simp] theorem State.drop1_writeAnswers (s : State) : s.drop1.writeAnswers = s.writeAnswers := rfl
@[simp] theorem State.drop1_readAnswers (s : State) : s.drop1.readAnswers = s.readAnswers := rfl
@[simp] theorem State.drop1_writeDraws (s : State) : s.drop1.writeDraws = s.writeDraws := rfl
@[simp] theorem State.drop1_readDraws (s : State) : s.drop1.readDraws = s.readDraws := rfl
@[simp] theorem State.drop1_outDraws (s : State) : s.drop1.outDraws = s.outDraws := rfl
@[simp] theorem State.drop1_response (s : State) : s.drop1.response = s.response := rfl

/-! ### commit -/

@[simp] theorem State.commit_params (s : State) (n : Nat) : (s.commit n).params = s.params := rfl
@[simp] theorem State.commit_recvIdx (s : State) (n : Nat) : (s.commit n).recvIdx = (s.recvIdx + n) % s.params.ringCap := rfl
@[simp] theorem State.commit_recvSize (s : State) (n : Nat) : (s.commit n).recvSize = s.recvSize - n := rfl
@[simp] theorem State.commit_ring (s : State) (n : Nat) : (s.commit n).ring = s.ring := rfl
@[simp] theorem State.commit_out (s : State) (n : Nat) : (s.commit n).out = s.out := rfl
@[simp] theorem State.commit_rxPending (s : State) (n : Nat) : (s.commit n).rxPending = s.rxPending := rfl
@[simp] theorem State.commit_txLine (s : State) (n : Nat) : (s.commit n).txLine = s.txLine := rfl
@[simp] theorem State.commit_events (s : State) (n : Nat) : (s.commit n).events = s.events := rfl
@[simp] theorem State.commit_writeAnswers (s : State) (n : Nat) : (s.commit n).writeAnswers = s.writeAnswers := rfl
@[simp] theorem State.commit_readAnswers (s : State) (n : Nat) : (s.commit n).readAnswers = s.readAnswers := rfl
@[simp] theorem State.commit_writeDraws (s : State) (n : Nat) : (s.commit n).writeDraws = s.writeDraws := rfl
@[simp] theorem State.commit_readDraws (s : State) (n : Nat) : (s.commit n).readDraws = s.readDraws := rfl
@[simp] theorem State.commit_outDraws (s : State) (n : Nat) : (s.commit n).outDraws = s.outDraws := rfl
@[simp] theorem State.commit_response (s : State) (n : Nat) : (s.commit n).response = s.response := rfl

/-! ### grow -/

@[simp] theorem State.grow_params (s : State) (r : Nat) : (s.grow r).params = s.params := rfl
@[simp] theorem State.grow_recvIdx (s : State) (r : Nat) : (s.grow r).recvIdx = s.recvIdx := rfl
@[simp] theorem State.grow_recvSize (s : State) (r : Nat) : (s.grow r).recvSize = s.recvSize + r := rfl
@[simp] theorem State.grow_ring (s : State) (r : Nat) : (s.grow r).ring = s.ring := rfl
@[simp] theorem State.grow_out (s : State) (r : Nat) : (s.grow r).out = s.out := rfl
@[simp] theorem State.grow_rxPending (s : State) (r : Nat) : (s.grow r).rxPending = s.rxPending := rfl
@[simp] theorem State.grow_txLine (s : State) (r : Nat) : (s.grow r).txLine = s.txLine := rfl
@[simp] theorem State.grow_events (s : State) (r : Nat) : (s.grow r).events = s.events := rfl
@[simp] theorem State.grow_writeAnswers (s : State) (r : Nat) : (s.grow r).writeAnswers = s.writeAnswers := rfl
@[simp] theorem State.grow_readAnswers (s : State) (r : Nat) : (s.grow r).readAnswers = s.readAnswers := rfl
@[simp] theorem State.grow_writeDraws (s : State) (r : Nat) : (s.grow r).writeDraws = s.writeDraws := rfl
@[simp] theorem State.grow_readDraws (s : State) (r : Nat) : (s.grow r).readDraws = s.readDraws := rfl
@[simp] theorem State.grow_outDraws (s : State) (r : Nat) : (s.grow r).outDraws = s.outDraws := rfl
@[simp] theorem State.grow_response (s : State) (r : Nat) : (s.grow r).response = s.response := rfl

/-! ### writeOut -/

@[simp] theorem State.writeOut_params (s : State) (a : Nat) (bs : List Byte) : (s.writeOut a bs).params = s.params := rfl
@[simp] theorem State.writeOut_recvIdx (s : State) (a : Nat) (bs : List Byte) : (s.writeOut a bs).recvIdx = s.recvIdx := rfl
@[simp] theorem State.writeOut_recvSize (s : State) (a : Nat) (bs : List Byte) : (s.writeOut a bs).recvSize = s.recvSize := rfl
@[simp] theorem State.writeOut_ring (s : State) (a : Nat) (bs : List Byte) : (s.writeOut a bs).ring = s.ring := rfl
@[simp] theorem State.writeOut_out (s : State) (a : Nat) (bs : List Byte) : (s.writeOut a bs).out = s.out.putAll a bs := rfl
@[simp] theorem State.writeOut_rxPending (s : State) (a : Nat) (bs : List Byte) : (s.writeOut a bs).rxPending = s.rxPending := rfl
@[simp] theorem State.writeOut_txLine (s : State) (a : Nat) (bs : List Byte) : (s.writeOut a bs).txLine = s.txLine := rfl
@[simp] theorem State.writeOut_events (s : State) (a : Nat) (bs : List Byte) : (s.writeOut a bs).events = s.events := rfl
@[simp] theorem State.writeOut_writeAnswers (s : State) (a : Nat) (bs : List Byte) : (s.writeOut a bs).writeAnswers = s.writeAnswers := rfl
@[simp] theorem State.writeOut_readAnswers (s : State) (a : Nat) (bs : List Byte) : (s.writeOut a bs).readAnswers = s.readAnswers := rfl
@[simp] theorem State.writeOut_writeDraws (s : State) (a : Nat) (bs : List Byte) : (s.writeOut a bs).writeDraws = s.writeDraws := rfl
@[simp] theorem State.writeOut_readDraws (s : State) (a : Nat) (bs : List Byte) : (s.writeOut a bs).readDraws = s.readDraws := rfl
@[simp] theorem State.writeOut_outDraws (s : State) (a : Nat) (bs : List Byte) : (s.writeOut a bs).outDraws = s.outDraws := rfl
@[simp] theorem State.writeOut_response (s : State) (a : Nat) (bs : List Byte) : (s.writeOut a bs).response = s.response := rfl

/-! ### freeOut -/

@[simp] theorem State.freeOut_params (s : State) (n : Nat) : (s.freeOut n).params = s.params := rfl
@[simp] theorem State.freeOut_recvIdx (s : State) (n : Nat) : (s.freeOut n).recvIdx = s.recvIdx := rfl
@[simp] theorem State.freeOut_recvSize (s : State) (n : Nat) : (s.freeOut n).recvSize = s.recvSize := rfl
@[simp] theorem State.freeOut_ring (s : State) (n : Nat) : (s.freeOut n).ring = s.ring := rfl
@[simp] theorem State.freeOut_out (s : State) (n : Nat) : (s.freeOut n).out = s.out.forget n := rfl
@[simp] theorem State.freeOut_rxPending (s : State) (n : Nat) : (s.freeOut n).rxPending = s.rxPending := rfl
@[simp] theorem State.freeOut_txLine (s : State) (n : Nat) : (s.freeOut n).txLine = s.txLine := rfl
@[simp] theorem State.freeOut_events (s : State) (n : Nat) : (s.freeOut n).events = s.events := rfl
@[simp] theorem State.freeOut_writeAnswers (s : State) (n : Nat) : (s.freeOut n).writeAnswers = s.writeAnswers := rfl
@[simp] theorem State.freeOut_readAnswers (s : State) (n : Nat) : (s.freeOut n).readAnswers = s.readAnswers := rfl
@[simp] theorem State.freeOut_writeDraws (s : State) (n : Nat) : (s.freeOut n).writeDraws = s.writeDraws := rfl
@[simp] theorem State.freeOut_readDraws (s : State) (n : Nat) : (s.freeOut n).readDraws = s.readDraws := rfl
@[simp] theorem State.freeOut_outDraws (s : State) (n : Nat) : (s.freeOut n).outDraws = n :: s.outDraws := rfl
@[simp] theorem State.freeOut_response (s : State) (n : Nat) : (s.freeOut n).response = s.response := rfl

/-! ### ret -/

@[simp] theorem State.ret_params (s : State) (v : Int) : (s.ret v).params = s.params := rfl
@[simp] theorem State.ret_recvIdx (s : State) (v : Int) : (s.ret v).recvIdx = s.recvIdx := rfl
@[simp] theorem State.ret_recvSize (s : State) (v : Int) : (s.ret v).recvSize = s.recvSize := rfl
@[simp] theorem State.ret_ring (s : State) (v : Int) : (s.ret v).ring = s.ring := rfl
@[simp] theorem State.ret_out (s : State) (v : Int) : (s.ret v).out = s.out := rfl
@[simp] theorem State.ret_rxPending (s : State) (v : Int) : (s.ret v).rxPending = s.rxPending := rfl
@[simp] theorem State.ret_txLine (s : State) (v : Int) : (s.ret v).txLine = s.txLine := rfl
@[simp] theorem State.ret_events (s : State) (v : Int) : (s.ret v).events = s.events := rfl
@[simp] theorem State.ret_writeAnswers (s : State) (v : Int) : (s.ret v).writeAnswers = s.writeAnswers := rfl
@[simp] theorem State.ret_readAnswers (s : State) (v : Int) : (s.ret v).readAnswers = s.readAnswers := rfl
@[simp] theorem State.ret_writeDraws (s : State) (v : Int) : (s.ret v).writeDraws = s.writeDraws := rfl
@[simp] theorem State.ret_readDraws (s : State) (v : Int) : (s.ret v).readDraws = s.readDraws := rfl
@[simp] theorem State.ret_outDraws (s : State) (v : Int) : (s.ret v).outDraws = s.outDraws := rfl
@[simp] theorem State.ret_response (s : State) (v : Int) : (s.ret v).response = some ⟨.value v, none⟩ := rfl

/-! ### retRecord -/

@[simp] theorem State.retRecord_params (s : State) (r : Record) : (s.retRecord r).params = s.params := rfl
@[simp] theorem State.retRecord_recvIdx (s : State) (r : Record) : (s.retRecord r).recvIdx = s.recvIdx := rfl
@[simp] theorem State.retRecord_recvSize (s : State) (r : Record) : (s.retRecord r).recvSize = s.recvSize := rfl
@[simp] theorem State.retRecord_ring (s : State) (r : Record) : (s.retRecord r).ring = s.ring := rfl
@[simp] theorem State.retRecord_out (s : State) (r : Record) : (s.retRecord r).out = s.out := rfl
@[simp] theorem State.retRecord_rxPending (s : State) (r : Record) : (s.retRecord r).rxPending = s.rxPending := rfl
@[simp] theorem State.retRecord_txLine (s : State) (r : Record) : (s.retRecord r).txLine = s.txLine := rfl
@[simp] theorem State.retRecord_events (s : State) (r : Record) : (s.retRecord r).events = s.events := rfl
@[simp] theorem State.retRecord_writeAnswers (s : State) (r : Record) : (s.retRecord r).writeAnswers = s.writeAnswers := rfl
@[simp] theorem State.retRecord_readAnswers (s : State) (r : Record) : (s.retRecord r).readAnswers = s.readAnswers := rfl
@[simp] theorem State.retRecord_writeDraws (s : State) (r : Record) : (s.retRecord r).writeDraws = s.writeDraws := rfl
@[simp] theorem State.retRecord_readDraws (s : State) (r : Record) : (s.retRecord r).readDraws = s.readDraws := rfl
@[simp] theorem State.retRecord_outDraws (s : State) (r : Record) : (s.retRecord r).outDraws = s.outDraws := rfl
@[simp] theorem State.retRecord_response (s : State) (r : Record) : (s.retRecord r).response = some ⟨.value 0, some r⟩ := rfl

/-! ### raise -/

@[simp] theorem State.raise_params (s : State) (e : BlockError) : (s.raise e).params = s.params := rfl
@[simp] theorem State.raise_recvIdx (s : State) (e : BlockError) : (s.raise e).recvIdx = s.recvIdx := rfl
@[simp] theorem State.raise_recvSize (s : State) (e : BlockError) : (s.raise e).recvSize = s.recvSize := rfl
@[simp] theorem State.raise_ring (s : State) (e : BlockError) : (s.raise e).ring = s.ring := rfl
@[simp] theorem State.raise_out (s : State) (e : BlockError) : (s.raise e).out = s.out := rfl
@[simp] theorem State.raise_rxPending (s : State) (e : BlockError) : (s.raise e).rxPending = s.rxPending := rfl
@[simp] theorem State.raise_txLine (s : State) (e : BlockError) : (s.raise e).txLine = s.txLine := rfl
@[simp] theorem State.raise_events (s : State) (e : BlockError) : (s.raise e).events = s.events := rfl
@[simp] theorem State.raise_writeAnswers (s : State) (e : BlockError) : (s.raise e).writeAnswers = s.writeAnswers := rfl
@[simp] theorem State.raise_readAnswers (s : State) (e : BlockError) : (s.raise e).readAnswers = s.readAnswers := rfl
@[simp] theorem State.raise_writeDraws (s : State) (e : BlockError) : (s.raise e).writeDraws = s.writeDraws := rfl
@[simp] theorem State.raise_readDraws (s : State) (e : BlockError) : (s.raise e).readDraws = s.readDraws := rfl
@[simp] theorem State.raise_outDraws (s : State) (e : BlockError) : (s.raise e).outDraws = s.outDraws := rfl
@[simp] theorem State.raise_response (s : State) (e : BlockError) : (s.raise e).response = some ⟨.error e, none⟩ := rfl

/-! ### writesTaken -/

@[simp] theorem State.writesTaken_params (s : State) (m : Nat) : (s.writesTaken m).params = s.params := rfl
@[simp] theorem State.writesTaken_recvIdx (s : State) (m : Nat) : (s.writesTaken m).recvIdx = s.recvIdx := rfl
@[simp] theorem State.writesTaken_recvSize (s : State) (m : Nat) : (s.writesTaken m).recvSize = s.recvSize := rfl
@[simp] theorem State.writesTaken_ring (s : State) (m : Nat) : (s.writesTaken m).ring = s.ring := rfl
@[simp] theorem State.writesTaken_out (s : State) (m : Nat) : (s.writesTaken m).out = s.out := rfl
@[simp] theorem State.writesTaken_rxPending (s : State) (m : Nat) : (s.writesTaken m).rxPending = s.rxPending := rfl
@[simp] theorem State.writesTaken_txLine (s : State) (m : Nat) : (s.writesTaken m).txLine = s.txLine := rfl
@[simp] theorem State.writesTaken_events (s : State) (m : Nat) : (s.writesTaken m).events = s.events := rfl
@[simp] theorem State.writesTaken_writeAnswers (s : State) (m : Nat) : (s.writesTaken m).writeAnswers = s.writeAnswers.drop m := rfl
@[simp] theorem State.writesTaken_readAnswers (s : State) (m : Nat) : (s.writesTaken m).readAnswers = s.readAnswers := rfl
@[simp] theorem State.writesTaken_writeDraws (s : State) (m : Nat) : (s.writesTaken m).writeDraws = s.writeDraws + (m - s.writeAnswers.length) := rfl
@[simp] theorem State.writesTaken_readDraws (s : State) (m : Nat) : (s.writesTaken m).readDraws = s.readDraws := rfl
@[simp] theorem State.writesTaken_outDraws (s : State) (m : Nat) : (s.writesTaken m).outDraws = s.outDraws := rfl
@[simp] theorem State.writesTaken_response (s : State) (m : Nat) : (s.writesTaken m).response = s.response := rfl

/-! ### sent -/

@[simp] theorem State.sent_params (s : State) (bs : List Byte) (m : Nat) : (s.sent bs m).params = s.params := rfl
@[simp] theorem State.sent_recvIdx (s : State) (bs : List Byte) (m : Nat) : (s.sent bs m).recvIdx = s.recvIdx := rfl
@[simp] theorem State.sent_recvSize (s : State) (bs : List Byte) (m : Nat) : (s.sent bs m).recvSize = s.recvSize := rfl
@[simp] theorem State.sent_ring (s : State) (bs : List Byte) (m : Nat) : (s.sent bs m).ring = s.ring := rfl
@[simp] theorem State.sent_out (s : State) (bs : List Byte) (m : Nat) : (s.sent bs m).out = s.out := rfl
@[simp] theorem State.sent_rxPending (s : State) (bs : List Byte) (m : Nat) : (s.sent bs m).rxPending = s.rxPending := rfl
@[simp] theorem State.sent_txLine (s : State) (bs : List Byte) (m : Nat) : (s.sent bs m).txLine = s.txLine ++ bs := rfl
@[simp] theorem State.sent_events (s : State) (bs : List Byte) (m : Nat) : (s.sent bs m).events = s.events := rfl
@[simp] theorem State.sent_writeAnswers (s : State) (bs : List Byte) (m : Nat) : (s.sent bs m).writeAnswers = s.writeAnswers.drop m := rfl
@[simp] theorem State.sent_readAnswers (s : State) (bs : List Byte) (m : Nat) : (s.sent bs m).readAnswers = s.readAnswers := rfl
@[simp] theorem State.sent_writeDraws (s : State) (bs : List Byte) (m : Nat) : (s.sent bs m).writeDraws = s.writeDraws + (m - s.writeAnswers.length) := rfl
@[simp] theorem State.sent_readDraws (s : State) (bs : List Byte) (m : Nat) : (s.sent bs m).readDraws = s.readDraws := rfl
@[simp] theorem State.sent_outDraws (s : State) (bs : List Byte) (m : Nat) : (s.sent bs m).outDraws = s.outDraws := rfl
@[simp] theorem State.sent_response (s : State) (bs : List Byte) (m : Nat) : (s.sent bs m).response = s.response := rfl

/-! ### readTaken -/

@[simp] theorem State.readTaken_params (s : State) : s.readTaken.params = s.params := by
  unfold State.readTaken; split <;> simp_all
@[simp] theorem State.readTaken_recvIdx (s : State) : s.readTaken.recvIdx = s.recvIdx := by
  unfold State.readTaken; split <;> simp_all
@[simp] theorem State.readTaken_recvSize (s : State) : s.readTaken.recvSize = s.recvSize := by
  unfold State.readTaken; split <;> simp_all
@[simp] theorem State.readTaken_ring (s : State) : s.readTaken.ring = s.ring := by
  unfold State.readTaken; split <;> simp_all
@[simp] theorem State.readTaken_out (s : State) : s.readTaken.out = s.out := by
  unfold State.readTaken; split <;> simp_all
@[simp] theorem State.readTaken_rxPending (s : State) : s.readTaken.rxPending = s.rxPending := by
  unfold State.readTaken; split <;> simp_all
@[simp] theorem State.readTaken_txLine (s : State) : s.readTaken.txLine = s.txLine := by
  unfold State.readTaken; split <;> simp_all
@[simp] theorem State.readTaken_events (s : State) : s.readTaken.events = s.events := by
  unfold State.readTaken; split <;> simp_all
@[simp] theorem State.readTaken_writeAnswers (s : State) : s.readTaken.writeAnswers = s.writeAnswers := by
  unfold State.readTaken; split <;> simp_all
@[simp] theorem State.readTaken_readAnswers (s : State) : s.readTaken.readAnswers = s.readAnswers.tail := by
  unfold State.readTaken; split <;> simp_all
@[simp] theorem State.readTaken_writeDraws (s : State) : s.readTaken.writeDraws = s.writeDraws := by
  unfold State.readTaken; split <;> simp_all
@[simp] theorem State.readTaken_readDraws (s : State) : s.readTaken.readDraws = if s.readAnswers = [] then s.readDraws + 1 else s.readDraws := by
  unfold State.readTaken; split <;> simp_all
@[simp] theorem State.readTaken_outDraws (s : State) : s.readTaken.outDraws = s.outDraws := by
  unfold State.readTaken; split <;> simp_all
@[simp] theorem State.readTaken_response (s : State) : s.readTaken.response = s.response := by
  unfold State.readTaken; split <;> simp_all

/-! ### rxRead -/

@[simp] theorem State.rxRead_params (s : State) (p n : Nat) : (s.rxRead p n).2.params = s.params := by
  simp [State.rxRead]
@[simp] theorem State.rxRead_recvIdx (s : State) (p n : Nat) : (s.rxRead p n).2.recvIdx = s.recvIdx := by
  simp [State.rxRead]
@[simp] theorem State.rxRead_recvSize (s : State) (p n : Nat) : (s.rxRead p n).2.recvSize = s.recvSize := by
  simp [State.rxRead]
@[simp] theorem State.rxRead_ring (s : State) (p n : Nat) : (s.rxRead p n).2.ring = s.ring.putAll p (s.rxPending.take (s.readResult n).toNat) := rfl
@[simp] theorem State.rxRead_out (s : State) (p n : Nat) : (s.rxRead p n).2.out = s.out := by
  simp [State.rxRead]
@[simp] theorem State.rxRead_rxPending (s : State) (p n : Nat) : (s.rxRead p n).2.rxPending = s.rxPending.drop (s.readResult n).toNat := rfl
@[simp] theorem State.rxRead_txLine (s : State) (p n : Nat) : (s.rxRead p n).2.txLine = s.txLine := by
  simp [State.rxRead]
@[simp] theorem State.rxRead_events (s : State) (p n : Nat) : (s.rxRead p n).2.events = s.events := by
  simp [State.rxRead]
@[simp] theorem State.rxRead_writeAnswers (s : State) (p n : Nat) : (s.rxRead p n).2.writeAnswers = s.writeAnswers := by
  simp [State.rxRead]
@[simp] theorem State.rxRead_readAnswers (s : State) (p n : Nat) : (s.rxRead p n).2.readAnswers = s.readAnswers.tail := by
  simp [State.rxRead]
@[simp] theorem State.rxRead_writeDraws (s : State) (p n : Nat) : (s.rxRead p n).2.writeDraws = s.writeDraws := by
  simp [State.rxRead]
@[simp] theorem State.rxRead_readDraws (s : State) (p n : Nat) : (s.rxRead p n).2.readDraws = if s.readAnswers = [] then s.readDraws + 1 else s.readDraws := by
  simp [State.rxRead]
@[simp] theorem State.rxRead_outDraws (s : State) (p n : Nat) : (s.rxRead p n).2.outDraws = s.outDraws := by
  simp [State.rxRead]
@[simp] theorem State.rxRead_response (s : State) (p n : Nat) : (s.rxRead p n).2.response = s.response := by
  simp [State.rxRead]

@[simp] theorem State.rxRead_fst (s : State) (p n : Nat) : (s.rxRead p n).1 = s.readResult n := rfl

end Sys2Proof.Machine
end

