-- ==== Sys2Proof/Laws/Ops.lean ====
section
/-! SUPPORT. What each shared operation can do, said once: the transport primitives, the emission of a payload, the refill, and the
inversion of `exec` and of `step`. -/

namespace Sys2Proof.Machine

/-! ### Offers and their answers (R60) -/

theorem State.acceptRun_le (s : State) (k n : Nat) : s.acceptRun k n ≤ n := by
  induction n generalizing k with
  | zero => simp [State.acceptRun]
  | succ n ih =>
    simp only [State.acceptRun]
    split
    · exact Nat.succ_le_succ (ih (k + 1))
    · omega

/-- Every offer before the run's end is accepted. -/
theorem State.acceptRun_accepts (s : State) (k n : Nat) {j : Nat} (h : j < s.acceptRun k n) :
    s.writeAnswer (k + j) = .accept := by
  induction n generalizing k j with
  | zero => simp [State.acceptRun] at h
  | succ n ih =>
    simp only [State.acceptRun] at h
    split at h
    · rename_i hk
      cases j with
      | zero => exact hk
      | succ j =>
        have := ih (k + 1) (Nat.lt_of_succ_lt_succ h)
        rwa [show k + (j + 1) = k + 1 + j by omega]
    · omega

/-- The run ends at the first offer that is not accepted. -/
theorem State.acceptRun_eq (s : State) (k n m : Nat) (hm : m < n) (ha : ∀ j < m, s.writeAnswer (k + j) = .accept)
    (hs : s.writeAnswer (k + m) ≠ .accept) : s.acceptRun k n = m := by
  induction n generalizing k m with
  | zero => omega
  | succ n ih =>
    simp only [State.acceptRun]
    cases m with
    | zero => rw [if_neg (by simpa using hs)]
    | succ m =>
      rw [if_pos (by simpa using ha 0 (by omega)), ih (k + 1) m (by omega)]
      · intro j hj
        have := ha (j + 1) (by omega)
        rwa [show k + 1 + j = k + (j + 1) by omega]
      · rwa [show k + 1 + m = k + (m + 1) by omega]

/-- With every offer accepted the run is all of them. -/
theorem State.acceptRun_all (s : State) (k n : Nat) (ha : ∀ j < n, s.writeAnswer (k + j) = .accept) :
    s.acceptRun k n = n := by
  induction n generalizing k with
  | zero => rfl
  | succ n ih =>
    simp only [State.acceptRun]
    rw [if_pos (by simpa using ha 0 (by omega)), ih (k + 1)]
    intro j hj
    have := ha (j + 1) (by omega)
    rwa [show k + 1 + j = k + (j + 1) by omega]

/-- Only a queued answer breaks the write contract (log 3). -/
theorem State.writeAnswer_over {s : State} {k : Nat} : s.writeAnswer k = .over ↔ s.writeAnswers[k]? = some .over := by
  unfold State.writeAnswer
  split
  · rename_i a h
    simp [h]
  · rename_i h
    simp only [h]
    split <;> simp

/-- What `txEmit` can leave: some offered bytes, from the first on, on the line, and a response. -/
theorem State.txEmit_next {offers : List (Byte × Stage)} {s t : State} (h : s.txEmit offers = .next t) :
    ∃ (bs : List Byte) (m : Nat) (st : Status), t = { s.sent bs m with response := some ⟨st, none⟩ } ∧
      (st = .value 0 ∨ ∃ g, st = .error (.writeFailed g)) := by
  unfold State.txEmit at h
  simp only at h
  split at h
  · cases h
  · injection h with h
    subst h
    split
    · exact ⟨_, _, .value 0, rfl, .inl rfl⟩
    · exact ⟨_, _, .error (.writeFailed _), rfl, .inr ⟨_, rfl⟩⟩

/-- A payload over 65535 bytes is refused (R121). -/
theorem emitPayload_tooLong {p : List Byte} (h : 65535 < p.length) (s : State) :
    emitPayload p s = .refused .payloadTooLong := if_pos h

theorem emitPayload_fits {p : List Byte} (h : p.length ≤ 65535) (s : State) :
    emitPayload p s = s.txEmit (frameOffers p) := if_neg (Nat.not_lt.2 h)

/-- What sending a payload can leave (R204). -/
theorem emitPayload_next {p : List Byte} {s t : State} (h : emitPayload p s = .next t) :
    ∃ (bs : List Byte) (m : Nat) (st : Status), t = { s.sent bs m with response := some ⟨st, none⟩ } ∧
      (st = .value 0 ∨ ∃ g, st = .error (.writeFailed g)) := by
  unfold emitPayload at h
  split at h
  · cases h
  · exact State.txEmit_next h

/-! ### Reads (R61) -/

/-- A read never answers more than was asked or is pending. -/
theorem State.readResult_le (s : State) (n : Nat) : (s.readResult n).toNat ≤ min n s.rxPending.length := by
  unfold State.readResult
  split
  · rename_i h
    have : s.readAnswer.toNat = 0 := by omega
    omega
  · omega

theorem State.readResult_neg {s : State} {n : Nat} : s.readResult n < 0 ↔ s.readAnswer < 0 := by
  unfold State.readResult
  split <;> omega

/-- What a refill touches: nothing but `recv_size`, the ring, `rx_pending` and the read answers (R142). -/
theorem State.fill_frame (s : State) :
    s.fill.2 = { s with recvSize := s.fill.2.recvSize, ring := s.fill.2.ring, rxPending := s.fill.2.rxPending,
                        readAnswers := s.fill.2.readAnswers, readDraws := s.fill.2.readDraws } := by
  have hr : ∀ u : State, u.readTaken = { u with readAnswers := u.readTaken.readAnswers, readDraws := u.readTaken.readDraws } := by
    intro u
    unfold State.readTaken
    split <;> rfl
  have hx : ∀ (u : State) (p n : Nat), (u.rxRead p n).2 =
      { u with ring := (u.rxRead p n).2.ring, rxPending := (u.rxRead p n).2.rxPending
               readAnswers := u.readTaken.readAnswers, readDraws := u.readTaken.readDraws } := by
    intro u p n
    simp only [State.rxRead]
    rw [hr u]
  unfold State.fill
  dsimp only
  split
  · rfl
  · split
    · split
      · rw [hx]
      · split
        · split
          · rw [hx]; simp only [State.grow]; rw [hx s]
          · simp only [State.grow]; rw [hx]; simp only; rw [hx s]
        · simp only [State.grow]; rw [hx]
    · split
      · rw [hx]
      · simp only [State.grow]; rw [hx]

theorem State.fill_status (s : State) : (s.fill.1 < 0 ∧ fillStatus s.fill.1 s.fill.2 = s.fill.2.raise (.transportRead s.fill.1)) ∨
    (0 ≤ s.fill.1 ∧ fillStatus s.fill.1 s.fill.2 = s.fill.2.ret s.fill.1) := by
  unfold fillStatus
  by_cases h : s.fill.1 < 0
  · exact .inl ⟨h, if_pos h⟩
  · exact .inr ⟨by omega, if_neg h⟩

/-! ### Inversion of `exec` and `step` -/

/-- Everything an instruction can do when it gives a next state. -/
theorem exec_next {i : Instr} {s t : State} (h : exec i s = .next t) :
    (i = .reset ∧ t = State.ret 0 { s with recvIdx := 0, recvSize := 0 }) ∨
    (∃ bs m st, t = { s.sent bs m with response := some ⟨st, none⟩ } ∧
      (st = .value 0 ∨ ∃ g, st = .error (.writeFailed g))) ∨
    (i = .fillBuffer ∧ s.fillBreach = false ∧ t = fillStatus s.fill.1 s.fill.2) ∨
    (∃ n, i = .decodeFrame n ∧ n.toNat ≤ s.params.outCap ∧ t = s.decodeFrame n.toNat) ∨
    (∃ n, i = .recvFrame n ∧ n.toNat ≤ s.params.outCap ∧ s.fillBreach = false ∧
      ((s.fill.1 < 0 ∧ t = s.fill.2.raise (.transportRead s.fill.1)) ∨
       (0 ≤ s.fill.1 ∧ t = s.fill.2.decodeFrame n.toNat))) ∨
    (∃ p, t = s.answer (demux p)) := by
  have emit : ∀ p, emitPayload p s = .next t → ∃ bs m st, t = { s.sent bs m with response := some ⟨st, none⟩ } ∧
      (st = .value 0 ∨ ∃ g, st = .error (.writeFailed g)) := fun p hp => emitPayload_next hp
  have row : ∀ p, (Host.Outcome.next (s.answer (demux p)) : Host.Outcome State Fault Refusal) = .next t →
      ∃ p, t = s.answer (demux p) := fun p hp => ⟨p, by injection hp with hp; exact hp.symm⟩
  cases i <;> simp only [exec] at h
  case reset =>
    left
    unfold execReset at h
    injection h with h
    exact ⟨rfl, h.symm⟩
  case fillBuffer =>
    right; right; left
    unfold execFillBuffer at h
    split at h
    · cases h
    · rename_i hb
      injection h with h
      exact ⟨rfl, by simpa using hb, h.symm⟩
  case decodeFrame n =>
    right; right; right; left
    unfold execDecodeFrame at h
    split at h
    · cases h
    · rename_i hn
      injection h with h
      exact ⟨n, rfl, by omega, h.symm⟩
  case recvFrame n =>
    right; right; right; right; left
    unfold execRecvFrame at h
    split at h
    · cases h
    · rename_i hn
      split at h
      · cases h
      · rename_i hb
        injection h with h
        refine ⟨n, rfl, by omega, by simpa using hb, ?_⟩
        by_cases hf : s.fill.1 < 0
        · exact .inl ⟨hf, by rw [if_pos hf] at h; exact h.symm⟩
        · exact .inr ⟨by omega, by rw [if_neg hf] at h; exact h.symm⟩
  case parseFrame n =>
    right; right; right; right; right
    unfold execParseFrame at h
    split at h
    · cases h
    · exact row _ h
  case sendFrame p => exact .inr (.inl (emit _ h))
  case apiRxModemStatus b => exact .inr (.inr (.inr (.inr (.inr (row (0x8A :: b) h)))))
  case apiRxTransmitStatus b => exact .inr (.inr (.inr (.inr (.inr (row (0x89 :: b) h)))))
  case apiRxAtResponse b => exact .inr (.inr (.inr (.inr (.inr (row (0x88 :: b) h)))))
  case apiRxRemoteAtResponse b => exact .inr (.inr (.inr (.inr (.inr (row (0x97 :: b) h)))))
  case apiRxReceive64 b => exact .inr (.inr (.inr (.inr (.inr (row (0x80 :: b) h)))))
  case apiRxReceive16 b => exact .inr (.inr (.inr (.inr (.inr (row (0x81 :: b) h)))))
  all_goals exact .inr (.inl (emit _ h))

/-- Everything a step can do when it gives a next state. -/
theorem step_next {s t : State} (h : step s = .next t) :
    (s.events = [] ∧ t = s) ∨
    (∃ e rest, s.events = e :: rest ∧
      ((∃ i, exec i { s with events := rest } = .next t ∧ ∀ bs, e ≠ .line bs) ∨
       (∃ a bs, e = .hostWrite a bs ∧ (bs = [] ∨ a + bs.length ≤ s.params.outCap) ∧
         t = State.writeOut a bs { s with events := rest }) ∨
       (∃ bs, e = .line bs ∧ t = { s with events := rest, rxPending := s.rxPending ++ bs }))) := by
  unfold step at h
  cases he : s.events with
  | nil =>
    simp only [State.fetch, he] at h
    injection h with h
    exact .inl ⟨rfl, h.symm⟩
  | cons e rest =>
    right
    refine ⟨e, rest, rfl, ?_⟩
    simp only [State.fetch, he] at h
    cases e with
    | command bs =>
      simp only at h
      split at h <;> rename_i hf
      · cases hd : decodeCommand bs <;> simp [hd] at hf
      · cases hd : decodeCommand bs <;> simp [hd] at hf
        obtain ⟨rfl, rfl⟩ := hf
        exact .inl ⟨_, h, by simp⟩
      · cases hd : decodeCommand bs <;> simp [hd] at hf
      · cases h
      · cases h
    | outgoing p =>
      simp only at h
      split at h <;> rename_i hf
      · cases hd : decodeOutgoing p <;> simp [hd] at hf
      · cases hd : decodeOutgoing p <;> simp [hd] at hf
        obtain ⟨rfl, rfl⟩ := hf
        exact .inl ⟨_, h, by simp⟩
      · cases hd : decodeOutgoing p <;> simp [hd] at hf
      · cases h
      · cases h
    | incoming size =>
      simp only at h
      left
      split at h <;> rename_i hf
      · split at hf
        · cases hd : decodeIncoming (s.outBytes size.toNat) <;> simp [hd] at hf
        · cases hf
      · split at hf
        · cases hd : decodeIncoming (s.outBytes size.toNat) <;> simp [hd] at hf <;>
            (obtain ⟨rfl, rfl⟩ := hf; exact ⟨_, h, by simp⟩)
        · injection hf with h1 h2
          subst h1; subst h2
          exact ⟨_, h, by simp⟩
      · split at hf
        · cases hd : decodeIncoming (s.outBytes size.toNat) <;> simp [hd] at hf
        · cases hf
      · cases h
      · cases h
    | hostWrite a bs =>
      right; left
      by_cases hc : bs = [] ∨ a + bs.length ≤ s.params.outCap
      · simp only [hc, if_true] at h
        injection h with h
        exact ⟨a, bs, rfl, hc, h.symm⟩
      · simp only [hc, if_false] at h
        cases h
    | line bs =>
      right; right
      simp only at h
      injection h with h
      exact ⟨bs, rfl, h.symm⟩

end Sys2Proof.Machine
end

