-- ==== Sys2Proof/Laws/Decoder.lean ====
section
/-! SUPPORT. The logical window under the ring's operations, the unescape primitive and the decoder's loops seen through it. -/

namespace Sys2Proof.Machine

/-! ### The window (R24, R51, R53, R54) -/

theorem State.window_length (s : State) : s.window.length = s.recvSize := by simp [State.window]

theorem State.window_getElem? (s : State) (i : Nat) :
    s.window[i]? = if i < s.recvSize then some (s.ringByte i) else none := by
  simp only [State.window, List.getElem?_map]
  split
  · rename_i h
    simp [List.getElem?_range h]
  · rename_i h
    simp [List.getElem?_eq_none (by simpa using h : (List.range s.recvSize).length ≤ i)]

theorem State.physical_commit (s : State) (n i : Nat) : (s.commit n).physical i = s.physical (n + i) := by
  simp only [State.physical, State.commit_recvIdx, State.commit_params, Nat.mod_add_mod, Nat.add_assoc]

theorem State.ringByte_commit (s : State) (n i : Nat) : (s.commit n).ringByte i = s.ringByte (n + i) := by
  simp only [State.ringByte, State.physical_commit, State.commit_ring]

/-- `Drop1` is `Commit(1)`. -/
theorem State.drop1_eq_commit (s : State) : s.drop1 = s.commit 1 := rfl

/-- Advancing the head by `n` takes `n` bytes off the window's front. -/
theorem State.window_commit (s : State) (n : Nat) : (s.commit n).window = s.window.drop n := by
  apply List.ext_getElem?
  intro i
  rw [List.getElem?_drop, State.window_getElem?, State.window_getElem?, State.ringByte_commit, State.commit_recvSize]
  by_cases h : i < s.recvSize - n
  · rw [if_pos h, if_pos (by omega)]
  · rw [if_neg h, if_neg (by omega)]

theorem State.window_drop1 (s : State) : s.drop1.window = s.window.drop 1 := State.window_commit s 1

/-- Advancing the head by `m` and then by `n` is advancing it by `m + n`. -/
theorem State.commit_commit (s : State) (m n : Nat) : (s.commit m).commit n = s.commit (m + n) := by
  simp only [State.commit, Nat.mod_add_mod, Nat.add_assoc, Nat.sub_sub]

/-- States that differ only outside the registers and the ring have the same window. -/
theorem State.window_congr {s t : State} (hp : t.params = s.params) (hi : t.recvIdx = s.recvIdx)
    (hz : t.recvSize = s.recvSize) (hr : t.ring = s.ring) : t.window = s.window := by
  have h : t.ringByte = s.ringByte := by
    funext i
    simp only [State.ringByte, State.physical, hp, hi, hr]
  simp only [State.window, h, hz]

/-! ### The unescape primitive on the window (R162) -/

/-- `Unesc(i)` as a function of the raw bytes held. -/
def unescAt (w : List Byte) (i : Nat) : Unescaped :=
  match w[i]? with
  | none => .notEnough
  | some b =>
    if b = delimiter then .foundStart
    else if b = escapeByte then
      match w[i + 1]? with
      | none => .notEnough
      | some c => if c = delimiter then .foundStart else .value (c ^^^ 0x20) (i + 2)
    else .value b (i + 1)

theorem State.unesc_eq (s : State) (i : Nat) : s.unesc i = unescAt s.window i := by
  unfold State.unesc unescAt
  rw [State.window_getElem?, State.window_getElem?]
  by_cases h : i < s.recvSize
  · rw [if_neg (by omega), if_pos h]
    simp only
    by_cases h2 : i + 1 < s.recvSize
    · rw [if_neg (by omega : ¬ s.recvSize ≤ i + 1), if_pos h2]
    · rw [if_pos (by omega : s.recvSize ≤ i + 1), if_neg h2]
  · rw [if_pos (by omega), if_neg h]

/-- A value is one or two raw bytes further, still inside the window. -/
theorem unescAt_value {w : List Byte} {i next : Nat} {v : Byte} (h : unescAt w i = .value v next) :
    i < next ∧ next ≤ w.length := by
  unfold unescAt at h
  split at h
  · cases h
  · rename_i b hb
    have hi := (List.getElem?_eq_some_iff.1 hb).1
    split at h
    · cases h
    · split at h
      · split at h
        · cases h
        · rename_i c hc
          have hi2 := (List.getElem?_eq_some_iff.1 hc).1
          split at h
          · cases h
          · injection h with _ h
            omega
      · injection h with _ h
        omega

/-- The encoder's pair or byte is one of the ways a byte may stand in the ring. -/
theorem readsAs_esc (b : Byte) : ReadsAs (esc b) b := by
  unfold ReadsAs esc
  by_cases h : inEsc b = true
  · rw [if_pos h]
    refine .inr ⟨b ^^^ 0x20#8, rfl, ?_, ?_⟩
    · simp only [inEsc, Bool.or_eq_true, beq_iff_eq] at h
      rcases h with ((rfl | rfl) | rfl) | rfl <;> decide
    · rw [BitVec.xor_assoc, BitVec.xor_self, BitVec.xor_zero]
  · rw [if_neg h]
    simp only [inEsc, Bool.or_eq_true, beq_iff_eq, not_or] at h
    exact .inl ⟨rfl, h.1.1.1, h.1.1.2⟩

/-- A byte that stands as itself, before raw bytes. -/
theorem RawOf.plain {raw bytes : List Byte} {b : Byte} (h : b ≠ 0x7E#8 ∧ b ≠ 0x7D#8) (t : RawOf raw bytes) :
    RawOf (b :: raw) (b :: bytes) := .cons (.inl ⟨rfl, h⟩) t

/-- An escape pair before raw bytes. -/
theorem RawOf.pair {raw bytes : List Byte} {c : Byte} (h : c ≠ 0x7E#8) (t : RawOf raw bytes) :
    RawOf (0x7D#8 :: c :: raw) ((c ^^^ 0x20#8) :: bytes) := .cons (.inr ⟨c, rfl, h, rfl⟩) t

/-- What the encoder sends for `bs` is read as `bs`. -/
theorem rawOf_flatMap_esc (bs : List Byte) : RawOf (bs.flatMap esc) bs := by
  induction bs with
  | nil => exact .nil
  | cons b bs ih => exact .cons (readsAs_esc b) ih

/-- Raw bytes read as `as ++ bs` are some read as `as` and then some read as `bs`. -/
theorem rawOf_append {raw as bs : List Byte} (h : RawOf raw (as ++ bs)) :
    ∃ ra rb, raw = ra ++ rb ∧ RawOf ra as ∧ RawOf rb bs := by
  induction as generalizing raw with
  | nil => exact ⟨[], raw, rfl, .nil, h⟩
  | cons a as ih =>
    rw [List.cons_append] at h
    cases h with
    | cons p t =>
      obtain ⟨ra, rb, rfl, h1, h2⟩ := ih t
      exact ⟨_, rb, (List.append_assoc _ _ _).symm, .cons p h1, h2⟩

/-- No delimiter stands in raw bytes that are read as bytes. -/
theorem rawOf_no_delimiter {raw bytes : List Byte} (h : RawOf raw bytes) : delimiter ∉ raw := by
  induction h with
  | nil => simp
  | cons p _ ih =>
    rw [List.mem_append, not_or]
    refine ⟨?_, ih⟩
    rcases p with ⟨rfl, h1, _⟩ | ⟨c, rfl, h1, _⟩
    · simpa [delimiter] using Ne.symm h1
    · simpa [delimiter] using Ne.symm h1

/-- Each byte takes one or two raw bytes. -/
theorem rawOf_length {raw bytes : List Byte} (h : RawOf raw bytes) : bytes.length ≤ raw.length ∧ raw.length ≤ 2 * bytes.length := by
  induction h with
  | nil => simp
  | cons p _ ih =>
    rw [List.length_append, List.length_cons]
    rcases p with ⟨rfl, _⟩ | ⟨c, rfl, _⟩ <;> simp only [List.length_cons, List.length_nil] <;> omega

/-- A byte standing whole at `i` is read. -/
theorem unescAt_raw (pre post : List Byte) {raw : List Byte} {b : Byte} (h : ReadsAs raw b) :
    unescAt (pre ++ raw ++ post) pre.length = .value b (pre.length + raw.length) := by
  unfold unescAt
  rcases h with ⟨rfl, h1, h2⟩ | ⟨c, rfl, h1, rfl⟩
  · have h0 : (pre ++ [b] ++ post)[pre.length]? = some b := by simp
    rw [h0]
    simp [delimiter, escapeByte, h1, h2]
  · have h0 : (pre ++ [0x7D#8, c] ++ post)[pre.length]? = some 0x7D#8 := by simp
    have h3 : (pre ++ [0x7D#8, c] ++ post)[pre.length + 1]? = some c := by simp
    rw [h0, h3]
    simp [delimiter, escapeByte, h1]

/-- A part of a byte at the end of the window is not enough. -/
theorem unescAt_raw_take (pre : List Byte) {raw : List Byte} {b : Byte} (h : ReadsAs raw b) (k : Nat) (hk : k < raw.length) :
    unescAt (pre ++ raw.take k) pre.length = .notEnough := by
  have hk' : k = 0 ∨ k = 1 ∧ ∃ c, raw = [0x7D#8, c] := by
    rcases h with ⟨rfl, _⟩ | ⟨c, rfl, _⟩ <;> simp only [List.length_cons, List.length_nil] at hk
    · omega
    · exact (by omega : k = 0 ∨ k = 1).imp id fun e => ⟨e, c, rfl⟩
  rcases hk' with rfl | ⟨rfl, c, rfl⟩ <;> simp [unescAt, escapeByte, delimiter]

/-- A delimiter after a part of a byte is FOUND_START. -/
theorem unescAt_raw_start (pre post : List Byte) {raw : List Byte} {b : Byte} (h : ReadsAs raw b) (k : Nat)
    (hk : k < raw.length) : unescAt (pre ++ raw.take k ++ delimiter :: post) pre.length = .foundStart := by
  have hk' : k = 0 ∨ k = 1 ∧ ∃ c, raw = [0x7D#8, c] := by
    rcases h with ⟨rfl, _⟩ | ⟨c, rfl, _⟩ <;> simp only [List.length_cons, List.length_nil] at hk
    · omega
    · exact (by omega : k = 0 ∨ k = 1).imp id fun e => ⟨e, c, rfl⟩
  rcases hk' with rfl | ⟨rfl, c, rfl⟩ <;> simp [unescAt, escapeByte, delimiter]

/-! ### Step 5 (R167) -/

/-- Step 5 as a function of the raw bytes held. -/
def readBodyAt (w : List Byte) : Nat → Nat → Byte → BodyEnd
  | 0, i, sum => .done [] i sum
  | n + 1, i, sum =>
    match unescAt w i with
    | .value v next => consBody v (readBodyAt w n next (sum + v))
    | .foundStart => .foundStart
    | .notEnough => .notEnough

theorem State.readBody_eq (s : State) (n i : Nat) (sum : Byte) : s.readBody n i sum = readBodyAt s.window n i sum := by
  induction n generalizing i sum with
  | zero => rfl
  | succ n ih =>
    simp only [State.readBody, readBodyAt, State.unesc_eq]
    split <;> simp_all

theorem consBody_done {v : Byte} {x : BodyEnd} {bs : List Byte} {next : Nat} {sum : Byte}
    (h : consBody v x = .done bs next sum) : ∃ cs, x = .done cs next sum ∧ bs = v :: cs := by
  cases x with
  | done cs n' s' =>
    simp only [consBody] at h
    injection h with h1 h2 h3
    subst h1; subst h2; subst h3
    exact ⟨cs, rfl, rfl⟩
  | foundStart => cases h
  | notEnough => cases h

/-- A body read whole has the asked number of bytes, ends inside the window, and its sum is the sum of its bytes. -/
theorem readBodyAt_done {w : List Byte} {n i next : Nat} {sum sum' : Byte} {bs : List Byte}
    (h : readBodyAt w n i sum = .done bs next sum') (hi : i ≤ w.length) :
    bs.length = n ∧ i ≤ next ∧ next ≤ w.length ∧ sum' = sum + sum8 bs := by
  induction n generalizing i sum bs with
  | zero =>
    simp only [readBodyAt] at h
    injection h with h1 h2 h3
    subst h1; subst h2; subst h3
    exact ⟨rfl, le_refl _, hi, by simp [sum8]⟩
  | succ n ih =>
    simp only [readBodyAt] at h
    split at h
    · rename_i v next' hu
      obtain ⟨h1, h2⟩ := unescAt_value hu
      obtain ⟨cs, hx, rfl⟩ := consBody_done h
      obtain ⟨a, b, c, d⟩ := ih hx h2
      refine ⟨by simp [a], by omega, c, ?_⟩
      rw [d, sum8_cons, BitVec.add_assoc]
    · cases h
    · cases h

/-- Bytes standing whole at `i` are read, with their sum. -/
theorem readBodyAt_raw (pre post : List Byte) {raw bs : List Byte} (h : RawOf raw bs) (sum : Byte) :
    readBodyAt (pre ++ raw ++ post) bs.length pre.length sum = .done bs (pre.length + raw.length) (sum + sum8 bs) := by
  induction h generalizing pre sum with
  | nil => simp [readBodyAt, sum8]
  | @cons p rest bytes b hp _ ih =>
    have h1 : pre ++ (p ++ rest) ++ post = pre ++ p ++ (rest ++ post) := by simp
    have h2 : pre ++ (p ++ rest) ++ post = (pre ++ p) ++ rest ++ post := by simp
    simp only [List.length_cons, readBodyAt]
    rw [h1, unescAt_raw pre _ hp, ← h1, h2]
    simp only
    rw [← List.length_append, ih, consBody, sum8_cons, BitVec.add_assoc]
    simp [Nat.add_assoc]

/-- A part of the bytes at the end of the window is not enough. -/
theorem readBodyAt_raw_take (pre : List Byte) {raw bs : List Byte} (h : RawOf raw bs) (k : Nat) (sum : Byte)
    (hk : k < raw.length) : readBodyAt (pre ++ raw.take k) bs.length pre.length sum = .notEnough := by
  induction h generalizing pre sum k with
  | nil => simp at hk
  | @cons p rest bytes b hp _ ih =>
    simp only [List.length_cons, readBodyAt]
    by_cases hc : k < p.length
    · rw [List.take_append_of_le_length (by omega), unescAt_raw_take _ hp _ hc]
    · have hk' : k - p.length < rest.length := by
        simp only [List.length_append] at hk
        omega
      have e : pre ++ (p ++ rest).take k = (pre ++ p) ++ rest.take (k - p.length) := by
        rw [List.take_append, List.take_of_length_le (by omega), List.append_assoc]
      rw [e, unescAt_raw _ _ hp]
      simp only
      rw [← List.length_append, ih _ _ _ hk']
      rfl

/-- A delimiter after a part of the bytes is FOUND_START. -/
theorem readBodyAt_raw_start (pre post : List Byte) {raw bs : List Byte} (h : RawOf raw bs) (k : Nat) (sum : Byte)
    (hk : k < raw.length) : readBodyAt (pre ++ raw.take k ++ delimiter :: post) bs.length pre.length sum = .foundStart := by
  induction h generalizing pre sum k with
  | nil => simp at hk
  | @cons p rest bytes b hp _ ih =>
    simp only [List.length_cons, readBodyAt]
    by_cases hc : k < p.length
    · rw [List.take_append_of_le_length (by omega), unescAt_raw_start _ _ hp _ hc]
    · have hk' : k - p.length < rest.length := by
        simp only [List.length_append] at hk
        omega
      have e : pre ++ (p ++ rest).take k ++ delimiter :: post =
          (pre ++ p) ++ (rest.take (k - p.length) ++ delimiter :: post) := by
        rw [List.take_append, List.take_of_length_le (by omega)]
        simp
      rw [e, unescAt_raw _ _ hp]
      simp only
      rw [← List.length_append, ← List.append_assoc, ih _ _ _ hk']
      rfl

/-! ### One attempt and the outer loop (R160 to R173) -/

/-- The triage as a function of the raw bytes held. -/
def triageAt (cap : Nat) (w : List Byte) : Attempt :=
  if w.length = cap then .drop
  else if (List.range w.length).any (fun j => decide (1 ≤ j) && w[j]? == some delimiter) then .drop
  else .wait

/-- Steps 4 to 7 as a function of the raw bytes held. -/
def attemptBodyAt (cap : Nat) (w : List Byte) (outSize length i : Nat) : Attempt :=
  if length + 1 > outSize ∨ length + 4 > cap then .drop
  else
    match readBodyAt w (length + 1) i 0 with
    | .foundStart => .drop
    | .notEnough => triageAt cap w
    | .done bytes next sum => if validSum sum then .accept bytes next else .drop

/-- One attempt as a function of the raw bytes held. -/
def attemptAt (cap : Nat) (w : List Byte) (outSize : Nat) : Attempt :=
  if w[0]? ≠ some delimiter then .drop
  else
    match unescAt w 1 with
    | .value hi i =>
      match unescAt w i with
      | .value lo i => attemptBodyAt cap w outSize (beFold 16 [hi, lo]).toNat i
      | .foundStart => .drop
      | .notEnough => .drop
    | .foundStart => .drop
    | .notEnough => .drop

theorem State.triage_eq (s : State) : s.triage = triageAt s.params.ringCap s.window := by
  have : s.laterStart =
      (List.range s.window.length).any (fun j => decide (1 ≤ j) && s.window[j]? == some delimiter) := by
    unfold State.laterStart
    rw [State.window_length]
    apply Bool.eq_iff_iff.2
    simp only [List.any_eq_true, List.mem_range, Bool.and_eq_true, decide_eq_true_eq, beq_iff_eq]
    constructor
    · rintro ⟨j, hj, h1, h2⟩
      exact ⟨j, hj, h1, by rw [State.window_getElem?, if_pos hj, h2]⟩
    · rintro ⟨j, hj, h1, h2⟩
      rw [State.window_getElem?, if_pos hj] at h2
      exact ⟨j, hj, h1, by injection h2⟩
  unfold State.triage triageAt
  rw [this, State.window_length]

theorem State.attemptBody_eq (s : State) (outSize length i : Nat) :
    s.attemptBody outSize length i = attemptBodyAt s.params.ringCap s.window outSize length i := by
  unfold State.attemptBody attemptBodyAt
  rw [State.readBody_eq, State.triage_eq]
  all_goals rfl

/-- An attempt sees the parameters and the raw bytes held, and nothing else. -/
theorem State.attempt_eq (s : State) (outSize : Nat) (h : 0 < s.recvSize) :
    s.attempt outSize = attemptAt s.params.ringCap s.window outSize := by
  have h0 : s.ringByte 0 ≠ delimiter ↔ s.window[0]? ≠ some delimiter := by
    rw [State.window_getElem?, if_pos h]
    simp
  unfold State.attempt attemptAt
  simp only [h0, State.unesc_eq, State.attemptBody_eq]
  all_goals rfl

/-- What an accepted attempt has read: the length fits, the bytes are payload and checksum, they sum to 0xFF, and the raw bytes to commit
are held. -/
theorem attemptAt_accept {cap outSize raw : Nat} {w bytes : List Byte} (h : attemptAt cap w outSize = .accept bytes raw) :
    1 ≤ bytes.length ∧ bytes.length ≤ outSize ∧ bytes.length + 3 ≤ cap ∧ sum8 bytes = 0xFF ∧ raw ≤ w.length ∧ 3 ≤ raw := by
  unfold attemptAt at h
  split at h
  · cases h
  · split at h
    · rename_i hi i1 hu1
      obtain ⟨a1, b1⟩ := unescAt_value hu1
      split at h
      · rename_i lo i2 hu2
        obtain ⟨a2, b2⟩ := unescAt_value hu2
        unfold attemptBodyAt at h
        split at h
        · cases h
        · rename_i hc
          split at h
          · cases h
          · unfold triageAt at h
            split at h
            · cases h
            · split at h <;> cases h
          · rename_i bs next sum hb
            obtain ⟨c1, c2, c3, c4⟩ := readBodyAt_done hb b2
            split at h
            · rename_i hv
              injection h with h1 h2
              subst h1; subst h2
              simp only [validSum, beq_iff_eq] at hv
              refine ⟨by omega, by omega, by omega, ?_, c3, by omega⟩
              rw [← hv, c4]
              simp
            · cases h
      · cases h
      · cases h
    · cases h
    · cases h

/-- Everything the outer loop can do: it advances the head over some held bytes; and a frame it accepts has passed every check. -/
theorem decodeLoop_spec (outSize fuel : Nat) (s : State) :
    ∃ k ≤ s.recvSize, (decodeLoop outSize fuel s).1 = s.commit k ∨
      (k = 0 ∧ (decodeLoop outSize fuel s).1 = s) := by
  induction fuel generalizing s with
  | zero => exact ⟨0, by omega, .inr ⟨rfl, rfl⟩⟩
  | succ fuel ih =>
    simp only [decodeLoop]
    split
    · exact ⟨0, by omega, .inr ⟨rfl, rfl⟩⟩
    · rename_i h6
      simp only [Config.minDecode, Nat.not_lt] at h6
      split
      · obtain ⟨k, hk, h⟩ := ih s.drop1
        simp only [State.drop1_recvSize] at hk
        refine ⟨1 + k, by omega, .inl ?_⟩
        rcases h with h | ⟨rfl, h⟩
        · rw [h, State.drop1_eq_commit, State.commit_commit]
        · rw [h, State.drop1_eq_commit]
      · exact ⟨0, by omega, .inr ⟨rfl, rfl⟩⟩
      · rename_i bytes raw ha
        rw [State.attempt_eq s outSize (by omega)] at ha
        obtain ⟨_, _, _, _, h1, _⟩ := attemptAt_accept ha
        rw [State.window_length] at h1
        exact ⟨raw, h1, .inl rfl⟩

/-- A frame the outer loop accepts: at most `outSize` bytes, payload and checksum, summing to 0xFF. -/
theorem decodeLoop_accept {outSize fuel : Nat} {s : State} {bytes : List Byte}
    (h : (decodeLoop outSize fuel s).2 = some bytes) :
    1 ≤ bytes.length ∧ bytes.length ≤ outSize ∧ bytes.length + 3 ≤ s.params.ringCap ∧ sum8 bytes = 0xFF := by
  induction fuel generalizing s with
  | zero => simp [decodeLoop] at h
  | succ fuel ih =>
    simp only [decodeLoop] at h
    split at h
    · simp at h
    · rename_i h6
      simp only [Config.minDecode, Nat.not_lt] at h6
      split at h
      · simpa using ih h
      · simp at h
      · rename_i bs raw ha
        rw [State.attempt_eq s outSize (by omega)] at ha
        obtain ⟨a, b, c, d, _, _⟩ := attemptAt_accept ha
        simp only [Option.some.injEq] at h
        subst h
        exact ⟨a, b, c, d⟩

/-- The result and what is written to OUT, told apart: 0 and all of it free; or a frame. -/
theorem finishDecode_cases (outSize : Nat) (s : State) (frame : Option (List Byte)) :
    finishDecode outSize s frame = (s.freeOut outSize).ret 0 ∨
      ∃ bytes, frame = some bytes ∧ 2 ≤ bytes.length ∧
        finishDecode outSize s frame = ((s.freeOut outSize).writeOut 0 bytes).ret (bytes.length - 1 : Nat) := by
  cases frame with
  | none => exact .inl rfl
  | some bytes =>
    by_cases h : bytes.length ≤ 1
    · exact .inl (by simp [finishDecode, h])
    · exact .inr ⟨bytes, rfl, by omega, by simp [finishDecode, h]⟩

/-- Everything DECODE_FRAME can do, within its `out_size`: with fewer than 6 bytes nothing but the result 0; else the head advances over
held bytes, OUT below `out_size` is left free, and a frame, if one is returned, is written at OUT[0]. -/
theorem State.decodeFrame_cases (outSize : Nat) (s : State) :
    (s.recvSize < 6 ∧ s.decodeFrame outSize = s.ret 0) ∨
    (6 ≤ s.recvSize ∧ ∃ k u, k ≤ s.recvSize ∧ (u = s.commit k ∨ (k = 0 ∧ u = s)) ∧
      (s.decodeFrame outSize = (u.freeOut outSize).ret 0 ∨
       ∃ bytes, 2 ≤ bytes.length ∧ bytes.length ≤ outSize ∧ bytes.length + 3 ≤ s.params.ringCap ∧ sum8 bytes = 0xFF ∧
         s.decodeFrame outSize = ((u.freeOut outSize).writeOut 0 bytes).ret (bytes.length - 1 : Nat))) := by
  unfold State.decodeFrame
  by_cases h : s.recvSize < 6
  · exact .inl ⟨h, by rw [if_pos (by simpa [Config.minDecode] using h)]⟩
  · right
    rw [if_neg (by simpa [Config.minDecode] using h)]
    simp only
    obtain ⟨k, hk, hu⟩ := decodeLoop_spec outSize s.recvSize s
    refine ⟨by omega, k, _, hk, hu, ?_⟩
    rcases finishDecode_cases outSize (decodeLoop outSize s.recvSize s).1 (decodeLoop outSize s.recvSize s).2 with hf | hf
    · exact .inl hf
    · obtain ⟨bytes, h1, h2, h3⟩ := hf
      obtain ⟨_, b, c, d⟩ := decodeLoop_accept h1
      exact .inr ⟨bytes, h2, b, c, d, h3⟩

end Sys2Proof.Machine
end

