-- ==== Sys2Proof/Laws/PerInstr.lean ====
section
/-! SUPPORT. Statements about every instruction as syntax, one lemma for each constructor. -/

namespace Sys2Proof.Laws

/-- The first byte of a row's match word in spec/opcode_table.json. -/
def tableCode : Instr → Byte
  | .reset => 0x00
  | .sendFrame _ => 0x01
  | .fillBuffer => 0x10
  | .decodeFrame _ => 0x11
  | .recvFrame _ => 0x12
  | .parseFrame _ => 0x20
  | .atCommand .. => 0x30
  | .atQueueParameter .. => 0x31
  | .remoteAtCommandA64 .. | .remoteAtCommandA16 .. | .remoteAtCommandB64 .. | .remoteAtCommandB16 .. => 0x32
  | .transmitA64 .. | .transmitA16 .. | .transmitB64 .. | .transmitB16 .. => 0x33
  | .apiTxAtCommand .. => 0x08
  | .apiTxAtQueueParameter .. => 0x09
  | .apiTxRemoteAtCommand .. => 0x17
  | .apiTxTransmit64 .. => 0x00
  | .apiTxTransmit16 .. => 0x01
  | .apiRxModemStatus _ => 0x8A
  | .apiRxTransmitStatus _ => 0x89
  | .apiRxAtResponse _ => 0x88
  | .apiRxRemoteAtResponse _ => 0x97
  | .apiRxReceive64 _ => 0x80
  | .apiRxReceive16 _ => 0x81

/-- The last byte of the match word of a row in the "command_addr" format: the address tag, byte 2 of the command (R101). -/
def tableTag : Instr → Option Byte
  | .remoteAtCommandA64 .. | .transmitA64 .. => some 0x00
  | .remoteAtCommandA16 .. | .transmitA16 .. => some 0x01
  | .remoteAtCommandB64 .. | .transmitB64 .. => some 0x02
  | .remoteAtCommandB16 .. | .transmitB16 .. => some 0x03
  | _ => none

/-- The encoding carries the fixed bits of the instruction's row in the opcode table. -/
def Opcode.Statement (i : Instr) : Prop :=
  (encode i)[0]? = some (tableCode i) ∧ ∀ t, tableTag i = some t → (encode i)[2]? = some t

theorem Opcode.reset : Opcode.Statement .reset := by simp [Opcode.Statement, encode, tableCode, tableTag]
theorem Opcode.sendFrame (p : List Byte) : Opcode.Statement (.sendFrame p) := by
  simp [Opcode.Statement, encode, tableCode, tableTag]
theorem Opcode.fillBuffer : Opcode.Statement .fillBuffer := by simp [Opcode.Statement, encode, tableCode, tableTag]
theorem Opcode.decodeFrame (n : U32) : Opcode.Statement (.decodeFrame n) := by
  simp [Opcode.Statement, encode, tableCode, tableTag]
theorem Opcode.recvFrame (n : U32) : Opcode.Statement (.recvFrame n) := by
  simp [Opcode.Statement, encode, tableCode, tableTag]
theorem Opcode.parseFrame (n : U16) : Opcode.Statement (.parseFrame n) := by
  simp [Opcode.Statement, encode, tableCode, tableTag]
theorem Opcode.atCommand (f a0 a1 : Byte) (ps : List Byte) : Opcode.Statement (.atCommand f a0 a1 ps) := by
  simp [Opcode.Statement, encode, tableCode, tableTag]
theorem Opcode.atQueueParameter (f a0 a1 : Byte) (ps : List Byte) : Opcode.Statement (.atQueueParameter f a0 a1 ps) := by
  simp [Opcode.Statement, encode, tableCode, tableTag]
theorem Opcode.remoteAtCommandA64 (f : Byte) (a : U64) (o a0 a1 : Byte) (ps : List Byte) :
    Opcode.Statement (.remoteAtCommandA64 f a o a0 a1 ps) := by
  simp [Opcode.Statement, encode, tableCode, tableTag, putAddress]
theorem Opcode.remoteAtCommandA16 (f : Byte) (a : U16) (o a0 a1 : Byte) (ps : List Byte) :
    Opcode.Statement (.remoteAtCommandA16 f a o a0 a1 ps) := by
  simp [Opcode.Statement, encode, tableCode, tableTag, putAddress]
theorem Opcode.remoteAtCommandB64 (f o a0 a1 : Byte) (ps : List Byte) :
    Opcode.Statement (.remoteAtCommandB64 f o a0 a1 ps) := by
  simp [Opcode.Statement, encode, tableCode, tableTag, putAddress]
theorem Opcode.remoteAtCommandB16 (f o a0 a1 : Byte) (ps : List Byte) :
    Opcode.Statement (.remoteAtCommandB16 f o a0 a1 ps) := by
  simp [Opcode.Statement, encode, tableCode, tableTag, putAddress]
theorem Opcode.transmitA64 (f : Byte) (a : U64) (o : Byte) (d : List Byte) : Opcode.Statement (.transmitA64 f a o d) := by
  simp [Opcode.Statement, encode, tableCode, tableTag, putAddress]
theorem Opcode.transmitA16 (f : Byte) (a : U16) (o : Byte) (d : List Byte) : Opcode.Statement (.transmitA16 f a o d) := by
  simp [Opcode.Statement, encode, tableCode, tableTag, putAddress]
theorem Opcode.transmitB64 (f o : Byte) (d : List Byte) : Opcode.Statement (.transmitB64 f o d) := by
  simp [Opcode.Statement, encode, tableCode, tableTag, putAddress]
theorem Opcode.transmitB16 (f o : Byte) (d : List Byte) : Opcode.Statement (.transmitB16 f o d) := by
  simp [Opcode.Statement, encode, tableCode, tableTag, putAddress]
theorem Opcode.apiTxAtCommand (f a0 a1 : Byte) (ps : List Byte) : Opcode.Statement (.apiTxAtCommand f a0 a1 ps) := by
  simp [Opcode.Statement, encode, tableCode, tableTag]
theorem Opcode.apiTxAtQueueParameter (f a0 a1 : Byte) (ps : List Byte) :
    Opcode.Statement (.apiTxAtQueueParameter f a0 a1 ps) := by
  simp [Opcode.Statement, encode, tableCode, tableTag]
theorem Opcode.apiTxRemoteAtCommand (f : Byte) (a64 : U64) (a16 : U16) (o a0 a1 : Byte) (ps : List Byte) :
    Opcode.Statement (.apiTxRemoteAtCommand f a64 a16 o a0 a1 ps) := by
  simp [Opcode.Statement, encode, tableCode, tableTag]
theorem Opcode.apiTxTransmit64 (f : Byte) (a : U64) (o : Byte) (d : List Byte) :
    Opcode.Statement (.apiTxTransmit64 f a o d) := by
  simp [Opcode.Statement, encode, tableCode, tableTag]
theorem Opcode.apiTxTransmit16 (f : Byte) (a : U16) (o : Byte) (d : List Byte) :
    Opcode.Statement (.apiTxTransmit16 f a o d) := by
  simp [Opcode.Statement, encode, tableCode, tableTag]
theorem Opcode.apiRxModemStatus (b : List Byte) : Opcode.Statement (.apiRxModemStatus b) := by
  simp [Opcode.Statement, encode, tableCode, tableTag]
theorem Opcode.apiRxTransmitStatus (b : List Byte) : Opcode.Statement (.apiRxTransmitStatus b) := by
  simp [Opcode.Statement, encode, tableCode, tableTag]
theorem Opcode.apiRxAtResponse (b : List Byte) : Opcode.Statement (.apiRxAtResponse b) := by
  simp [Opcode.Statement, encode, tableCode, tableTag]
theorem Opcode.apiRxRemoteAtResponse (b : List Byte) : Opcode.Statement (.apiRxRemoteAtResponse b) := by
  simp [Opcode.Statement, encode, tableCode, tableTag]
theorem Opcode.apiRxReceive64 (b : List Byte) : Opcode.Statement (.apiRxReceive64 b) := by
  simp [Opcode.Statement, encode, tableCode, tableTag]
theorem Opcode.apiRxReceive16 (b : List Byte) : Opcode.Statement (.apiRxReceive16 b) := by
  simp [Opcode.Statement, encode, tableCode, tableTag]

end Sys2Proof.Laws
end

