-- ==== Sys2Proof/Laws/Refill.lean ====
section
/-! SUPPORT. What one read of the transport into the ring's free region does, R61, R140, R141. -/

namespace Sys2Proof.Machine

/-- A read at the free region's start, its bytes counted: they become the last bytes of the window, and no other offset of the ring
changes. -/
theorem State.rxRead_grow {s : State} (h : s.RingOk) {n : Nat} (hn : s.recvSize + n ≤ s.params.ringCap)
    (hc : s.physical s.recvSize + n ≤ s.params.ringCap) {t : State}
    (ht : t = (s.rxRead (s.physical s.recvSize) n).2.grow (s.readResult n).toNat) :
    t.RingOk ∧ t.window = s.window ++ s.rxPending.take (s.readResult n).toNat ∧
    (∀ a, (∀ j < (s.readResult n).toNat, a ≠ s.physical (s.recvSize + j)) → t.ring.get? a = s.ring.get? a) ∧
    t.rxPending = s.rxPending.drop (s.readResult n).toNat ∧ t.recvSize = s.recvSize + (s.readResult n).toNat ∧
    t.params = s.params ∧ t.recvIdx = s.recvIdx ∧ t.readAnswers = s.readTaken.readAnswers := by
  have hr := State.readResult_le s n
  generalize hR : (s.readResult n).toNat = r at *
  obtain ⟨h1, h2, h3, h4, h5⟩ := h
  have hlen : (s.rxPending.take r).length = r := by rw [List.length_take]; omega
  have e1 : t.params = s.params := by subst ht; simp only [State.rxRead, State.grow, State.readTaken]; split <;> rfl
  have e2 : t.recvIdx = s.recvIdx := by subst ht; simp only [State.rxRead, State.grow, State.readTaken]; split <;> rfl
  have e3 : t.recvSize = s.recvSize + r := by subst ht; simp only [State.rxRead, State.grow, State.readTaken]; split <;> rfl
  have e4 : t.ring = s.ring.putAll (s.physical s.recvSize) (s.rxPending.take r) := by
    subst ht; simp only [State.rxRead, State.grow, hR]
  have e5 : t.rxPending = s.rxPending.drop r := by subst ht; simp only [State.rxRead, State.grow, hR]
  have e6 : t.readAnswers = s.readTaken.readAnswers := by subst ht; rfl
  have hphys : ∀ j < n, s.physical (s.recvSize + j) = s.physical s.recvSize + j := by
    intro j hj
    unfold State.physical at *
    rw [← Nat.add_assoc, Nat.add_mod, Nat.mod_eq_of_lt (by omega : j < s.params.ringCap)]
    exact Nat.mod_eq_of_lt (by omega)
  have hfr : ∀ a, (∀ j < r, a ≠ s.physical (s.recvSize + j)) → t.ring.get? a = s.ring.get? a := by
    intro a ha
    rw [e4, Memory.get?_putAll, hlen, if_neg]
    rintro ⟨x, y⟩
    refine ha (a - s.physical s.recvSize) (by omega) ?_
    rw [hphys _ (by omega)]
    omega
  refine ⟨⟨by rw [e1]; exact h1, by rw [e1, e2]; exact h2, by rw [e3, e1]; omega, ?_, ?_⟩, ?_, hfr, e5, e3, e1, e2, e6⟩
  · rw [e4]; exact Memory.putAll_wf h4 _ _
  · rw [e4, e1]; exact Memory.putAll_within h5 (by rw [hlen]; omega)
  · apply List.ext_getElem?
    intro i
    have hp : t.physical i = s.physical i := by unfold State.physical; rw [e1, e2]
    rw [State.window_getElem?, e3, List.getElem?_append, State.window_length, State.window_getElem?]
    unfold State.ringByte
    rw [hp]
    by_cases hi : i < s.recvSize
    · rw [if_pos (by omega), if_pos hi, if_pos hi, hfr]
      intro j hj hh
      have := hphys j (by omega)
      unfold State.physical at hh this
      have q := Nat.mod_lt (s.recvIdx + i) h1
      rcases Nat.lt_or_ge (s.recvIdx + i) s.params.ringCap with c | c
      · rw [Nat.mod_eq_of_lt c] at hh
        rcases Nat.lt_or_ge (s.recvIdx + (s.recvSize + j)) s.params.ringCap with d | d
        · rw [Nat.mod_eq_of_lt d] at hh; omega
        · rw [Nat.mod_eq_sub_mod d, Nat.mod_eq_of_lt (by omega)] at hh; omega
      · rw [Nat.mod_eq_sub_mod c, Nat.mod_eq_of_lt (by omega)] at hh
        rw [Nat.mod_eq_sub_mod (by omega), Nat.mod_eq_of_lt (by omega)] at hh
        omega
    · rw [if_neg hi]
      by_cases hj : i < s.recvSize + r
      · rw [if_pos hj, e4, Memory.get?_putAll, hlen]
        have := hphys (i - s.recvSize) (by omega)
        rw [show s.recvSize + (i - s.recvSize) = i by omega] at this
        rw [if_pos (by omega), this, show s.physical s.recvSize + (i - s.recvSize) - s.physical s.recvSize = i - s.recvSize by omega]
        rw [List.getElem?_eq_getElem (by rw [hlen]; omega)]
        rfl
      · rw [if_neg hj, List.getElem?_eq_none (by rw [hlen]; omega)]

/-- A read that answers an error moves no byte. -/
theorem State.rxRead_error {s : State} {p n : Nat} (h : s.readResult n < 0) : (s.rxRead p n).2 = s.readTaken := by
  have hz : (s.readResult n).toNat = 0 := by omega
  have hr : s.readTaken.ring = s.ring ∧ s.readTaken.rxPending = s.rxPending := by
    unfold State.readTaken
    split <;> exact ⟨rfl, rfl⟩
  simp only [State.rxRead, hz, List.take_zero, List.drop_zero, Memory.putAll]
  rw [← hr.1, ← hr.2]

end Sys2Proof.Machine
end

