-- ==== Sys2Proof/Tests/Slice0.lean ====
section
/-! SUPPORT. The model's own tests: ill-formed terms, decoding of words written out from the spec, vectors of
spec/95_test_vectors.md (named in each comment), and a witness for the hypotheses of each obligation. -/

namespace Sys2Proof.Tests

open Sys2Proof.Machine

/-! ### Small states and what is looked at in an outcome -/

/-- A state with ring capacity `c` and OUT_CAP 256, as after RESET with empty lines (95, conventions). -/
def base (c : Nat) : State := State.initial { Params.standard with ringCap := c }

/-- A ring of capacity `c` whose head is at `start` and that holds `bs`. -/
def holding (c start : Nat) (bs : List Byte) : State :=
  { base c with
    recvIdx := start
    recvSize := bs.length
    ring := Memory.putAll (Memory.putAll [] start (bs.take (c - start))) 0 (bs.drop (c - start)) }

/-- A state whose OUT holds `bs` from index 0. -/
def withOut (bs : List Byte) : State := (base 16).writeOut 0 bs

/-- A state whose transport accepts `n` offered bytes and then gives the answers `as`. -/
def accepting (n : Nat) (as : List WriteAnswer) : State :=
  { base 16 with writeAnswers := List.replicate n .accept ++ as }

/-- `s` with bytes pending and read answers queued. -/
def pending (bs : List Byte) (as : List Int) (s : State) : State := { s with rxPending := bs, readAnswers := as }

/-- `s` with one event to come. -/
def facing (e : Event) (s : State) : State := { s with events := [e] }

/-- What `f` sees in a next state. -/
def sees {α : Type} (x : Host.Outcome State Fault Refusal) (f : State → α) : Option α :=
  match x with
  | .next t => some (f t)
  | _ => none

/-- The number the command returned, R103. -/
def code (t : State) : Option Int := t.response.map (fun r => statusCode t.params r.status)

/-- The refusal of an outcome. -/
def refusalOf (x : Host.Outcome State Fault Refusal) : Option Refusal :=
  match x with
  | .refused r => some r
  | _ => none

/-- The fault of an outcome. -/
def faultOf (x : Host.Outcome State Fault Refusal) : Option Fault :=
  match x with
  | .fault r => some r
  | _ => none

/-- The next state of an outcome that has one. -/
def after (x : Host.Outcome State Fault Refusal) : State :=
  match x with
  | .next t => t
  | _ => State.reset

/-- The bytes of `AT_COMMAND 0x01, "AP", []`'s payload (W-a). -/
def apPayload : List Byte := [0x08, 0x01, 0x41, 0x50]

/-- Its wire encoding (W-a as corrected, E-2). -/
def apWire : List Byte := [0x7E, 0x00, 0x04, 0x08, 0x01, 0x41, 0x50, 0x65]

/-- The address `A` of section 2.4. -/
def addrA : U64 := 0x0013A200400A0127

/-! ### WellFormed: an ill-formed term for each check -/

theorem test_wf_bytes16 (f o a0 a1 : Byte) (x : U64) (y : U16) (bs : List Byte) (h : bs.length = 65536) :
    (Instr.sendFrame bs).wellFormed = false ∧ (Instr.atCommand f a0 a1 bs).wellFormed = false ∧
    (Instr.atQueueParameter f a0 a1 bs).wellFormed = false ∧
    (Instr.remoteAtCommandA64 f x o a0 a1 bs).wellFormed = false ∧
    (Instr.remoteAtCommandA16 f y o a0 a1 bs).wellFormed = false ∧
    (Instr.remoteAtCommandB64 f o a0 a1 bs).wellFormed = false ∧
    (Instr.remoteAtCommandB16 f o a0 a1 bs).wellFormed = false ∧
    (Instr.transmitA64 f x o bs).wellFormed = false ∧ (Instr.transmitA16 f y o bs).wellFormed = false ∧
    (Instr.transmitB64 f o bs).wellFormed = false ∧ (Instr.transmitB16 f o bs).wellFormed = false := by
  simp [Instr.wellFormed, h]

theorem test_wf_bytes16_term : (Instr.sendFrame (List.replicate 65536 0x41)).wellFormed = false :=
  (test_wf_bytes16 0 0 0 0 0 0 _ List.length_replicate).1

theorem test_wf_payload4 (bs : List Byte) (h : bs.length = 65532) :
    (Instr.apiTxAtCommand 1 0x41 0x50 bs).wellFormed = false ∧
    (Instr.apiTxAtQueueParameter 1 0x41 0x50 bs).wellFormed = false := by
  simp [Instr.wellFormed, h]

theorem test_wf_payload15 (bs : List Byte) (h : bs.length = 65521) :
    (Instr.apiTxRemoteAtCommand 1 addrA 0xFFFE 2 0x44 0x37 bs).wellFormed = false := by
  simp [Instr.wellFormed, h]

theorem test_wf_payload11 (bs : List Byte) (h : bs.length = 65525) :
    (Instr.apiTxTransmit64 1 addrA 0 bs).wellFormed = false := by
  simp [Instr.wellFormed, h]

theorem test_wf_payload5 (bs : List Byte) (h : bs.length = 65531) :
    (Instr.apiTxTransmit16 1 0x1234 0 bs).wellFormed = false := by
  simp [Instr.wellFormed, h]

theorem test_wf_payload1 (body : List Byte) (h : body.length = 65535) :
    (Instr.apiRxModemStatus body).wellFormed = false ∧ (Instr.apiRxTransmitStatus body).wellFormed = false ∧
    (Instr.apiRxAtResponse body).wellFormed = false ∧ (Instr.apiRxRemoteAtResponse body).wellFormed = false ∧
    (Instr.apiRxReceive64 body).wellFormed = false ∧ (Instr.apiRxReceive16 body).wellFormed = false := by
  simp [Instr.wellFormed, h]

/-- The terms of the checks above: a byte string of any length exists. -/
theorem test_wf_terms (n : Nat) : ∃ bs : List Byte, bs.length = n := ⟨List.replicate n 0, List.length_replicate⟩

/-- At the bound the check passes: 65535 bytes, and a payload of exactly 65535. -/
theorem test_wf_bound (bs : List Byte) : (bs.length = 65535 → (Instr.sendFrame bs).wellFormed = true) ∧
    (bs.length = 65520 → (Instr.apiTxRemoteAtCommand 1 addrA 0xFFFE 2 0x44 0x37 bs).wellFormed = true) := by
  constructor <;> intro h <;> simp [Instr.wellFormed, h]

/-! ### Decoding: one word per constructor, written out from R100, R101, R90, R92 and the examples of 30_encoding.md and 95 -/

theorem test_decode_RESET : decodeCommand [0x00] = .ok .reset := by decide

/-- Program 5: `SEND_FRAME [7E]` is `01 00 01 7E`. -/
theorem test_decode_SEND_FRAME : decodeCommand [0x01, 0x00, 0x01, 0x7E] = .ok (.sendFrame [0x7E]) := by decide

theorem test_decode_FILL_BUFFER : decodeCommand [0x10] = .ok .fillBuffer := by decide

/-- Program 3: `DECODE_FRAME 256` is `11 00 00 01 00`. -/
theorem test_decode_DECODE_FRAME : decodeCommand [0x11, 0x00, 0x00, 0x01, 0x00] = .ok (.decodeFrame 256) := by decide

/-- Program 1: `RECV_FRAME 256`; and every byte of the u32 counts. -/
theorem test_decode_RECV_FRAME : decodeCommand [0x12, 0x00, 0x00, 0x01, 0x00] = .ok (.recvFrame 256) ∧
    decodeCommand [0x12, 0x01, 0x02, 0x03, 0x04] = .ok (.recvFrame 0x01020304) := by decide

/-- Program 1: `PARSE_FRAME 6` is `20 00 06`. -/
theorem test_decode_PARSE_FRAME : decodeCommand [0x20, 0x00, 0x06] = .ok (.parseFrame 6) := by decide

/-- Program 1: `AT_COMMAND 0x01, "AP", []` is `30 01 41 50 00 00`; B-2 has a parameter. -/
theorem test_decode_AT_COMMAND :
    decodeCommand [0x30, 0x01, 0x41, 0x50, 0x00, 0x00] = .ok (.atCommand 0x01 0x41 0x50 []) ∧
    decodeCommand [0x30, 0x02, 0x44, 0x37, 0x00, 0x01, 0x01] = .ok (.atCommand 0x02 0x44 0x37 [0x01]) := by decide

/-- B-6's command. -/
theorem test_decode_AT_QUEUE_PARAMETER :
    decodeCommand [0x31, 0x01, 0x41, 0x50, 0x00, 0x01, 0x02] = .ok (.atQueueParameter 0x01 0x41 0x50 [0x02]) := by decide

/-- B-7's command, the tag 00 and eight bytes. -/
theorem test_decode_REMOTE_A64 :
    decodeCommand [0x32, 0x01, 0x00, 0x00, 0x13, 0xA2, 0x00, 0x40, 0x0A, 0x01, 0x27, 0x02, 0x44, 0x37, 0x00, 0x01, 0x01]
      = .ok (.remoteAtCommandA64 0x01 addrA 0x02 0x44 0x37 [0x01]) := by decide

/-- B-8's command, the tag 01 and two bytes. -/
theorem test_decode_REMOTE_A16 : decodeCommand [0x32, 0x01, 0x01, 0x12, 0x34, 0x02, 0x44, 0x37, 0x00, 0x00]
      = .ok (.remoteAtCommandA16 0x01 0x1234 0x02 0x44 0x37 []) := by decide

/-- B-9's command, the tag 02. -/
theorem test_decode_REMOTE_B64 : decodeCommand [0x32, 0x01, 0x02, 0x00, 0x44, 0x36, 0x00, 0x00]
      = .ok (.remoteAtCommandB64 0x01 0x00 0x44 0x36 []) := by decide

/-- B-10's command, the tag 03. -/
theorem test_decode_REMOTE_B16 : decodeCommand [0x32, 0x01, 0x03, 0x00, 0x44, 0x36, 0x00, 0x00]
      = .ok (.remoteAtCommandB16 0x01 0x00 0x44 0x36 []) := by decide

/-- B-11's command. -/
theorem test_decode_TRANSMIT_A64 :
    decodeCommand [0x33, 0x01, 0x00, 0x00, 0x13, 0xA2, 0x00, 0x40, 0x0A, 0x01, 0x27, 0x00, 0x00, 0x02, 0x48, 0x69]
      = .ok (.transmitA64 0x01 addrA 0x00 [0x48, 0x69]) := by decide

/-- Program 4: `33 01 01 12 34 00 00 02 48 69`. -/
theorem test_decode_TRANSMIT_A16 : decodeCommand [0x33, 0x01, 0x01, 0x12, 0x34, 0x00, 0x00, 0x02, 0x48, 0x69]
      = .ok (.transmitA16 0x01 0x1234 0x00 [0x48, 0x69]) := by decide

/-- B-13's command. -/
theorem test_decode_TRANSMIT_B64 : decodeCommand [0x33, 0x01, 0x02, 0x00, 0x00, 0x02, 0x48, 0x69]
      = .ok (.transmitB64 0x01 0x00 [0x48, 0x69]) := by decide

/-- B-14's command. -/
theorem test_decode_TRANSMIT_B16 : decodeCommand [0x33, 0x01, 0x03, 0x00, 0x00, 0x02, 0x48, 0x69]
      = .ok (.transmitB16 0x01 0x00 [0x48, 0x69]) := by decide

/-- The outgoing payloads of B-1, B-6, B-7, B-11 and B-12. -/
theorem test_decode_outgoing :
    decodeOutgoing apPayload = .ok (.apiTxAtCommand 0x01 0x41 0x50 []) ∧
    decodeOutgoing [0x09, 0x01, 0x41, 0x50, 0x02] = .ok (.apiTxAtQueueParameter 0x01 0x41 0x50 [0x02]) ∧
    decodeOutgoing [0x17, 0x01, 0x00, 0x13, 0xA2, 0x00, 0x40, 0x0A, 0x01, 0x27, 0xFF, 0xFE, 0x02, 0x44, 0x37, 0x01]
      = .ok (.apiTxRemoteAtCommand 0x01 addrA 0xFFFE 0x02 0x44 0x37 [0x01]) ∧
    decodeOutgoing [0x00, 0x01, 0x00, 0x13, 0xA2, 0x00, 0x40, 0x0A, 0x01, 0x27, 0x00, 0x48, 0x69]
      = .ok (.apiTxTransmit64 0x01 addrA 0x00 [0x48, 0x69]) ∧
    decodeOutgoing [0x01, 0x01, 0x12, 0x34, 0x00, 0x48, 0x69] = .ok (.apiTxTransmit16 0x01 0x1234 0x00 [0x48, 0x69]) := by
  decide

/-- The incoming payloads of P-1, P-4, P-8, P-9, P-13 and P-17: a row is chosen by the id alone, whatever the length (R92). -/
theorem test_decode_incoming :
    decodeIncoming [0x8A, 0x00] = .ok (.apiRxModemStatus [0x00]) ∧
    decodeIncoming [0x89, 0x05, 0x00] = .ok (.apiRxTransmitStatus [0x05, 0x00]) ∧
    decodeIncoming [0x88, 0x01, 0x41, 0x50, 0x00] = .ok (.apiRxAtResponse [0x01, 0x41, 0x50, 0x00]) ∧
    decodeIncoming [0x97, 0x01] = .ok (.apiRxRemoteAtResponse [0x01]) ∧
    decodeIncoming [0x80, 0x00, 0x13] = .ok (.apiRxReceive64 [0x00, 0x13]) ∧
    decodeIncoming [0x81, 0x12, 0x34, 0x28] = .ok (.apiRxReceive16 [0x12, 0x34, 0x28]) := by decide

/-- R-3 to R-6, an API id on the command port, and ids on the wrong payload port. -/
theorem test_decode_rejects :
    decodeCommand [0x40] = .error (.reservedCode 0x40) ∧
    decodeCommand [0x32, 0x01, 0x04, 0x00] = .error (.reservedTag 0x04) ∧
    decodeCommand [0x01, 0x00, 0x03, 0x41, 0x42] = .error .tooShort ∧
    decodeCommand [0x10, 0x00] = .error .tooLong ∧
    decodeCommand [] = .error .empty ∧
    decodeCommand [0x08, 0x01, 0x41, 0x50] = .error (.reservedCode 0x08) ∧
    decodeOutgoing [0x8A, 0x00] = .error (.unknownApiId 0x8A) ∧
    decodeIncoming [0x08, 0x01, 0x41, 0x50] = .error (.unknownApiId 0x08) := by decide

/-- The table's own words: a code; a code and a tag around a wildcard byte; an outgoing and an incoming id. -/
theorem test_decode_table :
    decodeTableWord 8 0x10 = some .fillBuffer ∧
    decodeTableWord 24 0x320003 = some (.remoteAtCommandB16 0 0 0 0 []) ∧
    decodeTableWord 24 0x330001 = some (.transmitA16 0 0 0 []) ∧
    decodeTableWord 8 0x17 = some (.apiTxRemoteAtCommand 0 0 0 0 0 0 []) ∧
    decodeTableWord 8 0x89 = some (.apiRxTransmitStatus [0, 0]) := by decide

/-! ### Vectors of 95_test_vectors.md, one step each -/

/-- E-W7: accept all. -/
theorem test_SEND_FRAME_all :
    sees (exec (.sendFrame apPayload) (accepting 8 [])) (fun t => (code t, t.txLine)) = some (some 0, apWire) := by decide

/-- E-W5: the second byte of the escaped checksum is refused. -/
theorem test_SEND_FRAME_checksum :
    sees (exec (.sendFrame [0x81]) (accepting 5 [.refuse])) (fun t => (code t, t.txLine))
      = some (some (-14), [0x7E, 0x00, 0x01, 0x81, 0x7D]) := by decide

/-- E-5 and E-15: wires with escapes in the payload. -/
theorem test_wire_escapes : wireOf [0x7D, 0x11, 0x13] = [0x7E, 0x00, 0x03, 0x7D, 0x5D, 0x7D, 0x31, 0x7D, 0x33, 0x5E] ∧
    wireOf [0x7D, 0x5E] = [0x7E, 0x00, 0x02, 0x7D, 0x5D, 0x5E, 0x24] := by decide

/-- B-2. -/
theorem test_AT_COMMAND : sees (exec (.atCommand 0x02 0x44 0x37 [0x01]) (accepting 9 [])) (fun t => (code t, t.txLine))
    = some (some 0, [0x7E, 0x00, 0x05, 0x08, 0x02, 0x44, 0x37, 0x01, 0x79]) := by decide

/-- B-6. -/
theorem test_AT_QUEUE_PARAMETER :
    sees (exec (.atQueueParameter 0x01 0x41 0x50 [0x02]) (accepting 9 [])) (fun t => (code t, t.txLine))
      = some (some 0, [0x7E, 0x00, 0x05, 0x09, 0x01, 0x41, 0x50, 0x02, 0x62]) := by decide

/-- B-7. -/
theorem test_REMOTE_A64 :
    sees (exec (.remoteAtCommandA64 0x01 addrA 0x02 0x44 0x37 [0x01]) (accepting 21 [])) (fun t => (code t, t.txLine))
      = some (some 0, [0x7E, 0x00, 0x10, 0x17, 0x01, 0x00, 0x7D, 0x33, 0xA2, 0x00, 0x40, 0x0A, 0x01, 0x27, 0xFF, 0xFE, 0x02,
          0x44, 0x37, 0x01, 0x45]) := by decide

/-- B-8. -/
theorem test_REMOTE_A16 :
    sees (exec (.remoteAtCommandA16 0x01 0x1234 0x02 0x44 0x37 []) (accepting 19 [])) (fun t => (code t, t.txLine))
      = some (some 0, [0x7E, 0x00, 0x0F, 0x17, 0x01, 0x00, 0x00, 0x00, 0x00, 0x00, 0x00, 0xFF, 0xFE, 0x12, 0x34, 0x02, 0x44,
          0x37, 0x27]) := by decide

/-- B-9. -/
theorem test_REMOTE_B64 :
    sees (exec (.remoteAtCommandB64 0x01 0x00 0x44 0x36 []) (accepting 19 [])) (fun t => (code t, t.txLine))
      = some (some 0, [0x7E, 0x00, 0x0F, 0x17, 0x01, 0x00, 0x00, 0x00, 0x00, 0x00, 0x00, 0xFF, 0xFF, 0xFF, 0xFE, 0x00, 0x44,
          0x36, 0x72]) := by decide

/-- B-10. -/
theorem test_REMOTE_B16 :
    sees (exec (.remoteAtCommandB16 0x01 0x00 0x44 0x36 []) (accepting 19 [])) (fun t => (code t, t.txLine))
      = some (some 0, [0x7E, 0x00, 0x0F, 0x17, 0x01, 0x00, 0x00, 0x00, 0x00, 0x00, 0x00, 0xFF, 0xFE, 0xFF, 0xFF, 0x00, 0x44,
          0x36, 0x72]) := by decide

/-- B-11. -/
theorem test_TRANSMIT_A64 :
    sees (exec (.transmitA64 0x01 addrA 0x00 [0x48, 0x69]) (accepting 18 [])) (fun t => (code t, t.txLine))
      = some (some 0, [0x7E, 0x00, 0x0D, 0x00, 0x01, 0x00, 0x7D, 0x33, 0xA2, 0x00, 0x40, 0x0A, 0x01, 0x27, 0x00, 0x48, 0x69,
          0x26]) := by decide

/-- B-15: both address bytes escaped. -/
theorem test_TRANSMIT_A16 :
    sees (exec (.transmitA16 0x00 0x7D11 0x00 []) (accepting 11 [])) (fun t => (code t, t.txLine))
      = some (some 0, [0x7E, 0x00, 0x05, 0x01, 0x00, 0x7D, 0x5D, 0x7D, 0x31, 0x00, 0x70]) := by decide

/-- B-13. -/
theorem test_TRANSMIT_B64 :
    sees (exec (.transmitB64 0x01 0x00 [0x48, 0x69]) (accepting 17 [])) (fun t => (code t, t.txLine))
      = some (some 0, [0x7E, 0x00, 0x0D, 0x00, 0x01, 0x00, 0x00, 0x00, 0x00, 0x00, 0x00, 0xFF, 0xFF, 0x00, 0x48, 0x69, 0x4F]) := by
  decide

/-- B-14. -/
theorem test_TRANSMIT_B16 :
    sees (exec (.transmitB16 0x01 0x00 [0x48, 0x69]) (accepting 11 [])) (fun t => (code t, t.txLine))
      = some (some 0, [0x7E, 0x00, 0x07, 0x01, 0x01, 0xFF, 0xFF, 0x00, 0x48, 0x69, 0x4E]) := by decide

/-- W-a through the encoder's own port (log 10). -/
theorem test_API_TX :
    sees (step (facing (.outgoing apPayload) (accepting 8 []))) (fun t => (code t, t.txLine)) = some (some 0, apWire) := by
  decide

/-- F-5: end 14, phase 1 `(14,2)`, phase 2 `(0,4)`. -/
theorem test_FILL_two_phases :
    sees (exec .fillBuffer (pending [0xA0, 0xA1, 0xA2, 0xA3, 0xA4, 0xA5] [2, 4] (holding 16 4 (List.replicate 10 0x41))))
      (fun t => (code t, t.recvIdx, t.recvSize, t.window)) =
      some (some 6, 4, 16, List.replicate 10 0x41 ++ [0xA0, 0xA1, 0xA2, 0xA3, 0xA4, 0xA5]) := by decide

/-- F-11: phase 2 fails and phase 1's bytes stay counted. F-12: an answer of 17 to 16. -/
theorem test_FILL_errors :
    sees (exec .fillBuffer (pending [1, 2, 3, 4, 5] [4, -5] (holding 16 12 []))) (fun t => (code t, t.recvSize, t.rxPending))
      = some (some (-5), 4, [5]) ∧
    faultOf (exec .fillBuffer (pending (List.replicate 17 0) [17] (base 16))) = some .transportOverRead := by decide

/-- D-9: FOUND_START on `7D 7E`, then four drops. -/
theorem test_DECODE_resync :
    sees (exec (.decodeFrame 256) (holding 16 0 [0x7E, 0x00, 0x02, 0x8A, 0x7D, 0x7E, 0x00, 0x02, 0x8A, 0x00, 0x75]))
      (fun t => (code t, t.recvIdx, t.recvSize, t.outBytes 3)) = some (some 2, 11, 0, [0x8A, 0x00, 0x75]) := by decide

/-- W-e, D-22: a frame that wraps the ring. D-15: `7D 20` reads as `00` (D10). -/
theorem test_DECODE_frames :
    sees (exec (.decodeFrame 256) (holding 16 12 [0x7E, 0x00, 0x05, 0x88, 0x01, 0x41, 0x50, 0x00, 0xE5]))
      (fun t => (code t, t.recvIdx, t.recvSize, t.outBytes 6)) = some (some 5, 5, 0, [0x88, 0x01, 0x41, 0x50, 0x00, 0xE5]) ∧
    sees (exec (.decodeFrame 256) (holding 16 0 [0x7E, 0x00, 0x02, 0x8A, 0x7D, 0x20, 0x75]))
      (fun t => (code t, t.recvIdx, t.recvSize, t.outBytes 3)) = some (some 2, 7, 0, [0x8A, 0x00, 0x75]) := by
  decide

/-- D-R1. -/
theorem test_RECV : sees (exec (.recvFrame 256) (pending [0x7E, 0x00, 0x02, 0x8A, 0x00, 0x75] [6] (base 16)))
    (fun t => (code t, t.recvIdx, t.recvSize, t.outBytes 3)) = some (some 2, 6, 0, [0x8A, 0x00, 0x75]) := by decide

/-- D-R2: no decode after a failed fill. -/
theorem test_RECV_error : sees (exec (.recvFrame 256) (pending [1] [-5] (holding 16 0 [0x7E, 0x00, 0x02, 0x8A, 0x00, 0x75])))
    (fun t => (code t, t.recvIdx, t.window)) = some (some (-5), 0, [0x7E, 0x00, 0x02, 0x8A, 0x00, 0x75]) := by decide

/-- P-7. -/
theorem test_PARSE_at : sees (exec (.parseFrame 6) (withOut [0x88, 0x01, 0x41, 0x50, 0x00, 0x02])) (·.response)
    = some (some ⟨.value 0, some (.atResponse 0x01 0x41 0x50 0x00 ⟨5, 1⟩)⟩) := by decide

/-- P-10. -/
theorem test_PARSE_remote :
    sees (exec (.parseFrame 16)
      (withOut [0x97, 0x01, 0x00, 0x13, 0xA2, 0x00, 0x40, 0x0A, 0x01, 0x27, 0xFF, 0xFE, 0x44, 0x37, 0x00, 0x01])) (·.response)
      = some (some ⟨.value 0, some (.remoteAtResponse 0x01 addrA 0xFFFE 0x44 0x37 0x00 ⟨15, 1⟩)⟩) := by decide

/-- P-1 and P-3. -/
theorem test_RX_ModemStatus :
    sees (exec (.apiRxModemStatus [0x00]) (base 16)) (·.response) = some (some ⟨.value 0, some (.modemStatus 0x00)⟩) ∧
    sees (exec (.apiRxModemStatus [0x00, 0x00]) (base 16)) code = some (some (-15)) := by decide

/-- P-4 and P-6. -/
theorem test_RX_TransmitStatus :
    sees (exec (.apiRxTransmitStatus [0x05, 0x00]) (base 16)) (·.response)
      = some (some ⟨.value 0, some (.transmitStatus 0x05 0x00)⟩) ∧
    sees (exec (.apiRxTransmitStatus [0x05, 0x00, 0x00]) (base 16)) code = some (some (-15)) := by decide

/-- P-8 and P-9. -/
theorem test_RX_AtResponse :
    sees (exec (.apiRxAtResponse [0x01, 0x41, 0x50, 0x00]) (base 16)) (·.response)
      = some (some ⟨.value 0, some (.atResponse 0x01 0x41 0x50 0x00 ⟨5, 0⟩)⟩) ∧
    sees (exec (.apiRxAtResponse [0x01, 0x41, 0x50]) (base 16)) code = some (some (-15)) := by decide

/-- P-11 and P-12. -/
theorem test_RX_RemoteAtResponse :
    sees (exec (.apiRxRemoteAtResponse [0x01, 0x00, 0x13, 0xA2, 0x00, 0x40, 0x0A, 0x01, 0x27, 0xFF, 0xFE, 0x44, 0x37, 0x00])
      (base 16)) (·.response) = some (some ⟨.value 0, some (.remoteAtResponse 0x01 addrA 0xFFFE 0x44 0x37 0x00 ⟨15, 0⟩)⟩) ∧
    sees (exec (.apiRxRemoteAtResponse [0x01, 0x00, 0x13, 0xA2, 0x00, 0x40, 0x0A, 0x01, 0x27, 0xFF, 0xFE, 0x44, 0x37])
      (base 16)) code = some (some (-15)) := by decide

/-- P-14: all eight bytes, big-endian (C5). -/
theorem test_RX_Receive64 :
    sees (exec (.apiRxReceive64 [0xFF, 0xFF, 0xFF, 0xFF, 0xFF, 0xFF, 0xFF, 0xFE, 0x00, 0x00]) (base 16)) (·.response)
      = some (some ⟨.value 0, some (.receive64 0xFFFFFFFFFFFFFFFE 0x00 0x00 ⟨11, 0⟩)⟩) := by decide

/-- P-16 (W-f) and P-17. -/
theorem test_RX_Receive16 :
    sees (exec (.apiRxReceive16 [0x12, 0x34, 0x28, 0x00, 0xDE, 0xAD, 0xBE, 0xEF]) (base 16)) (·.response)
      = some (some ⟨.value 0, some (.receive16 0x1234 0x28 0x00 ⟨5, 4⟩)⟩) ∧
    sees (exec (.apiRxReceive16 [0x12, 0x34, 0x28]) (base 16)) code = some (some (-15)) := by decide

/-- R-1. -/
theorem test_RESET : sees (exec .reset (holding 16 5 [1, 2, 3])) (fun t => (code t, t.recvIdx, t.recvSize))
    = some (some 0, 0, 0) := by decide

/-- D-24, P-21, R-3 and construction with `C = 0` (92 D3). -/
theorem test_refusals :
    refusalOf (exec (.decodeFrame 65536) (base 16)) = some .outSizeTooLarge ∧
    refusalOf (exec (.parseFrame 257) (base 16)) = some .sizeTooLarge ∧
    refusalOf (step (facing (.command [0x40]) (base 16))) = some (.reservedEncoding (.reservedCode 0x40)) ∧
    refusalOf (construct { Params.standard with ringCap := 0 }) = some .zeroCapacity := by decide

/-! ### Witnesses: states and operands that meet the hypotheses of each obligation, clause by clause -/

/-- An outcome in which something is seen is its next state. -/
theorem next_after {x : Host.Outcome State Fault Refusal} (h : sees x (fun _ => ()) = some ()) : x = .next (after x) := by
  cases x with
  | next t => rfl
  | fault r => simp [sees] at h
  | refused r => simp [sees] at h

theorem accepting_accepts (n : Nat) (as : List WriteAnswer) : (accepting n as).Accepts n := by
  intro k hk
  simp [State.writeAnswer, accepting, List.getElem?_append, hk]

theorem accepting_answer (n : Nat) (a : WriteAnswer) (as : List WriteAnswer) : (accepting n (a :: as)).writeAnswer n = a := by
  simp [State.writeAnswer, accepting]

/-- The hypotheses of the clauses of `EmitsFrame` on a payload of `n` wire bytes: every byte accepted; the first and the last refused;
the last answered with more than was offered. -/
def EmitsMet (payload : List Byte) (n : Nat) : Prop :=
  payload.length ≤ 65535 ∧ (wireOf payload).length = n ∧ (accepting n []).Accepts n ∧
  0 < n ∧ (accepting 0 [.refuse]).Accepts 0 ∧ (accepting 0 [.refuse]).writeAnswer 0 = .refuse ∧
  (accepting (n - 1) [.refuse]).Accepts (n - 1) ∧ (accepting (n - 1) [.refuse]).writeAnswer (n - 1) = .refuse ∧
  (accepting (n - 1) [.over]).Accepts (n - 1) ∧ (accepting (n - 1) [.over]).writeAnswer (n - 1) = .over

theorem emits_met {payload : List Byte} {n : Nat} (h1 : payload.length ≤ 65535) (h2 : (wireOf payload).length = n) (h3 : 0 < n) :
    EmitsMet payload n :=
  ⟨h1, h2, accepting_accepts _ _, h3, accepting_accepts _ _, accepting_answer _ _ _, accepting_accepts _ _,
   accepting_answer _ _ _, accepting_accepts _ _, accepting_answer _ _ _⟩

/-- A payload of over 65535 bytes: `p` and `n` more. -/
theorem too_long (p : List Byte) (n : Nat) (h : 65535 < p.length + n) : 65535 < (p ++ List.replicate n 0).length := by
  rw [List.length_append, List.length_replicate]
  exact h

theorem witness_StepRunsDecodedCommand :
    (facing (.command [0x10]) (base 16)).events = .command [0x10] :: [] ∧ decodeCommand [0x10] = .ok .fillBuffer := by decide

/-- A row on each port; a payload that is no row on each, and a size one above OUT_CAP; ids next to the tables' and on the wrong port;
payloads one byte short of each row. -/
theorem witness_StepRunsDecodedPayload :
    (facing (.outgoing apPayload) (base 16)).events = .outgoing apPayload :: [] ∧
    decodeOutgoing apPayload = .ok (.apiTxAtCommand 0x01 0x41 0x50 []) ∧
    (facing (.incoming 2) (withOut [0x8A, 0x00])).events = .incoming 2 :: [] ∧
    (2 : U16).toNat ≤ (facing (.incoming 2) (withOut [0x8A, 0x00])).params.outCap ∧
    decodeIncoming ((facing (.incoming 2) (withOut [0x8A, 0x00])).outBytes (2 : U16).toNat)
      = .ok (.apiRxModemStatus [0x00]) ∧
    (facing (.outgoing [0x8A, 0x00]) (base 16)).events = .outgoing [0x8A, 0x00] :: [] ∧
    decodeOutgoing [0x8A, 0x00] = .error (.unknownApiId 0x8A) ∧
    decodeIncoming ((facing (.incoming 1) (withOut [0x82])).outBytes (1 : U16).toNat) = .error (.unknownApiId 0x82) ∧
    decodeIncoming ((facing (.incoming 0) (base 16)).outBytes (0 : U16).toNat) = .error .empty ∧
    (facing (.incoming 257) (base 16)).params.outCap < (257 : U16).toNat ∧
    0x02#8 ∉ [0x08#8, 0x09#8, 0x17#8, 0x00#8, 0x01#8] ∧ 0x8A#8 ∉ [0x08#8, 0x09#8, 0x17#8, 0x00#8, 0x01#8] ∧
    [0x01#8, 0x41#8].length + 1 < 4 ∧ (List.replicate 13 0x00#8).length + 1 < 15 ∧ (List.replicate 9 0x00#8).length + 1 < 11 ∧
    [0x01#8, 0x12#8, 0x34#8].length + 1 < 5 ∧
    0x82#8 ∉ [0x8A#8, 0x89#8, 0x88#8, 0x97#8, 0x80#8, 0x81#8] ∧ 0x08#8 ∉ [0x8A#8, 0x89#8, 0x88#8, 0x97#8, 0x80#8, 0x81#8] := by
  decide

/-- The last index that fits, and the first that does not. -/
theorem witness_HostAndLineMoves :
    (base 16).events = [] ∧
    (facing (.line [1]) (base 16)).events = .line [1] :: [] ∧
    (facing (.hostWrite 254 [1, 2]) (base 16)).events = .hostWrite 254 [1, 2] :: [] ∧
    254 + ([1, 2] : List Byte).length ≤ (facing (.hostWrite 254 [1, 2]) (base 16)).params.outCap ∧
    (facing (.hostWrite 255 [1, 2]) (base 16)).events = .hostWrite 255 [1, 2] :: [] ∧
    (facing (.hostWrite 255 [1, 2]) (base 16)).params.outCap < 255 + ([1, 2] : List Byte).length ∧
    ([1, 2] : List Byte) ≠ [] := by decide

theorem witness_BlockIdleInOthersSteps :
    (facing (.line [1]) (base 16)).events = .line [1] :: [] ∧ Agent.block ∉ (Event.line [1]).agents ∧
    step (facing (.line [1]) (base 16)) = .next (after (step (facing (.line [1]) (base 16)))) ∧
    Agent.block ∉ (Event.hostWrite 0 [1]).agents ∧
    step (facing (.hostWrite 0 [1]) (base 16)) = .next (after (step (facing (.hostWrite 0 [1]) (base 16)))) :=
  ⟨by decide, by decide, next_after (by decide), by decide, next_after (by decide)⟩

/-- Codes and tags next to the ones of the tables; sizes one above OUT_CAP; byte strings one byte too long. -/
theorem witness_ReservedCommandsRefused :
    (facing (.command [0x40]) (base 16)).events = .command [0x40] :: [] ∧
    decodeCommand [0x40] = .error (.reservedCode 0x40) ∧
    0x02#8 ∉ [0x00#8, 0x01#8, 0x10#8, 0x11#8, 0x12#8, 0x20#8, 0x30#8, 0x31#8, 0x32#8, 0x33#8] ∧
    0x34#8 ∉ [0x00#8, 0x01#8, 0x10#8, 0x11#8, 0x12#8, 0x20#8, 0x30#8, 0x31#8, 0x32#8, 0x33#8] ∧
    0x04#8 ∉ [0x00#8, 0x01#8, 0x02#8, 0x03#8] ∧
    decodeCommand [0x10] = .ok .fillBuffer ∧
    (base 16).params.outCap < (257 : U32).toNat ∧ (base 16).params.outCap < (257 : U16).toNat ∧
    (∃ bs : List Byte, 65535 < bs.length) ∧ (∃ bs : List Byte, 65535 < 4 + bs.length) ∧ (∃ bs : List Byte, 65535 < 15 + bs.length) ∧
    (∃ bs : List Byte, 65535 < 11 + bs.length) ∧ (∃ bs : List Byte, 65535 < 5 + bs.length) := by
  have long : ∀ n : Nat, ∃ bs : List Byte, bs.length = n := test_wf_terms
  refine ⟨by decide, by decide, by decide, by decide, by decide, by decide, by decide, by decide, ?_, ?_, ?_, ?_, ?_⟩
  · exact (long 65536).imp fun bs h => by omega
  · exact (long 65532).imp fun bs h => by omega
  · exact (long 65521).imp fun bs h => by omega
  · exact (long 65525).imp fun bs h => by omega
  · exact (long 65531).imp fun bs h => by omega

theorem witness_DecodeOfEncodeIsTheInstruction :
    (Instr.transmitA16 0x01 0x1234 0x00 [0x48, 0x69]).wellFormed = true ∧ (Instr.apiRxReceive16 []).wellFormed = true := by decide

theorem witness_DecodedBytesAreTheEncoding :
    decode .command [0x20, 0x00, 0x06] = .ok (.parseFrame 6) ∧
    decode .outgoing apPayload = .ok (.apiTxAtCommand 0x01 0x41 0x50 []) ∧
    decode .incoming [0x80] = .ok (.apiRxReceive64 []) := by decide

/-- E-3: the tail of `7E 00 01 7D 5E 81` has its escape byte at 2. -/
theorem witness_EncodedFrameHasOneDelimiter : (wireOf [0x7E]).tail[2]? = some 0x7D#8 := by decide

theorem witness_EncoderOffersTheWire : 5 < (wireOf [0x7E]).length := by decide

theorem witness_SendFrameResult :
    EmitsMet apPayload 8 ∧ EmitsMet [] 4 ∧ 65535 < (([] : List Byte) ++ List.replicate 65536 0).length :=
  ⟨emits_met (by decide) (by decide) (by decide), emits_met (by decide) (by decide) (by decide), too_long _ _ (by decide)⟩

theorem witness_AtCommandsSendTheirPayload :
    EmitsMet ([0x08, 0x01, 0x41, 0x50] ++ []) 8 ∧ EmitsMet ([0x09, 0x01, 0x41, 0x50] ++ [0x02]) 9 ∧
    65535 < ([0x08, 0x01, 0x41, 0x50] ++ List.replicate 65532 (0 : Byte)).length ∧
    65535 < ([0x09, 0x01, 0x41, 0x50] ++ List.replicate 65532 (0 : Byte)).length :=
  ⟨emits_met (by decide) (by decide) (by decide), emits_met (by decide) (by decide) (by decide),
   too_long _ _ (by decide), too_long _ _ (by decide)⟩

theorem witness_RemoteAtCommandsSendTheirPayload :
    EmitsMet ([0x17, 0x01] ++ be64 addrA ++ [0xFF, 0xFE] ++ [0x02, 0x44, 0x37] ++ [0x01]) 21 ∧
    EmitsMet ([0x17, 0x01] ++ [0x00, 0x00, 0x00, 0x00, 0x00, 0x00, 0xFF, 0xFE] ++ be16 0x1234 ++ [0x02, 0x44, 0x37] ++ []) 19 ∧
    EmitsMet ([0x17, 0x01] ++ [0x00, 0x00, 0x00, 0x00, 0x00, 0x00, 0xFF, 0xFF] ++ [0xFF, 0xFE] ++ [0x00, 0x44, 0x36] ++ []) 19 ∧
    EmitsMet ([0x17, 0x01] ++ [0x00, 0x00, 0x00, 0x00, 0x00, 0x00, 0xFF, 0xFE] ++ [0xFF, 0xFF] ++ [0x00, 0x44, 0x36] ++ []) 19 ∧
    65535 < (([0x17, 0x01] ++ be64 addrA ++ [0xFF, 0xFE] ++ [0x02, 0x44, 0x37]) ++ List.replicate 65521 (0 : Byte)).length :=
  ⟨emits_met (by decide) (by decide) (by decide), emits_met (by decide) (by decide) (by decide),
   emits_met (by decide) (by decide) (by decide), emits_met (by decide) (by decide) (by decide), too_long _ _ (by decide)⟩

theorem witness_TransmitsSendTheirPayload :
    EmitsMet ([0x00, 0x01] ++ be64 addrA ++ [0x00] ++ [0x48, 0x69]) 18 ∧
    EmitsMet ([0x00, 0x01] ++ [0x00, 0x00, 0x00, 0x00, 0x00, 0x00, 0xFF, 0xFF] ++ [0x00] ++ [0x48, 0x69]) 17 ∧
    EmitsMet ([0x01, 0x01] ++ be16 0x1234 ++ [0x00] ++ [0x48, 0x69]) 11 ∧
    EmitsMet ([0x01, 0x01] ++ [0xFF, 0xFF] ++ [0x00] ++ [0x48, 0x69]) 11 ∧
    65535 < (([0x01, 0x01] ++ be16 0x1234 ++ [0x00]) ++ List.replicate 65531 (0 : Byte)).length :=
  ⟨emits_met (by decide) (by decide) (by decide), emits_met (by decide) (by decide) (by decide),
   emits_met (by decide) (by decide) (by decide), emits_met (by decide) (by decide) (by decide), too_long _ _ (by decide)⟩

theorem witness_OutgoingPayloadsAreSent :
    EmitsMet ([0x08, 0x01, 0x41, 0x50] ++ []) 8 ∧
    EmitsMet ([0x09, 0x01, 0x41, 0x50] ++ [0x02]) 9 ∧
    EmitsMet ([0x17, 0x01] ++ be64 addrA ++ be16 0xFFFE ++ [0x02, 0x44, 0x37] ++ [0x01]) 21 ∧
    EmitsMet ([0x00, 0x01] ++ be64 addrA ++ [0x00] ++ [0x48, 0x69]) 18 ∧
    EmitsMet ([0x01, 0x01] ++ be16 0x1234 ++ [0x00] ++ [0x48, 0x69]) 11 ∧
    65535 < ([0x08, 0x01, 0x41, 0x50] ++ List.replicate 65532 (0 : Byte)).length :=
  ⟨emits_met (by decide) (by decide) (by decide), emits_met (by decide) (by decide) (by decide),
   emits_met (by decide) (by decide) (by decide), emits_met (by decide) (by decide) (by decide),
   emits_met (by decide) (by decide) (by decide), too_long _ _ (by decide)⟩

/-- F-3, a refill of two phases. -/
theorem witness_FillAppendsInArrivalOrder :
    (pending [1, 2, 3, 4, 5] [4, 5] (holding 16 12 [])).RingOk ∧ (pending [1, 2, 3, 4, 5] [4, 5] (holding 16 12 [])).ReadsKept := by
  decide

/-- F-8; F-5; F-4 and F-2; F-7, whose window ends exactly at `C`. -/
theorem witness_FillReadsByRegion :
    (holding 16 3 (List.replicate 16 0)).recvSize = (holding 16 3 (List.replicate 16 0)).params.ringCap ∧
    (let s := pending (List.replicate 6 1) [2, 4] (holding 16 4 (List.replicate 10 0))
     s.RingOk ∧ s.recvSize < s.params.ringCap ∧ s.recvIdx + s.recvSize < s.params.ringCap ∧ s.recvIdx ≠ 0 ∧
       s.readAnswers = ((2 : Nat) : Int) :: ((4 : Nat) : Int) :: [] ∧ 2 = s.params.ringCap - (s.recvIdx + s.recvSize) ∧
       2 ≤ s.rxPending.length ∧ 4 ≤ s.recvIdx) ∧
    (let s := pending (List.replicate 9 1) [3] (holding 16 12 [])
     s.RingOk ∧ s.recvSize < s.params.ringCap ∧ s.recvIdx + s.recvSize < s.params.ringCap ∧
       s.readAnswers = ((3 : Nat) : Int) :: [] ∧ 3 ≤ s.params.ringCap - (s.recvIdx + s.recvSize) ∧
       min 3 s.rxPending.length < s.params.ringCap - (s.recvIdx + s.recvSize)) ∧
    (let s := pending (List.replicate 16 1) [16] (holding 16 0 [])
     s.RingOk ∧ s.recvSize < s.params.ringCap ∧ s.recvIdx + s.recvSize < s.params.ringCap ∧
       s.readAnswers = ((16 : Nat) : Int) :: [] ∧ 16 ≤ s.params.ringCap - (s.recvIdx + s.recvSize) ∧ s.recvIdx = 0) ∧
    (let s := pending (List.replicate 10 1) [10] (holding 16 10 (List.replicate 6 0))
     s.RingOk ∧ s.recvSize < s.params.ringCap ∧ s.params.ringCap ≤ s.recvIdx + s.recvSize ∧
       s.readAnswers = ((10 : Nat) : Int) :: [] ∧ 10 ≤ s.params.ringCap - s.recvSize) := by decide

/-- F-10 and F-11. -/
theorem witness_FillReadErrors :
    (let s := pending [1] [-5] (holding 16 5 [])
     s.recvSize ≠ s.params.ringCap ∧ s.readAnswers = -5 :: [] ∧ (-5 : Int) < 0) ∧
    (let s := pending [1, 2, 3, 4, 5] [4, -5] (holding 16 12 [])
     s.RingOk ∧ s.recvSize < s.params.ringCap ∧ s.recvIdx + s.recvSize < s.params.ringCap ∧ s.recvIdx ≠ 0 ∧
       s.readAnswers = ((4 : Nat) : Int) :: -5 :: [] ∧ 4 = s.params.ringCap - (s.recvIdx + s.recvSize) ∧
       4 ≤ s.rxPending.length ∧ (-5 : Int) < 0) := by decide

/-- F-12; one above a wrapped request; one above phase 2's request. -/
theorem witness_OverReadFaults :
    (let s := pending [] [17] (holding 16 0 [])
     s.RingOk ∧ s.recvSize < s.params.ringCap ∧ (256 : U32).toNat ≤ s.params.outCap ∧ s.readAnswers = 17 :: [] ∧
       (if s.recvIdx + s.recvSize < s.params.ringCap then ((s.params.ringCap - (s.recvIdx + s.recvSize) : Nat) : Int)
        else ((s.params.ringCap - s.recvSize : Nat) : Int)) < 17) ∧
    (let s := pending [] [9] (holding 16 10 (List.replicate 8 0))
     s.RingOk ∧ s.recvSize < s.params.ringCap ∧ (256 : U32).toNat ≤ s.params.outCap ∧ s.readAnswers = 9 :: [] ∧
       (if s.recvIdx + s.recvSize < s.params.ringCap then ((s.params.ringCap - (s.recvIdx + s.recvSize) : Nat) : Int)
        else ((s.params.ringCap - s.recvSize : Nat) : Int)) < 9) ∧
    (let s := pending [1, 2, 3, 4] [4, 13] (holding 16 12 [])
     s.RingOk ∧ s.recvSize < s.params.ringCap ∧ (256 : U32).toNat ≤ s.params.outCap ∧
       s.recvIdx + s.recvSize < s.params.ringCap ∧ s.recvIdx ≠ 0 ∧ s.readAnswers = ((4 : Nat) : Int) :: 13 :: [] ∧
       4 = s.params.ringCap - (s.recvIdx + s.recvSize) ∧ 4 ≤ s.rxPending.length ∧ (s.recvIdx : Int) < 13) := by decide

/-- D-15: past the window, the delimiter, the pair `7D 20`, a plain byte; D-9's `7D 7E`; a raw `11` and `13`; `7D` held last. -/
theorem witness_UnescapeOnEveryWindow :
    (let s := holding 16 0 [0x7E, 0x00, 0x02, 0x8A, 0x7D, 0x20, 0x75]
     s.window.length ≤ 7 ∧ s.window[0]? = some 0x7E#8 ∧ s.window[4]? = some 0x7D#8 ∧ s.window[4 + 1]? = some 0x20#8 ∧
       0x20#8 ≠ 0x7E#8 ∧ s.window[6]? = some 0x75#8 ∧ 0x75#8 ≠ 0x7E#8 ∧ 0x75#8 ≠ 0x7D#8) ∧
    (let s := holding 16 14 [0x7E, 0x7D, 0x7E, 0x11, 0x13, 0x7D]
     s.window[1]? = some 0x7D#8 ∧ s.window[1 + 1]? = some 0x7E#8 ∧ s.window[3]? = some 0x11#8 ∧ s.window[4]? = some 0x13#8 ∧
       s.window[5]? = some 0x7D#8 ∧ s.window[5 + 1]? = none) := by decide

/-- D-2, five bytes held; and a ring of five. -/
theorem witness_DecodeNeedsSixBytes :
    (256 : U32).toNat ≤ (holding 16 0 [0x7E, 0x00, 0x01, 0x41, 0xBE]).params.outCap ∧
    (holding 16 0 [0x7E, 0x00, 0x01, 0x41, 0xBE]).recvSize < 6 ∧
    (256 : U32).toNat ≤ (holding 5 0 [0x7E, 0x00, 0x01, 0x41, 0xBE]).params.outCap ∧
    (holding 5 0 [0x7E, 0x00, 0x01, 0x41, 0xBE]).RingOk ∧
    (holding 5 0 [0x7E, 0x00, 0x01, 0x41, 0xBE]).params.ringCap < 6 := by decide

/-- D-5. -/
theorem witness_DecodeCompletesWithinItsFrame :
    (holding 16 0 [0x41, 0x42, 0x7E, 0x00, 0x02, 0x8A, 0x00, 0x75]).RingOk ∧
    (256 : U32).toNat ≤ (holding 16 0 [0x41, 0x42, 0x7E, 0x00, 0x02, 0x8A, 0x00, 0x75]).params.outCap := by decide

/-- What the encoder sends for `bytes` is read as `bytes`. -/
theorem rawOf_sent {raw bytes : List Byte} (h : raw = bytes.flatMap esc) : RawOf raw bytes := h ▸ rawOf_flatMap_esc bytes

/-- D-15's raw bytes: the pair `7D 20`, which the encoder never sends, stands for `00`. -/
theorem rawOf_d15 : RawOf [0x00, 0x02, 0x8A, 0x7D, 0x20, 0x75] (frameBody [0x8A, 0x00]) :=
  .plain (by decide) (.plain (by decide) (.plain (by decide) (.pair (by decide) (.plain (by decide) .nil))))

/-- A raw `11` in a frame of the payload `89 11 13`, whose `13` is escaped. -/
theorem rawOf_raw11 : RawOf [0x00, 0x03, 0x89, 0x11, 0x7D, 0x33, 0x52] (frameBody [0x89, 0x11, 0x13]) :=
  .plain (by decide) (.plain (by decide) (.plain (by decide) (.plain (by decide) (.pair (by decide) (.plain (by decide) .nil)))))

/-- D-5 and D-15 with `out_size` at its bound 3, D-5 wrapping the ring; and a raw `11`. -/
theorem witness_DecodeFindsFrameAfterGarbage :
    (let s := holding 16 12 [0x41, 0x42, 0x7E, 0x00, 0x02, 0x8A, 0x00, 0x75]
     s.RingOk ∧ s.window = [0x41, 0x42] ++ 0x7E#8 :: [0x00, 0x02, 0x8A, 0x00, 0x75] ++ [] ∧ 0x7E#8 ∉ [0x41#8, 0x42#8] ∧
       6 ≤ 1 + [0x00#8, 0x02#8, 0x8A#8, 0x00#8, 0x75#8].length + ([] : List Byte).length) ∧
    (let s := holding 16 0 [0x7E, 0x00, 0x02, 0x8A, 0x7D, 0x20, 0x75]
     s.RingOk ∧ s.window = [] ++ 0x7E#8 :: [0x00, 0x02, 0x8A, 0x7D, 0x20, 0x75] ++ [] ∧ 1 ≤ [0x8A#8, 0x00#8].length ∧
       [0x8A#8, 0x00#8].length ≤ 65535 ∧ [0x8A#8, 0x00#8].length + 1 ≤ (3 : U32).toNat ∧
       [0x8A#8, 0x00#8].length + 4 ≤ s.params.ringCap ∧ (3 : U32).toNat ≤ s.params.outCap) ∧
    (holding 16 0 [0x7E, 0x00, 0x03, 0x89, 0x11, 0x7D, 0x33, 0x52]).window
      = [] ++ 0x7E#8 :: [0x00, 0x03, 0x89, 0x11, 0x7D, 0x33, 0x52] ++ [] ∧
    RawOf [0x00, 0x02, 0x8A, 0x00, 0x75] (frameBody [0x8A, 0x00]) ∧
    RawOf [0x00, 0x02, 0x8A, 0x7D, 0x20, 0x75] (frameBody [0x8A, 0x00]) ∧
    RawOf [0x00, 0x03, 0x89, 0x11, 0x7D, 0x33, 0x52] (frameBody [0x89, 0x11, 0x13]) :=
  ⟨by decide, by decide, by decide, rawOf_sent (by decide), rawOf_d15, rawOf_raw11⟩

/-- D-19, and with the first frame escaped as in D-15. -/
theorem witness_TwoFramesDecodeInOrder :
    (let s := holding 32 0 [0x7E, 0x00, 0x02, 0x8A, 0x00, 0x75, 0x7E, 0x00, 0x02, 0x8A, 0x01, 0x74]
     s.RingOk ∧ s.window = 0x7E#8 :: [0x00, 0x02, 0x8A, 0x00, 0x75] ++ 0x7E#8 :: [0x00, 0x02, 0x8A, 0x01, 0x74] ++ [] ∧
       6 ≤ 1 + [0x00#8, 0x02#8, 0x8A#8, 0x01#8, 0x74#8].length + ([] : List Byte).length ∧ 1 ≤ [0x8A#8, 0x00#8].length ∧
       [0x8A#8, 0x00#8].length ≤ 65535 ∧ [0x8A#8, 0x00#8].length + 1 ≤ (256 : U32).toNat ∧
       [0x8A#8, 0x00#8].length + 4 ≤ s.params.ringCap ∧ (256 : U32).toNat ≤ s.params.outCap) ∧
    (holding 32 0 [0x7E, 0x00, 0x02, 0x8A, 0x7D, 0x20, 0x75, 0x7E, 0x00, 0x02, 0x8A, 0x01, 0x74]).window
      = 0x7E#8 :: [0x00, 0x02, 0x8A, 0x7D, 0x20, 0x75] ++ 0x7E#8 :: [0x00, 0x02, 0x8A, 0x01, 0x74] ++ [] ∧
    RawOf [0x00, 0x02, 0x8A, 0x00, 0x75] (frameBody [0x8A, 0x00]) ∧
    RawOf [0x00, 0x02, 0x8A, 0x7D, 0x20, 0x75] (frameBody [0x8A, 0x00]) ∧
    RawOf [0x00, 0x02, 0x8A, 0x01, 0x74] (frameBody [0x8A, 0x01]) :=
  ⟨by decide, by decide, rawOf_sent (by decide), rawOf_d15, rawOf_sent (by decide)⟩

/-- D-13; and a zero-length frame of six raw bytes, its length bytes escaped, with nothing after it. -/
theorem witness_ZeroLengthFrameConsumed :
    (let s := holding 16 0 [0x7E, 0x00, 0x00, 0xFF, 0x41, 0x42]
     s.RingOk ∧ s.window = 0x7E#8 :: [0x00, 0x00, 0xFF] ++ [0x41, 0x42] ∧
       6 ≤ 1 + [0x00#8, 0x00#8, 0xFF#8].length + [0x41#8, 0x42#8].length ∧ 4 ≤ s.params.ringCap ∧ 1 ≤ (1 : U32).toNat ∧
       (1 : U32).toNat ≤ s.params.outCap) ∧
    (let s := holding 16 0 [0x7E, 0x7D, 0x20, 0x7D, 0x20, 0xFF]
     s.RingOk ∧ s.window = 0x7E#8 :: [0x7D, 0x20, 0x7D, 0x20, 0xFF] ++ [] ∧
       6 ≤ 1 + [0x7D#8, 0x20#8, 0x7D#8, 0x20#8, 0xFF#8].length + ([] : List Byte).length) ∧
    RawOf [0x00, 0x00, 0xFF] [0x00, 0x00, 0xFF] ∧ RawOf [0x7D, 0x20, 0x7D, 0x20, 0xFF] [0x00, 0x00, 0xFF] :=
  ⟨by decide, by decide, rawOf_sent (by decide), .pair (by decide) (.pair (by decide) (.plain (by decide) .nil))⟩

/-- The five kinds: D-5's head; D-6, and with one byte more, and D-8; W-c's start, and D-9's `7D 7E`; D-12; D-11. -/
theorem witness_CorruptionDropsOneByte :
    (let s := holding 16 0 [0x41, 0x42, 0x7E, 0x00, 0x02, 0x8A, 0x00, 0x75]
     s.RingOk ∧ (256 : U32).toNat ≤ s.params.outCap ∧ 7 ≤ s.recvSize ∧ s.window[0]? ≠ some 0x7E#8) ∧
    (let s := holding 16 0 [0x7E, 0x00, 0x02, 0x8A, 0x00, 0x75]
     s.RingOk ∧ (2 : U32).toNat ≤ s.params.outCap ∧ s.recvSize = 6 ∧
       s.window = 0x7E#8 :: [0x00, 0x02] ++ [0x8A, 0x00, 0x75] ∧ (2 : U32).toNat < [0x8A#8, 0x00#8].length + 1) ∧
    (let s := holding 16 0 [0x7E, 0x00, 0x02, 0x8A, 0x00, 0x75, 0x00]
     s.RingOk ∧ (2 : U32).toNat ≤ s.params.outCap ∧ 7 ≤ s.recvSize ∧
       s.window = 0x7E#8 :: [0x00, 0x02] ++ [0x8A, 0x00, 0x75, 0x00] ∧ (2 : U32).toNat < [0x8A#8, 0x00#8].length + 1) ∧
    (let s := holding 8 0 [0x7E, 0x00, 0x05, 0x88, 0x01, 0x41, 0x50, 0x00]
     s.RingOk ∧ (256 : U32).toNat ≤ s.params.outCap ∧ 7 ≤ s.recvSize ∧
       s.window = 0x7E#8 :: [0x00, 0x05] ++ [0x88, 0x01, 0x41, 0x50, 0x00] ∧
       s.params.ringCap < [0x88#8, 0x01#8, 0x41#8, 0x50#8, 0x00#8].length + 4) ∧
    (let s := holding 16 0 [0x7E, 0x00, 0x04, 0x08, 0x01, 0x41, 0x50, 0x7E, 0x00]
     s.RingOk ∧ (256 : U32).toNat ≤ s.params.outCap ∧ 7 ≤ s.recvSize ∧
       6 < [0x00#8, 0x04#8, 0x08#8, 0x01#8, 0x41#8, 0x50#8, 0x65#8].length ∧
       s.window = 0x7E#8 :: [0x00#8, 0x04#8, 0x08#8, 0x01#8, 0x41#8, 0x50#8, 0x65#8].take 6 ++ 0x7E#8 :: [0x00]) ∧
    (let s := holding 16 0 [0x7E, 0x00, 0x02, 0x8A, 0x7D, 0x7E, 0x00, 0x02, 0x8A, 0x00, 0x75]
     s.RingOk ∧ 7 ≤ s.recvSize ∧ 4 < [0x00#8, 0x02#8, 0x8A#8, 0x7D#8, 0x20#8, 0x75#8].length ∧
       s.window = 0x7E#8 :: [0x00#8, 0x02#8, 0x8A#8, 0x7D#8, 0x20#8, 0x75#8].take 4 ++ 0x7E#8 :: [0x00, 0x02, 0x8A, 0x00, 0x75]) ∧
    (let s := holding 16 0 [0x7E, 0x00, 0x04, 0x08, 0x01, 0x41, 0x50, 0x00]
     s.RingOk ∧ (256 : U32).toNat ≤ s.params.outCap ∧ 7 ≤ s.recvSize ∧ (0x00#8 : Byte) ≠ checksumOf apPayload ∧
       s.window = 0x7E#8 :: [0x00, 0x04, 0x08, 0x01, 0x41, 0x50, 0x00] ++ []) ∧
    (let s := holding 8 0 [0x7E, 0x00, 0x04, 0x7D, 0x5E, 0x7D, 0x5E, 0x7D]
     s.RingOk ∧ (256 : U32).toNat ≤ s.params.outCap ∧ 7 ≤ s.recvSize ∧ s.recvSize = s.params.ringCap ∧
       7 < ((be16 4 ++ [0x7E, 0x7E, 0x7E, 0x7E] ++ [0x07]).flatMap esc).length ∧
       s.window = 0x7E#8 :: ((be16 4 ++ [0x7E, 0x7E, 0x7E, 0x7E] ++ [0x07]).flatMap esc).take 7) ∧
    RawOf [0x00, 0x02] (be16 (BitVec.ofNat 16 [0x8A#8, 0x00#8].length)) ∧
    RawOf [0x00, 0x05] (be16 (BitVec.ofNat 16 [0x88#8, 0x01#8, 0x41#8, 0x50#8, 0x00#8].length)) ∧
    RawOf [0x00, 0x04, 0x08, 0x01, 0x41, 0x50, 0x65] (be16 (BitVec.ofNat 16 apPayload.length) ++ apPayload ++ [0x65]) ∧
    RawOf [0x00, 0x02, 0x8A, 0x7D, 0x20, 0x75] (be16 (BitVec.ofNat 16 [0x8A#8, 0x00#8].length) ++ [0x8A, 0x00] ++ [0x75]) ∧
    RawOf [0x00, 0x04, 0x08, 0x01, 0x41, 0x50, 0x00] (be16 (BitVec.ofNat 16 apPayload.length) ++ apPayload ++ [0x00]) ∧
    RawOf ((be16 4 ++ [0x7E, 0x7E, 0x7E, 0x7E] ++ [0x07]).flatMap esc)
      (be16 (BitVec.ofNat 16 [0x7E#8, 0x7E#8, 0x7E#8, 0x7E#8].length) ++ [0x7E, 0x7E, 0x7E, 0x7E] ++ [0x07]) :=
  ⟨by decide, by decide, by decide, by decide, by decide, by decide, by decide, by decide, rawOf_sent (by decide),
   rawOf_sent (by decide), rawOf_sent (by decide), rawOf_d15, rawOf_sent (by decide), rawOf_sent (by decide)⟩

/-- D-10, with 6 bytes of 9 held. -/
theorem witness_PartialFrameWaits :
    (let s := holding 16 0 [0x7E, 0x00, 0x05, 0x88, 0x01, 0x41]
     let raw := [0x00#8, 0x05#8, 0x88#8, 0x01#8, 0x41#8, 0x50#8, 0x00#8, 0xE5#8]
     s.RingOk ∧ s.window = 0x7E#8 :: raw.take 5 ∧ 5 < raw.length ∧ 5 + 1 < s.params.ringCap ∧
       [0x88#8, 0x01#8, 0x41#8, 0x50#8, 0x00#8].length + 1 ≤ (6 : U32).toNat ∧
       [0x88#8, 0x01#8, 0x41#8, 0x50#8, 0x00#8].length + 4 ≤ s.params.ringCap ∧ (6 : U32).toNat ≤ s.params.outCap) ∧
    RawOf [0x00#8, 0x05#8, 0x88#8, 0x01#8, 0x41#8, 0x50#8, 0x00#8, 0xE5#8]
      (be16 (BitVec.ofNat 16 [0x88#8, 0x01#8, 0x41#8, 0x50#8, 0x00#8].length) ++ [0x88, 0x01, 0x41, 0x50, 0x00] ++ [0xE5]) :=
  ⟨by decide, rawOf_sent (by decide)⟩

/-- D-3. -/
def d3 : State := holding 16 0 [0x7E, 0x00, 0x02, 0x8A, 0x00, 0x75]

theorem witness_ReturnedFrameSumsTo255 :
    exec (.decodeFrame 256) d3 = .next (after (exec (.decodeFrame 256) d3)) ∧
    (after (exec (.decodeFrame 256) d3)).response = some ⟨.value (2 : Nat), none⟩ ∧ 1 ≤ 2 :=
  ⟨next_after (by decide), by decide, by decide⟩

/-- The first address past the checksum, and, after a result of 0 (D-10), address 0. -/
theorem witness_OutBeyondTheFrameIsFree :
    (exec (.decodeFrame 256) d3 = .next (after (exec (.decodeFrame 256) d3)) ∧ 6 ≤ d3.recvSize ∧
      (after (exec (.decodeFrame 256) d3)).response = some ⟨.value (2 : Nat), none⟩ ∧ 3 < (256 : U32).toNat ∧ 2 < 3) ∧
    (let s := holding 16 0 [0x7E, 0x00, 0x05, 0x88, 0x01, 0x41]
     exec (.decodeFrame 256) s = .next (after (exec (.decodeFrame 256) s)) ∧ 6 ≤ s.recvSize ∧
      (after (exec (.decodeFrame 256) s)).response = some ⟨.value (0 : Nat), none⟩ ∧ 0 < (256 : U32).toNat) :=
  ⟨⟨next_after (by decide), by decide, by decide, by decide, by decide⟩, next_after (by decide), by decide, by decide, by decide⟩

/-- D-3 with the head at 0 and at 13. -/
theorem witness_DecodeSeesOnlyTheWindow :
    d3.RingOk ∧ (holding 16 13 [0x7E, 0x00, 0x02, 0x8A, 0x00, 0x75]).RingOk ∧
    (d3.params = (holding 16 13 [0x7E, 0x00, 0x02, 0x8A, 0x00, 0x75]).params ∧
      d3.window = (holding 16 13 [0x7E, 0x00, 0x02, 0x8A, 0x00, 0x75]).window) ∧
    d3.out = (holding 16 13 [0x7E, 0x00, 0x02, 0x8A, 0x00, 0x75]).out ∧
    d3.outDraws = (holding 16 13 [0x7E, 0x00, 0x02, 0x8A, 0x00, 0x75]).outDraws ∧
    exec (.decodeFrame 256) d3 = .next (after (exec (.decodeFrame 256) d3)) :=
  ⟨by decide, by decide, by decide, by decide, by decide, next_after (by decide)⟩

/-- D-R1; D-R2; F-12; and D-24. -/
theorem witness_RecvIsFillThenDecode :
    (let s := pending [0x7E, 0x00, 0x02, 0x8A, 0x00, 0x75] [6] (base 16)
     (256 : U32).toNat ≤ s.params.outCap ∧ s.ReadsKept ∧ exec .fillBuffer s = .next (after (exec .fillBuffer s)) ∧
       (after (exec .fillBuffer s)).response = some ⟨.value 6, none⟩) ∧
    (let s := pending [] [-5] d3
     (256 : U32).toNat ≤ s.params.outCap ∧ exec .fillBuffer s = .next (after (exec .fillBuffer s)) ∧
       (after (exec .fillBuffer s)).response = some ⟨.error (.transportRead (-5)), none⟩) ∧
    exec .fillBuffer (pending [] [17] (base 16)) = .fault .transportOverRead ∧
    (base 16).params.outCap < (65536 : U32).toNat :=
  ⟨⟨by decide, by decide, next_after (by decide), by decide⟩, ⟨by decide, next_after (by decide), by decide⟩, rfl, by decide⟩

/-- P-1 and P-4 in OUT; P-2 and P-3, P-5 and P-6, one byte short and one too long. -/
theorem witness_StatusFramesParse :
    (2 : U16).toNat ≤ (withOut [0x8A, 0x00]).params.outCap ∧ (withOut [0x8A, 0x00]).outBytes (2 : U16).toNat = [0x8A, 0x00] ∧
    (withOut [0x89, 0x05, 0x00]).outBytes (3 : U16).toNat = [0x89, 0x05, 0x00] ∧
    ([] : List Byte).length + 1 ≠ 2 ∧ (withOut [0x8A]).outBytes (1 : U16).toNat = 0x8A :: [] ∧
    [0x00#8, 0x00#8].length + 1 ≠ 2 ∧ [0x05#8].length + 1 ≠ 3 ∧ [0x05#8, 0x00#8, 0x00#8].length + 1 ≠ 3 ∧
    (withOut [0x89, 0x05]).outBytes (2 : U16).toNat = 0x89 :: [0x05] := by decide

/-- P-8 and P-11 in OUT; P-9 and P-12, one byte short. -/
theorem witness_AtResponsesParse :
    (5 : U16).toNat ≤ (withOut [0x88, 0x01, 0x41, 0x50, 0x00]).params.outCap ∧
    (withOut [0x88, 0x01, 0x41, 0x50, 0x00]).outBytes (5 : U16).toNat = 0x88 :: 0x01 :: 0x41 :: 0x50 :: 0x00 :: [] ∧
    (withOut ([0x97, 0x01] ++ be64 addrA ++ be16 0xFFFE ++ [0x44, 0x37, 0x00] ++ [])).outBytes (15 : U16).toNat
      = [0x97, 0x01] ++ be64 addrA ++ be16 0xFFFE ++ [0x44, 0x37, 0x00] ++ [] ∧
    [0x01#8, 0x41#8, 0x50#8].length + 1 < 5 ∧ (withOut [0x88, 0x01, 0x41, 0x50]).outBytes (4 : U16).toNat = 0x88 :: [0x01, 0x41, 0x50] ∧
    (0x01#8 :: be64 addrA ++ be16 0xFFFE ++ [0x44, 0x37]).length + 1 < 15 := by decide

/-- P-14 and a Receive16 of no data in OUT; P-15 and P-17, one byte short. -/
theorem witness_ReceiveFramesParse :
    (11 : U16).toNat ≤ (withOut ([0x80] ++ be64 addrA ++ [0x28, 0x00] ++ [])).params.outCap ∧
    (withOut ([0x80] ++ be64 addrA ++ [0x28, 0x00] ++ [])).outBytes (11 : U16).toNat = [0x80] ++ be64 addrA ++ [0x28, 0x00] ++ [] ∧
    (withOut ([0x81] ++ be16 0x1234 ++ [0x28, 0x00] ++ [])).outBytes (5 : U16).toNat = [0x81] ++ be16 0x1234 ++ [0x28, 0x00] ++ [] ∧
    (be64 addrA ++ [0x28]).length + 1 < 11 ∧ (be16 0x1234 ++ [0x28]).length + 1 < 5 ∧
    (withOut [0x81, 0x12, 0x34, 0x28]).outBytes (4 : U16).toNat = 0x81 :: (be16 0x1234 ++ [0x28]) := by decide

/-- Bodies one byte short of each row, and one byte too long for the exact ones. -/
theorem witness_DemultiplexerRowsAnswer :
    ([] : List Byte).length ≠ 1 ∧ [0x00#8, 0x00#8].length ≠ 1 ∧ [0x05#8].length ≠ 2 ∧ [0x05#8, 0x00#8, 0x00#8].length ≠ 2 ∧
    [0x01#8, 0x41#8, 0x50#8].length < 4 ∧ (0x01#8 :: be64 addrA ++ be16 0xFFFE ++ [0x44, 0x37]).length < 14 ∧
    (be64 addrA ++ [0x28]).length < 10 := by decide

/-- P-18 to P-20. -/
theorem witness_UnknownAndEmptyPayloads :
    (base 16).outBytes (0 : U16).toNat = [] ∧ 0x08#8 ∉ [0x8A#8, 0x89#8, 0x88#8, 0x97#8, 0x80#8, 0x81#8] ∧
    (withOut [0xFF]).outBytes (1 : U16).toNat = 0xFF :: [] ∧ 0xFF#8 ∉ [0x8A#8, 0x89#8, 0x88#8, 0x97#8, 0x80#8, 0x81#8] := by decide

theorem witness_ParseRunsTheRowOfItsId :
    (3 : U16).toNat ≤ (withOut [0x89, 0x05, 0x00]).params.outCap ∧
    decodeIncoming ((withOut [0x89, 0x05, 0x00]).outBytes (3 : U16).toNat) = .ok (.apiRxTransmitStatus [0x05, 0x00]) := by decide

/-- P-7's slice, and two states with the same OUT. -/
theorem witness_SlicesBorrowFromOut :
    (withOut [0x88, 0x01, 0x41, 0x50, 0x00, 0x02]).outBytes 6 = [0x88, 0x01, 0x41, 0x50, 0x00] ++ [0x02] ∧
    (withOut [0x88]).out = ({ withOut [0x88] with recvIdx := 3 } : State).out ∧
    (withOut [0x88]).outDraws = ({ withOut [0x88] with recvIdx := 3 } : State).outDraws := by decide

/-- Program 4's first RECV_FRAME as a step. -/
theorem witness_InvKeptByEveryStep :
    (let s := facing (.command [0x12, 0x00, 0x00, 0x01, 0x00]) (pending [0x7E, 0x00, 0x03, 0x89, 0x01, 0x00, 0x75] [7] (base 16))
     s.Inv ∧ step s = .next (after (step s))) := ⟨by decide, next_after (by decide)⟩

theorem witness_RegistersChangeOnlyByTheirCommands :
    exec .reset (holding 16 5 [1, 2, 3]) = .next (after (exec .reset (holding 16 5 [1, 2, 3]))) ∧
    (after (exec .reset (holding 16 5 [1, 2, 3]))).recvIdx ≠ (holding 16 5 [1, 2, 3]).recvIdx ∧
    exec .fillBuffer (pending [1] [1] (base 16)) = .next (after (exec .fillBuffer (pending [1] [1] (base 16)))) ∧
    (pending [1] [1] (base 16)).recvSize < (after (exec .fillBuffer (pending [1] [1] (base 16)))).recvSize ∧
    (after (exec .reset (holding 16 5 [1, 2, 3]))).recvSize < (holding 16 5 [1, 2, 3]).recvSize ∧
    exec (.decodeFrame 256) d3 = .next (after (exec (.decodeFrame 256) d3)) ∧
    (after (exec (.decodeFrame 256) d3)).recvSize < d3.recvSize :=
  ⟨next_after (by decide), by decide, next_after (by decide), by decide, by decide, next_after (by decide), by decide⟩

/-- F-5, where a write next to the window's last and first bytes would show. -/
theorem witness_RingWrittenOnlyInItsFreeRegion :
    (let s := pending (List.replicate 6 1) [2, 4] (holding 16 4 (List.replicate 10 0))
     s.RingOk ∧ exec .fillBuffer s = .next (after (exec .fillBuffer s)) ∧ (after (exec .fillBuffer s)).ring ≠ s.ring ∧
       0 < s.recvSize ∧ 9 < s.recvSize) :=
  ⟨by decide, next_after (by decide), by decide, by decide, by decide⟩

/-- D-3 over an OUT that held another byte. -/
theorem witness_OutWrittenOnlyByTheDecoder :
    (let s := d3.writeOut 2 [0x00]
     exec (.decodeFrame 3) s = .next (after (exec (.decodeFrame 3) s)) ∧
       (after (exec (.decodeFrame 3) s)).outByte 2 ≠ s.outByte 2) := ⟨next_after (by decide), by decide⟩

theorem witness_LinesAreFifo :
    step (facing (.line [1, 2]) (pending [9] [] (base 16))) = .next (after (step (facing (.line [1, 2]) (pending [9] [] (base 16))))) ∧
    step (facing (.outgoing apPayload) (accepting 8 [])) = .next (after (step (facing (.outgoing apPayload) (accepting 8 [])))) :=
  ⟨next_after (by decide), next_after (by decide)⟩

/-- The ends of the range: a transport that reads -1, and one that reads -10. -/
theorem witness_NoInitializerCodes :
    (let s := pending [1] [-1] (base 16)
     s.params.wrongLengthCode = -15 ∧ s.params.unknownIdCode = -16 ∧ exec .fillBuffer s = .next (after (exec .fillBuffer s)) ∧
       (after (exec .fillBuffer s)).response = some ⟨.error (.transportRead (-1)), none⟩ ∧
       -10 ≤ statusCode s.params (.error (.transportRead (-1))) ∧ statusCode s.params (.error (.transportRead (-1))) ≤ -1) ∧
    -10 ≤ statusCode (base 16).params (.error (.transportRead (-10))) :=
  ⟨⟨by decide, by decide, next_after (by decide), by decide, by decide, by decide⟩, by decide⟩

end Sys2Proof.Tests
end

section
/-! PROOFS. The steps of the host and the line: one equation of `step` for each event the block takes no part in, and what a host write
leaves in OUT. -/

namespace Sys2Proof.Machine

/-! ### A byte of OUT after a write (R11) -/

/-- The written byte inside the written range, the old one outside. -/
theorem State.outByte_writeOut (s : State) (a : Nat) (bs : List Byte) (k : Nat) :
    (s.writeOut a bs).outByte k = if a ≤ k ∧ k < a + bs.length then bs.getD (k - a) 0 else s.outByte k := by
  simp only [State.outByte, State.outDraw, State.writeOut_out, State.writeOut_outDraws, Memory.get?_putAll]
  by_cases hk : a ≤ k ∧ k < a + bs.length
  · have hlt : k - a < bs.length := by omega
    simp [hk, hlt]
  · rw [if_neg hk, if_neg hk]

/-! ### The step of each event without the block (R15, log 1) -/

/-- With no event the block waits, R279. -/
theorem step_of_events_nil {s : State} (h : s.events = []) : step s = .next s := by
  simp only [step, State.fetch, h]

/-- The line's move, R27. -/
theorem step_line {s : State} {bs : List Byte} {rest : List Event} (h : s.events = .line bs :: rest) :
    step s = .next { s with events := rest, rxPending := s.rxPending ++ bs } := by
  simp only [step, State.fetch, h]

/-- A host write that is empty or ends inside OUT, R302. -/
theorem step_hostWrite_inside {s : State} {a : Nat} {bs : List Byte} {rest : List Event} (h : s.events = .hostWrite a bs :: rest)
    (hin : bs = [] ∨ a + bs.length ≤ s.params.outCap) : step s = .next (State.writeOut a bs { s with events := rest }) := by
  simp only [step, State.fetch, h, if_pos hin]

/-- A host write that reaches an index OUT does not have, R50, log 14. -/
theorem step_hostWrite_outside {s : State} {a : Nat} {bs : List Byte} {rest : List Event} (h : s.events = .hostWrite a bs :: rest)
    (hout : ¬(bs = [] ∨ a + bs.length ≤ s.params.outCap)) : step s = .fault .outsideOut := by
  simp only [step, State.fetch, h, if_neg hout]

/-! ### The obligations -/

/-- Settles O3: the four equations of `step`, and the bytes of OUT by `State.outByte_writeOut`. -/
theorem hostAndLineMoves : Obligations.HostAndLineMoves := by
  refine ⟨fun s hnil => step_of_events_nil hnil, fun s bs rest hline => step_line hline, ?_, ?_⟩
  · intro s a bs rest hwrite hfits
    exact ⟨_, step_hostWrite_inside hwrite (.inr hfits), rfl, State.outByte_writeOut { s with events := rest } a bs⟩
  · intro s a bs rest hwrite hne hbeyond
    exact step_hostWrite_outside hwrite (by simp [hne, hbeyond])

/-- Settles O4: only a host write and the line's bytes lack the block, and neither updates a field of the block. -/
theorem blockIdleInOthersSteps : Obligations.BlockIdleInOthersSteps := by
  intro s t e rest hev hidle hstep
  cases e with
  | command bs => simp [Event.agents] at hidle
  | outgoing p => simp [Event.agents] at hidle
  | incoming n => simp [Event.agents] at hidle
  | hostWrite a bs =>
    by_cases hin : bs = [] ∨ a + bs.length ≤ s.params.outCap
    · rw [step_hostWrite_inside hev hin] at hstep
      injection hstep with ht
      subst ht
      simp
    · rw [step_hostWrite_outside hev hin] at hstep
      cases hstep
  | line bs =>
    rw [step_line hev] at hstep
    injection hstep with ht
    subst ht
    simp

end Sys2Proof.Machine
end

section
/-! PROOFS. The refill and the decoder as sequences of primitive moves: a property that every move keeps is kept by the whole operation,
and what each operation leaves of the registers, the two memories and the two lines follows from that. -/

namespace Sys2Proof.Machine

/-! ### The refill as reads into the free region (R61, R140 to R142) -/

/-- One read of a refill with its bytes counted, R61, R141. -/
def State.readIn (p n : Nat) (s : State) : State := (s.rxRead p n).2.grow (s.readResult n).toNat

/-- The `n` offsets from `p` on are the first ones after the window and do not wrap, R140. -/
def State.FreeAt (s : State) (p n : Nat) : Prop :=
  p = s.physical s.recvSize ∧ s.recvSize + n ≤ s.params.ringCap ∧ p + n ≤ s.params.ringCap

/-- A read that answers an error counts no byte. -/
theorem State.readIn_of_neg {s : State} {n : Nat} (p : Nat) (h : s.readResult n < 0) : s.readIn p n = (s.rxRead p n).2 := by
  have hz : (s.readResult n).toNat = 0 := by omega
  simp only [State.readIn, hz]
  rfl

/-- The window ends before `C`: its free offsets start there and run up to `C`. -/
theorem State.freeAt_end {s : State} (h : s.ringEnd < s.params.ringCap) : s.FreeAt s.ringEnd (s.params.ringCap - s.ringEnd) := by
  unfold State.ringEnd at *
  exact ⟨(Nat.mod_eq_of_lt h).symm, by omega, by omega⟩

/-- The window reaches `C` or wraps: the free region runs from its end up to the head. -/
theorem State.freeAt_wrapped {s : State} (hs : s.RingOk) (h : ¬s.ringEnd < s.params.ringCap) :
    s.FreeAt (s.ringEnd - s.params.ringCap) (s.params.ringCap - s.recvSize) := by
  obtain ⟨_, hidx, hsize, _, _⟩ := hs
  unfold State.ringEnd at *
  refine ⟨?_, by omega, by omega⟩
  rw [State.physical, Nat.mod_eq_sub_mod (by omega), Nat.mod_eq_of_lt (by omega)]

/-- After a full phase 1 the free region is what lies before the head. -/
theorem State.freeAt_phase2 {s : State} (h : s.ringEnd < s.params.ringCap)
    (hr : s.readResult (s.params.ringCap - s.ringEnd) = (s.params.ringCap - s.ringEnd : Nat)) :
    (s.readIn s.ringEnd (s.params.ringCap - s.ringEnd)).FreeAt 0 s.recvIdx := by
  unfold State.ringEnd at *
  refine ⟨?_, ?_, ?_⟩ <;> simp only [State.readIn, State.physical, State.grow_params, State.grow_recvIdx, State.grow_recvSize,
    State.rxRead_params, State.rxRead_recvIdx, State.rxRead_recvSize, hr, Int.toNat_natCast]
  · rw [show s.recvIdx + (s.recvSize + (s.params.ringCap - (s.recvIdx + s.recvSize))) = s.params.ringCap by omega, Nat.mod_self]
  · omega
  · omega

/-- A refill is at most two reads, each into the free region: what such a read keeps, the refill keeps. -/
theorem State.fill_induction {P : State → Prop} (s : State) (start : P s)
    (read : ∀ u p n, (u.RingOk → u.FreeAt p n) → P u → P (u.readIn p n)) : P s.fill.2 := by
  unfold State.fill
  dsimp only
  split
  · exact start
  · split
    · rename_i hend
      have phase1 := read s _ _ (fun _ => State.freeAt_end hend) start
      split
      · rename_i hneg
        rwa [← State.readIn_of_neg _ hneg]
      · split
        · rename_i hphase2
          have phase2 := read _ 0 s.recvIdx (fun _ => State.freeAt_phase2 hend hphase2.1) phase1
          split
          · rename_i hneg
            rwa [← State.readIn_of_neg _ hneg]
          · exact phase2
        · exact phase1
    · rename_i hend
      have wrapped := read s _ _ (fun hs => State.freeAt_wrapped hs hend) start
      split
      · rename_i hneg
        rwa [← State.readIn_of_neg _ hneg]
      · exact wrapped

theorem State.fill_params (s : State) : s.fill.2.params = s.params := by rw [s.fill_frame]

theorem State.fill_recvIdx (s : State) : s.fill.2.recvIdx = s.recvIdx := by rw [s.fill_frame]

theorem State.fill_out (s : State) : s.fill.2.out = s.out := by rw [s.fill_frame]

theorem State.fill_outDraws (s : State) : s.fill.2.outDraws = s.outDraws := by rw [s.fill_frame]

theorem State.fill_txLine (s : State) : s.fill.2.txLine = s.txLine := by rw [s.fill_frame]

theorem State.fill_outByte (s : State) (a : Nat) : s.fill.2.outByte a = s.outByte a := by
  simp only [State.outByte, State.outDraw, State.fill_out, State.fill_outDraws]

/-- A refill never lowers `recv_size`, R21. -/
theorem State.fill_recvSize_le (s : State) : s.recvSize ≤ s.fill.2.recvSize :=
  s.fill_induction (P := fun u => s.recvSize ≤ u.recvSize) le_rfl fun u p n _ h =>
    h.trans (by simp [State.readIn])

/-- A refill takes bytes off the front of `rx_pending`, R27. -/
theorem State.fill_rxPending (s : State) : ∃ k, s.fill.2.rxPending = s.rxPending.drop k :=
  s.fill_induction (P := fun u => ∃ k, u.rxPending = s.rxPending.drop k) ⟨0, rfl⟩ fun u p n _ ⟨k, hk⟩ =>
    ⟨k + (u.readResult n).toNat, by simp [State.readIn, hk]⟩

/-- A read into the free region keeps the ring's invariants. -/
theorem State.readIn_ringOk {s : State} (hs : s.RingOk) {p n : Nat} (h : s.FreeAt p n) : (s.readIn p n).RingOk := by
  obtain ⟨rfl, hsize, hroom⟩ := h
  exact (State.rxRead_grow hs hsize hroom rfl).1

/-- A refill keeps the ring's invariants, R24, R144. -/
theorem State.fill_ringOk {s : State} (hs : s.RingOk) : s.fill.2.RingOk :=
  s.fill_induction (P := State.RingOk) hs fun _ _ _ hfree hu => State.readIn_ringOk hu (hfree hu)

/-- Different logical indices below `C` stand at different physical offsets, R51. -/
theorem State.physical_injOn (s : State) {i j : Nat} (hi : i < s.params.ringCap) (hj : j < s.params.ringCap)
    (h : s.physical i = s.physical j) : i = j :=
  (Nat.ModEq.add_left_cancel' s.recvIdx h).eq_of_lt_of_lt hi hj

/-- A read into the free region changes no byte of the window, R25. -/
theorem State.readIn_ring_window {s : State} (hs : s.RingOk) {p n k : Nat} (h : s.FreeAt p n) (hk : k < s.recvSize) :
    (s.readIn p n).ring.get? (s.physical k) = s.ring.get? (s.physical k) := by
  obtain ⟨rfl, hsize, hroom⟩ := h
  obtain ⟨-, -, frame, -⟩ := State.rxRead_grow hs hsize hroom rfl
  refine frame _ fun j hj heq => ?_
  have hle := State.readResult_le s n
  have := s.physical_injOn (by omega) (by omega) heq
  omega

/-- A refill changes no byte of the window, R25. -/
theorem State.fill_ring_window {s : State} (hs : s.RingOk) {k : Nat} (hk : k < s.recvSize) :
    s.fill.2.ring.get? (s.physical k) = s.ring.get? (s.physical k) := by
  have kept := s.fill_induction
    (P := fun u => u.RingOk ∧ u.physical k = s.physical k ∧ k < u.recvSize ∧
      u.ring.get? (s.physical k) = s.ring.get? (s.physical k)) ⟨hs, rfl, hk, rfl⟩ ?_
  · exact kept.2.2.2
  · rintro u p n hfree ⟨hu, hphys, hku, hring⟩
    have hread := State.readIn_ring_window hu (hfree hu) hku
    rw [hphys] at hread
    refine ⟨State.readIn_ringOk hu (hfree hu), ?_, ?_, hread.trans hring⟩
    · rw [← hphys]
      simp [State.physical, State.readIn]
    · simp only [State.readIn, State.grow_recvSize, State.rxRead_recvSize]
      omega

/-! ### The decoder as moves of the head and writes of OUT (R53, R54, R168, R174) -/

/-- A decode advances the head over held bytes, frees OUT below `outSize`, writes at most `outSize` bytes at `OUT[0]` and answers: what
these keep, the decode keeps. -/
theorem State.decodeFrame_induction {P : State → Prop} {outSize : Nat} (s : State) (start : P s)
    (commit : ∀ u k, k ≤ u.recvSize → P u → P (u.commit k))
    (freeOut : ∀ u, P u → P (u.freeOut outSize))
    (writeOut : ∀ u bytes, bytes.length ≤ outSize → P u → P (u.writeOut 0 bytes))
    (ret : ∀ u v, P u → P (u.ret v)) : P (s.decodeFrame outSize) := by
  rcases s.decodeFrame_cases outSize with ⟨-, heq⟩ | ⟨-, k, u, hk, hu, hend⟩
  · rw [heq]
    exact ret _ _ start
  · have moved : P u := by
      rcases hu with rfl | ⟨-, rfl⟩
      · exact commit s k hk start
      · exact start
    rcases hend with heq | ⟨bytes, -, hfits, -, -, heq⟩ <;> rw [heq]
    · exact ret _ _ (freeOut _ moved)
    · exact ret _ _ (writeOut _ _ hfits (freeOut _ moved))

/-- What no move of the decoder touches: the parameters, the ring and the two lines. -/
theorem State.decodeFrame_frame (outSize : Nat) (s : State) :
    (s.decodeFrame outSize).params = s.params ∧ (s.decodeFrame outSize).ring = s.ring ∧
      (s.decodeFrame outSize).rxPending = s.rxPending ∧ (s.decodeFrame outSize).txLine = s.txLine :=
  s.decodeFrame_induction
    (P := fun u => u.params = s.params ∧ u.ring = s.ring ∧ u.rxPending = s.rxPending ∧ u.txLine = s.txLine)
    ⟨rfl, rfl, rfl, rfl⟩ (fun _ _ _ h => h) (fun _ h => h) (fun _ _ _ h => h) (fun _ _ h => h)

/-- A decode never raises `recv_size`, R21. -/
theorem State.decodeFrame_recvSize_le (outSize : Nat) (s : State) : (s.decodeFrame outSize).recvSize ≤ s.recvSize :=
  s.decodeFrame_induction (P := fun u => u.recvSize ≤ s.recvSize) le_rfl
    (fun _ _ _ h => (Nat.sub_le _ _).trans h) (fun _ h => h) (fun _ _ _ h => h) (fun _ _ h => h)

/-- Freeing OUT below `n` leaves the bytes from `n` on, R174. -/
theorem State.outByte_freeOut_of_le (s : State) {n a : Nat} (h : n ≤ a) : (s.freeOut n).outByte a = s.outByte a := by
  simp [State.outByte, State.outDraw, Memory.get?_forget, h]

/-- A decode leaves OUT from `outSize` on, R26, R168. -/
theorem State.decodeFrame_outByte {outSize a : Nat} (s : State) (h : outSize ≤ a) :
    (s.decodeFrame outSize).outByte a = s.outByte a := by
  refine s.decodeFrame_induction (P := fun u => u.outByte a = s.outByte a) rfl (fun _ _ _ hu => hu) ?_ ?_ (fun _ _ hu => hu)
  · intro u hu
    rw [State.outByte_freeOut_of_le u h, hu]
  · intro u bytes hlen hu
    rw [State.outByte_writeOut, if_neg (by omega), hu]

end Sys2Proof.Machine
end

section
/-! PROOFS. The invariant of R24 through every operation and every step; what an instruction leaves of the registers, the ring, OUT and
the two lines. -/

namespace Sys2Proof.Machine

/-! ### The invariant, one operation at a time (R24, R144, R173) -/

theorem State.Inv.commit {s : State} (h : s.Inv) (n : Nat) : (s.commit n).Inv := by
  obtain ⟨⟨hcap, -, hsize, hwf, hin⟩, hout⟩ := h
  exact ⟨⟨hcap, Nat.mod_lt _ hcap, (Nat.sub_le _ _).trans hsize, hwf, hin⟩, hout⟩

theorem State.Inv.freeOut {s : State} (h : s.Inv) (n : Nat) : (s.freeOut n).Inv := by
  obtain ⟨hring, hwf, hin⟩ := h
  exact ⟨hring, Memory.forget_wf hwf n, Memory.forget_within hin n⟩

theorem State.Inv.writeOut {s : State} (h : s.Inv) {a : Nat} {bs : List Byte} (hfits : a + bs.length ≤ s.params.outCap) :
    (s.writeOut a bs).Inv := by
  obtain ⟨hring, hwf, hin⟩ := h
  exact ⟨hring, Memory.putAll_wf hwf a bs, Memory.putAll_within hin hfits⟩

theorem State.Inv.fill {s : State} (h : s.Inv) : s.fill.2.Inv := by
  refine ⟨State.fill_ringOk h.1, ?_⟩
  rw [State.OutOk, State.fill_out, State.fill_params]
  exact h.2

theorem State.Inv.decodeFrame {s : State} (h : s.Inv) {outSize : Nat} (hcap : outSize ≤ s.params.outCap) :
    (s.decodeFrame outSize).Inv := by
  have kept := s.decodeFrame_induction (outSize := outSize) (P := fun u => u.Inv ∧ outSize ≤ u.params.outCap) ⟨h, hcap⟩
    (fun u k _ hu => ⟨hu.1.commit k, hu.2⟩) (fun u hu => ⟨hu.1.freeOut outSize, hu.2⟩)
    (fun u bytes hlen hu => ⟨hu.1.writeOut (by omega), hu.2⟩) (fun _ _ hu => hu)
  exact kept.1

/-! ### What an instruction can leave, by its kind -/

/-- What instruction `i` can leave of the state `s`, its response aside. -/
inductive Effect (s : State) : Instr → State → Prop where
  /-- RESET, R290 -/
  | reset (r : Option Response) : Effect s .reset { s with recvIdx := 0, recvSize := 0, response := r }
  /-- an instruction that sends a payload, R204 -/
  | emit (i : Instr) (bs : List Byte) (m : Nat) (r : Option Response) : Effect s i { s.sent bs m with response := r }
  /-- FILL_BUFFER, R142 -/
  | fill (r : Option Response) : Effect s .fillBuffer { s.fill.2 with response := r }
  /-- DECODE_FRAME, R160 -/
  | decode (n : U32) (hn : n.toNat ≤ s.params.outCap) : Effect s (.decodeFrame n) (s.decodeFrame n.toNat)
  /-- RECV_FRAME whose refill failed, R180 -/
  | recvFailed (n : U32) (r : Option Response) : Effect s (.recvFrame n) { s.fill.2 with response := r }
  /-- RECV_FRAME, R180 -/
  | recv (n : U32) (hn : n.toNat ≤ s.params.outCap) : Effect s (.recvFrame n) (s.fill.2.decodeFrame n.toNat)
  /-- an instruction that parses a payload, R230 -/
  | answer (i : Instr) (r : Option Response) : Effect s i { s with response := r }

/-- Every next state of an instruction is one of its effects. -/
theorem exec_effect {i : Instr} {s t : State} (h : exec i s = .next t) : Effect s i t := by
  rcases exec_next h with ⟨rfl, rfl⟩ | ⟨bs, m, st, rfl, -⟩ | ⟨rfl, -, rfl⟩ | ⟨n, rfl, hn, rfl⟩ | ⟨n, rfl, hn, -, hend⟩ | ⟨p, rfl⟩
  · exact .reset _
  · exact .emit i bs m _
  · rcases s.fill_status with ⟨-, heq⟩ | ⟨-, heq⟩ <;> rw [heq] <;> exact .fill _
  · exact .decode n hn
  · rcases hend with ⟨-, rfl⟩ | ⟨-, rfl⟩
    · exact .recvFailed n _
    · exact .recv n hn
  · cases hp : demux p with
    | ok r => exact .answer i _
    | error e => exact .answer i _

/-! ### Every instruction and every step -/

/-- No instruction breaks the invariant. -/
theorem exec_keeps_inv {i : Instr} {s t : State} (hs : s.Inv) (h : exec i s = .next t) : t.Inv := by
  cases exec_effect h with
  | reset r =>
    obtain ⟨⟨hcap, -, -, hwf, hin⟩, hout⟩ := hs
    exact ⟨⟨hcap, hcap, Nat.zero_le _, hwf, hin⟩, hout⟩
  | emit bs m r => exact hs
  | fill r => exact hs.fill
  | decode n hn => exact hs.decodeFrame hn
  | recvFailed n r => exact hs.fill
  | recv n hn => exact hs.fill.decodeFrame (s.fill_params ▸ hn)
  | answer r => exact hs

/-- No step breaks the invariant: a step is an instruction, a host write inside OUT, or the line's bytes. -/
theorem step_keeps_inv {s t : State} (hs : s.Inv) (h : step s = .next t) : t.Inv := by
  rcases step_next h with ⟨-, rfl⟩ | ⟨e, rest, -, ⟨i, hexec, -⟩ | ⟨a, bs, -, hfits, rfl⟩ | ⟨bs, -, rfl⟩⟩
  · exact hs
  · exact exec_keeps_inv (s := { s with events := rest }) hs hexec
  · rcases hfits with rfl | hfits
    · exact hs
    · exact State.Inv.writeOut (s := { s with events := rest }) hs hfits
  · exact hs

/-- Every instruction only appends to `tx_line` and only takes bytes off the front of `rx_pending`, R27, R60, R61. -/
theorem exec_lines {i : Instr} {s t : State} (h : exec i s = .next t) :
    s.txLine <+: t.txLine ∧ ∃ k, t.rxPending = s.rxPending.drop k := by
  have filled : s.txLine <+: s.fill.2.txLine ∧ ∃ k, s.fill.2.rxPending = s.rxPending.drop k :=
    ⟨s.fill_txLine ▸ List.prefix_rfl, s.fill_rxPending⟩
  cases exec_effect h with
  | reset r => exact ⟨List.prefix_rfl, 0, rfl⟩
  | emit bs m r => exact ⟨List.prefix_append _ _, 0, rfl⟩
  | fill r => exact filled
  | decode n hn =>
    obtain ⟨-, -, hrx, htx⟩ := s.decodeFrame_frame n.toNat
    exact ⟨htx ▸ List.prefix_rfl, 0, hrx⟩
  | recvFailed n r => exact filled
  | recv n hn =>
    obtain ⟨-, -, hrx, htx⟩ := s.fill.2.decodeFrame_frame n.toNat
    rw [hrx, htx]
    exact filled
  | answer r => exact ⟨List.prefix_rfl, 0, rfl⟩

/-! ### The obligations -/

/-- Settles O46: a step is an instruction or a move of the host or the line, and each keeps the invariant. -/
theorem invKeptByEveryStep : Obligations.InvKeptByEveryStep := fun _ _ => step_keeps_inv

/-- Settles O47: a refill moves neither the head nor the parameters and only counts bytes; a decode only takes bytes off. -/
theorem registersChangeOnlyByTheirCommands : Obligations.RegistersChangeOnlyByTheirCommands := by
  intro i s t h
  cases exec_effect h with
  | reset r => exact ⟨rfl, fun _ => .inl rfl, fun hup => absurd hup (Nat.not_lt_zero _), fun _ => .inl rfl⟩
  | fill r =>
    exact ⟨s.fill_params, fun hne => absurd s.fill_recvIdx hne, fun _ => .inl rfl,
      fun hdown => absurd hdown (Nat.not_lt.2 s.fill_recvSize_le)⟩
  | decode n hn =>
    exact ⟨(s.decodeFrame_frame n.toNat).1, fun _ => .inr (.inl ⟨n, rfl⟩),
      fun hup => absurd hup (Nat.not_lt.2 (s.decodeFrame_recvSize_le n.toNat)), fun _ => .inr (.inl ⟨n, rfl⟩)⟩
  | recvFailed n r =>
    exact ⟨s.fill_params, fun _ => .inr (.inr ⟨n, rfl⟩), fun _ => .inr ⟨n, rfl⟩, fun _ => .inr (.inr ⟨n, rfl⟩)⟩
  | recv n hn =>
    exact ⟨(s.fill.2.decodeFrame_frame n.toNat).1.trans s.fill_params,
      fun _ => .inr (.inr ⟨n, rfl⟩), fun _ => .inr ⟨n, rfl⟩, fun _ => .inr (.inr ⟨n, rfl⟩)⟩
  | emit bs m r =>
    exact ⟨rfl, fun hne => absurd rfl hne, fun hup => absurd hup (lt_irrefl _), fun hdown => absurd hdown (lt_irrefl _)⟩
  | answer r =>
    exact ⟨rfl, fun hne => absurd rfl hne, fun hup => absurd hup (lt_irrefl _), fun hdown => absurd hdown (lt_irrefl _)⟩

/-- Settles O48: a refill reads into the free region only, and nothing else writes the ring. -/
theorem ringWrittenOnlyInItsFreeRegion : Obligations.RingWrittenOnlyInItsFreeRegion := by
  intro i s t hs h
  cases exec_effect h with
  | fill r => exact ⟨fun _ => .inl rfl, fun k hk => State.fill_ring_window hs hk⟩
  | recvFailed n r => exact ⟨fun _ => .inr ⟨n, rfl⟩, fun k hk => State.fill_ring_window hs hk⟩
  | recv n hn =>
    obtain ⟨-, hring, -, -⟩ := s.fill.2.decodeFrame_frame n.toNat
    rw [hring]
    exact ⟨fun _ => .inr ⟨n, rfl⟩, fun k hk => State.fill_ring_window hs hk⟩
  | decode n hn =>
    obtain ⟨-, hring, -, -⟩ := s.decodeFrame_frame n.toNat
    rw [hring]
    exact ⟨fun hne => absurd rfl hne, fun _ _ => rfl⟩
  | reset r => exact ⟨fun hne => absurd rfl hne, fun _ _ => rfl⟩
  | emit bs m r => exact ⟨fun hne => absurd rfl hne, fun _ _ => rfl⟩
  | answer r => exact ⟨fun hne => absurd rfl hne, fun _ _ => rfl⟩

/-- Settles O49: a decode leaves OUT from its `out_size` on, and nothing else writes OUT. -/
theorem outWrittenOnlyByTheDecoder : Obligations.OutWrittenOnlyByTheDecoder := by
  intro i s t h a hne
  cases exec_effect h with
  | decode n hn => exact ⟨n, .inl rfl, Nat.not_le.1 fun hle => hne (s.decodeFrame_outByte hle)⟩
  | recv n hn =>
    exact ⟨n, .inr rfl, Nat.not_le.1 fun hle => hne ((s.fill.2.decodeFrame_outByte hle).trans (s.fill_outByte a))⟩
  | fill r => exact absurd (s.fill_outByte a) hne
  | recvFailed n r => exact absurd (s.fill_outByte a) hne
  | reset r => exact absurd rfl hne
  | emit bs m r => exact absurd rfl hne
  | answer r => exact absurd rfl hne

/-- Settles O50: an instruction appends to `tx_line` and takes from the front of `rx_pending`; only the line's own step appends there. -/
theorem linesAreFifo : Obligations.LinesAreFifo := by
  intro s t h
  rcases step_next h with ⟨hev, rfl⟩ | ⟨e, rest, hev, ⟨i, hexec, hnotLine⟩ | ⟨a, bs, rfl, -, rfl⟩ | ⟨bs, rfl, rfl⟩⟩
  · exact ⟨List.prefix_rfl, 0, by simp [hev]⟩
  · obtain ⟨htx, k, hrx⟩ := exec_lines hexec
    refine ⟨htx, k, ?_⟩
    split
    · rename_i bytes _ hline
      rw [hev] at hline
      exact absurd (List.cons.inj hline).1 (hnotLine bytes)
    · rw [hrx, List.append_nil]
  · exact ⟨List.prefix_rfl, 0, by simp [hev]⟩
  · exact ⟨List.prefix_rfl, 0, by simp [hev]⟩

/-- Settles O44: the two registers are 0 at launch, and construction tests `C = 0` alone. -/
theorem stateAfterReset : Obligations.StateAfterReset := by
  refine ⟨rfl, rfl, rfl, fun p => ?_, rfl⟩
  unfold construct
  split
  · rename_i hzero
    simp [hzero]
  · rename_i hpos
    simp [hpos]

/-- Settles O45: the registers are 0 below C = 256, and both memories list nothing. -/
theorem invAtReset : Obligations.InvAtReset := by
  obtain ⟨hring, hout⟩ := reset_memories_wf
  exact ⟨⟨by decide, by decide, by decide, hring, List.forall_mem_nil _⟩, hout, List.forall_mem_nil _⟩

end Sys2Proof.Machine
end

section
/-! PROOFS. The step of a command string, and the reads of a refill that the transport answers with too much. -/

namespace Sys2Proof.Machine

/-! ### The step of a command string (R57, R100) -/

/-- A command string that decodes runs as its instruction, its event taken off. -/
theorem step_command {s : State} {bytes : List Byte} {rest : List Event} {i : Instr} (h : s.events = .command bytes :: rest)
    (hdecode : decodeCommand bytes = .ok i) : step s = exec i { s with events := rest } := by
  simp only [step, State.fetch, h, hdecode]

/-! ### When a refill's read breaks the contract (R61, R142) -/

/-- A queued answer breaks the contract exactly above the request. -/
theorem State.readBreach_of_readAnswers_cons {s : State} {a : Int} {rest : List Int} (h : s.readAnswers = a :: rest) (n : Nat) :
    s.readBreach n = true ↔ (n : Int) < a := by
  simp [State.readBreach, h]

/-- A queued answer within the request and what is pending is what the read returns. -/
theorem State.readResult_of_readAnswers_cons {s : State} {a n : Nat} {rest : List Int} (h : s.readAnswers = (a : Int) :: rest)
    (hn : a ≤ n) (hpending : a ≤ s.rxPending.length) : s.readResult n = a := by
  have hanswer : s.readAnswer = a := by simp only [State.readAnswer, h]
  rw [State.readResult, hanswer, if_neg (by omega)]
  omega

/-- Phase 1, which fills up to `C`. -/
theorem State.fillBreach_of_phase1 {s : State} (hend : s.ringEnd < s.params.ringCap)
    (h : s.readBreach (s.params.ringCap - s.ringEnd) = true) : s.fillBreach = true := by
  have hroom : s.recvSize ≠ s.params.ringCap := by unfold State.ringEnd at hend; omega
  simp [State.fillBreach, hroom, hend, h]

/-- The one read of a window that reaches `C` or wraps. -/
theorem State.fillBreach_of_wrapped {s : State} (hroom : s.recvSize < s.params.ringCap) (hend : ¬s.ringEnd < s.params.ringCap)
    (h : s.readBreach (s.params.ringCap - s.recvSize) = true) : s.fillBreach = true := by
  simp [State.fillBreach, hroom.ne, hend, h]

/-- Phase 2, which a full phase 1 with the head not at 0 leads to. -/
theorem State.fillBreach_of_phase2 {s : State} (hend : s.ringEnd < s.params.ringCap) (hidx : s.recvIdx ≠ 0)
    (hfull : s.readResult (s.params.ringCap - s.ringEnd) = (s.params.ringCap - s.ringEnd : Nat))
    (h : s.readTaken.readBreach s.recvIdx = true) : s.fillBreach = true := by
  have hroom : s.recvSize ≠ s.params.ringCap := by unfold State.ringEnd at hend; omega
  simp [State.fillBreach, hroom, hend, hidx, hfull, h]

/-- FILL_BUFFER and, with an `out_size` that is not refused, RECV_FRAME end in the fault, R269. -/
theorem exec_faults_of_fillBreach {s : State} {n : U32} (hn : n.toNat ≤ s.params.outCap) (h : s.fillBreach = true) :
    exec .fillBuffer s = .fault .transportOverRead ∧ exec (.recvFrame n) s = .fault .transportOverRead := by
  simp [exec, execFillBuffer, execRecvFrame, h, Nat.not_lt.2 hn]

/-! ### The obligations -/

/-- Settles O1: the equation of `step` for a command string. -/
theorem stepRunsDecodedCommand : Obligations.StepRunsDecodedCommand := fun _ _ _ _ => step_command

/-- Settles O22: the region of the window's end selects the first read; phase 2 follows a first read answered in full. -/
theorem overReadFaults : Obligations.OverReadFaults := by
  constructor
  · intro s n a rest _ hroom hn hanswers hover
    refine exec_faults_of_fillBreach hn ?_
    have breach := fun m => (State.readBreach_of_readAnswers_cons hanswers m).2
    by_cases hend : s.recvIdx + s.recvSize < s.params.ringCap
    · rw [if_pos hend] at hover
      exact State.fillBreach_of_phase1 hend (breach _ hover)
    · rw [if_neg hend] at hover
      exact State.fillBreach_of_wrapped hroom hend (breach _ hover)
  · intro s n a1 a2 rest _ _ hn hend hidx hanswers hfull hpending hover
    have htail : s.readTaken.readAnswers = a2 :: rest := by rw [State.readTaken_readAnswers, hanswers, List.tail_cons]
    subst hfull
    exact exec_faults_of_fillBreach hn <| State.fillBreach_of_phase2 hend hidx
      (State.readResult_of_readAnswers_cons hanswers le_rfl hpending) ((State.readBreach_of_readAnswers_cons htail _).2 hover)

end Sys2Proof.Machine
end

section
/-! PROOFS. Two runs of the decoder side by side: states that agree on the window and on OUT stay in agreement through every move. -/

namespace Sys2Proof.Machine

/-! ### States that a decode cannot tell apart (R30, R51, 92 D5 and D41) -/

/-- The same parameters, raw bytes held and OUT, wherever the heads stand and whatever lies outside the windows. -/
structure State.SameView (s t : State) : Prop where
  /-- the parameters and the bytes held, R24 -/
  window : s.SameWindow t
  /-- what OUT lists, R26 -/
  out : s.out = t.out
  /-- which free values stand in the rest of OUT, R174 -/
  outDraws : s.outDraws = t.outDraws

section
variable {s t : State} (h : s.SameView t)
include h

theorem State.SameView.params : s.params = t.params := h.window.1

theorem State.SameView.recvSize : s.recvSize = t.recvSize := by
  rw [← State.window_length, ← State.window_length, h.window.2]

theorem State.SameView.commit (n : Nat) : (s.commit n).SameView (t.commit n) := by
  obtain ⟨⟨hparams, hwindow⟩, hout, hdraws⟩ := h
  exact ⟨⟨hparams, by rw [State.window_commit, State.window_commit, hwindow]⟩, hout, hdraws⟩

theorem State.SameView.freeOut (n : Nat) : (s.freeOut n).SameView (t.freeOut n) :=
  ⟨h.window, congrArg (Memory.forget n) h.out, congrArg (n :: ·) h.outDraws⟩

theorem State.SameView.writeOut (a : Nat) (bs : List Byte) : (s.writeOut a bs).SameView (t.writeOut a bs) :=
  ⟨h.window, congrArg (Memory.putAll · a bs) h.out, h.outDraws⟩

theorem State.SameView.ret (v : Int) : (s.ret v).SameView (t.ret v) := ⟨h.window, h.out, h.outDraws⟩

/-- An attempt reads the window alone. -/
theorem State.SameView.attempt (outSize : Nat) (hpos : 0 < s.recvSize) : s.attempt outSize = t.attempt outSize := by
  rw [State.attempt_eq s outSize hpos, State.attempt_eq t outSize (h.recvSize ▸ hpos), h.params, h.window.2]

end

/-! ### The decoder on two such states (R160 to R174) -/

/-- The outer loop takes the same bytes off both windows and accepts the same frame. -/
theorem State.SameView.decodeLoop {s t : State} (h : s.SameView t) (outSize fuel : Nat) :
    (decodeLoop outSize fuel s).1.SameView (decodeLoop outSize fuel t).1 ∧
      (decodeLoop outSize fuel s).2 = (decodeLoop outSize fuel t).2 := by
  induction fuel generalizing s t with
  | zero => exact ⟨h, rfl⟩
  | succ fuel ih =>
    simp only [Machine.decodeLoop, ← h.recvSize]
    split
    · exact ⟨h, rfl⟩
    · rename_i hheld
      rw [← h.attempt outSize (Nat.zero_lt_of_lt (Nat.not_lt.1 hheld))]
      split
      · exact ih (h.commit 1)
      · exact ⟨h, rfl⟩
      · exact ⟨h.commit _, rfl⟩

/-- The same frame, or none, leaves the same OUT and the same result. -/
theorem State.SameView.finishDecode {s t : State} (h : s.SameView t) (outSize : Nat) (frame : Option (List Byte)) :
    (finishDecode outSize s frame).SameView (finishDecode outSize t frame) ∧
      (finishDecode outSize s frame).response = (finishDecode outSize t frame).response := by
  cases frame with
  | none => exact ⟨(h.freeOut outSize).ret 0, rfl⟩
  | some bytes =>
    simp only [Machine.finishDecode]
    split
    · exact ⟨(h.freeOut outSize).ret 0, rfl⟩
    · exact ⟨((h.freeOut outSize).writeOut 0 bytes).ret _, rfl⟩

theorem State.SameView.decodeFrame {s t : State} (h : s.SameView t) (outSize : Nat) :
    (s.decodeFrame outSize).SameView (t.decodeFrame outSize) ∧
      (s.decodeFrame outSize).response = (t.decodeFrame outSize).response := by
  simp only [State.decodeFrame, ← h.recvSize]
  split
  · exact ⟨h.ret 0, rfl⟩
  · obtain ⟨hview, hframe⟩ := h.decodeLoop outSize s.recvSize
    rw [← hframe]
    exact hview.finishDecode outSize _

/-- DECODE_FRAME completes exactly within OUT_CAP, R160. -/
theorem exec_decodeFrame_next {n : U32} {s s' : State} :
    exec (.decodeFrame n) s = .next s' ↔ n.toNat ≤ s.params.outCap ∧ s.decodeFrame n.toNat = s' := by
  simp only [exec, execDecodeFrame]
  split
  · rename_i hbeyond
    simp [Nat.not_le.2 hbeyond]
  · rename_i hfits
    simp [Nat.not_lt.1 hfits]

/-! ### The obligation -/

/-- Settles O34: the decoder keeps two states that agree on window and OUT in agreement, and answers the same in both. -/
theorem decodeSeesOnlyTheWindow : Obligations.DecodeSeesOnlyTheWindow := by
  intro s t s' n _ _ hwindow hout hdraws hexec
  have h : s.SameView t := ⟨hwindow, hout, hdraws⟩
  obtain ⟨hn, rfl⟩ := exec_decodeFrame_next.1 hexec
  obtain ⟨hview, hresponse⟩ := h.decodeFrame n.toNat
  exact ⟨_, exec_decodeFrame_next.2 ⟨h.params ▸ hn, rfl⟩, hview.window, hresponse, hview.out, hview.outDraws⟩

end Sys2Proof.Machine
end

section
/-! PROOFS. The decoders of the three ports, row by row: the bytes each row is read from, and no others. Decoding and encoding are
inverse to each other, and what is reserved is refused. -/

namespace Sys2Proof

/-! ### Each field reader answers exactly on the encoding of its field (R84, R100, R101) -/

theorem readThen_eq_ok {α β : Type} {x : Read α} {k : α → List Byte → Except DecodeError β} {b : β} :
    readThen x k = .ok b ↔ ∃ a r, x = .ok (a, r) ∧ k a r = .ok b := by
  rcases x with e | ⟨a, r⟩ <;> simp [readThen]

theorem takeU8_eq_ok {bs r : List Byte} {v : Byte} : takeU8 bs = .ok (v, r) ↔ bs = v :: r := by
  cases bs <;> simp [takeU8]

theorem takeU16_eq_ok {bs r : List Byte} {v : U16} : takeU16 bs = .ok (v, r) ↔ bs = be16 v ++ r := by
  refine ⟨fun h => ?_, fun h => h ▸ takeU16_be16 v r⟩
  unfold takeU16 at h
  split at h
  · cases h
    rw [be16_beFold]
    rfl
  · cases h

theorem takeU32_eq_ok {bs r : List Byte} {v : U32} : takeU32 bs = .ok (v, r) ↔ bs = be32 v ++ r := by
  refine ⟨fun h => ?_, fun h => h ▸ takeU32_be32 v r⟩
  unfold takeU32 at h
  split at h
  · cases h
    rw [be32_beFold]
    rfl
  · cases h

theorem takeU64_eq_ok {bs r : List Byte} {v : U64} : takeU64 bs = .ok (v, r) ↔ bs = be64 v ++ r := by
  refine ⟨fun h => ?_, fun h => h ▸ takeU64_be64 v r⟩
  unfold takeU64 at h
  split at h
  · cases h
    rw [be64_beFold]
    rfl
  · cases h

/-- The count is the length of what is read, so no longer string comes of it. -/
theorem takeBytes16_eq_ok {bs v r : List Byte} :
    takeBytes16 bs = .ok (v, r) ↔ bs = putBytes16 v ++ r ∧ v.length ≤ Config.maxPayload := by
  refine ⟨fun h => ?_, fun ⟨h, hv⟩ => h ▸ takeBytes16_putBytes16 v r hv⟩
  obtain ⟨m, t, hm, hk⟩ := readThen_eq_ok.1 h
  split at hk
  · rename_i hle
    cases hk
    have hlt := m.isLt
    have hlen : (t.take m.toNat).length = m.toNat := List.length_take_of_le hle
    refine ⟨?_, by simp only [Config.maxPayload]; omega⟩
    rw [putBytes16, hlen, BitVec.ofNat_toNat, BitVec.setWidth_eq, List.append_assoc, List.take_append_drop]
    exact takeU16_eq_ok.1 hm
  · cases hk

theorem takeAddress_eq_ok {bs r : List Byte} {a : Address} : takeAddress bs = .ok (a, r) ↔ bs = putAddress a ++ r := by
  refine ⟨fun h => ?_, fun h => h ▸ takeAddress_putAddress a r⟩
  obtain ⟨tag, t, htag, hk⟩ := readThen_eq_ok.1 h
  rw [takeU8_eq_ok.1 htag]
  split at hk
  · obtain ⟨v, u, hv, hk⟩ := readThen_eq_ok.1 hk
    cases hk
    rw [takeU64_eq_ok.1 hv]
    rfl
  · obtain ⟨v, u, hv, hk⟩ := readThen_eq_ok.1 hk
    cases hk
    rw [takeU16_eq_ok.1 hv]
    rfl
  · cases hk
    rfl
  · cases hk
    rfl
  · cases hk

theorem takeAddress_reserved {tag : Byte} (h : tag ∉ [0x00#8, 0x01#8, 0x02#8, 0x03#8]) (r : List Byte) :
    takeAddress (tag :: r) = .error (.reservedTag tag) := by
  simp only [takeAddress, takeU8_cons, readThen_ok]
  split <;> simp_all

/-! ### Each row of the command port is read from its fields alone (R100) -/

theorem decodeCommand_eq_ok {bs : List Byte} {i : Instr} : decodeCommand bs = .ok i ↔ readCommand bs = .ok (i, []) := by
  unfold decodeCommand
  split <;> simp_all

section
variable {r : List Byte} {i : Instr}

theorem decodeCommand_reset : decodeCommand (0x00#8 :: r) = .ok i ↔ r = [] ∧ i = .reset := by
  rw [decodeCommand_eq_ok]
  simp [readCommand, readFields, and_comm, eq_comm (a := i)]

theorem decodeCommand_sendFrame : decodeCommand (0x01#8 :: r) = .ok i ↔
    ∃ p, r = putBytes16 p ∧ p.length ≤ Config.maxPayload ∧ i = .sendFrame p := by
  rw [decodeCommand_eq_ok]
  simp [readCommand, readFields, readThen_eq_ok, takeBytes16_eq_ok, and_assoc, eq_comm (a := i)]

theorem decodeCommand_fillBuffer : decodeCommand (0x10#8 :: r) = .ok i ↔ r = [] ∧ i = .fillBuffer := by
  rw [decodeCommand_eq_ok]
  simp [readCommand, readFields, and_comm, eq_comm (a := i)]

theorem decodeCommand_decodeFrame : decodeCommand (0x11#8 :: r) = .ok i ↔ ∃ n, r = be32 n ∧ i = .decodeFrame n := by
  rw [decodeCommand_eq_ok]
  simp [readCommand, readFields, readThen_eq_ok, takeU32_eq_ok, eq_comm (a := i)]

theorem decodeCommand_recvFrame : decodeCommand (0x12#8 :: r) = .ok i ↔ ∃ n, r = be32 n ∧ i = .recvFrame n := by
  rw [decodeCommand_eq_ok]
  simp [readCommand, readFields, readThen_eq_ok, takeU32_eq_ok, eq_comm (a := i)]

theorem decodeCommand_parseFrame : decodeCommand (0x20#8 :: r) = .ok i ↔ ∃ n, r = be16 n ∧ i = .parseFrame n := by
  rw [decodeCommand_eq_ok]
  simp [readCommand, readFields, readThen_eq_ok, takeU16_eq_ok, eq_comm (a := i)]

theorem decodeCommand_atCommand : decodeCommand (0x30#8 :: r) = .ok i ↔
    ∃ f a0 a1 ps, r = [f, a0, a1] ++ putBytes16 ps ∧ ps.length ≤ Config.maxPayload ∧ i = .atCommand f a0 a1 ps := by
  rw [decodeCommand_eq_ok]
  simp [readCommand, readFields, readThen_eq_ok, takeU8_eq_ok, takeBytes16_eq_ok, and_assoc, eq_comm (a := i)]

theorem decodeCommand_atQueueParameter : decodeCommand (0x31#8 :: r) = .ok i ↔
    ∃ f a0 a1 ps, r = [f, a0, a1] ++ putBytes16 ps ∧ ps.length ≤ Config.maxPayload ∧ i = .atQueueParameter f a0 a1 ps := by
  rw [decodeCommand_eq_ok]
  simp [readCommand, readFields, readThen_eq_ok, takeU8_eq_ok, takeBytes16_eq_ok, and_assoc, eq_comm (a := i)]

theorem decodeCommand_remoteAt : decodeCommand (0x32#8 :: r) = .ok i ↔
    ∃ f addr o a0 a1 ps, r = f :: putAddress addr ++ [o, a0, a1] ++ putBytes16 ps ∧ ps.length ≤ Config.maxPayload ∧
      i = remoteAtInstr f addr o a0 a1 ps := by
  rw [decodeCommand_eq_ok]
  simp [readCommand, readFields, readThen_eq_ok, takeU8_eq_ok, takeAddress_eq_ok, takeBytes16_eq_ok, and_assoc,
    eq_comm (a := i)]

theorem decodeCommand_transmit : decodeCommand (0x33#8 :: r) = .ok i ↔
    ∃ f addr o d, r = f :: putAddress addr ++ [o] ++ putBytes16 d ∧ d.length ≤ Config.maxPayload ∧
      i = transmitInstr f addr o d := by
  rw [decodeCommand_eq_ok]
  simp [readCommand, readFields, readThen_eq_ok, takeU8_eq_ok, takeAddress_eq_ok, takeBytes16_eq_ok, and_assoc,
    eq_comm (a := i)]

theorem decodeCommand_reserved {c : Byte}
    (h : c ∉ [0x00#8, 0x01#8, 0x10#8, 0x11#8, 0x12#8, 0x20#8, 0x30#8, 0x31#8, 0x32#8, 0x33#8]) :
    decodeCommand (c :: r) = .error (.reservedCode c) := by
  have hread : readFields c r = .error (.reservedCode c) := by
    unfold readFields
    split <;> simp_all
  simp only [decodeCommand, readCommand, hread]

/-! ### Each row of the outgoing port is read from its layout (R90, R95) -/

theorem decodeOutgoing_atCommand : decodeOutgoing (0x08#8 :: r) = .ok i ↔
    ∃ f a0 a1 ps, r = [f, a0, a1] ++ ps ∧ i = .apiTxAtCommand f a0 a1 ps := by
  unfold decodeOutgoing
  rcases r with _ | ⟨f, _ | ⟨a0, _ | ⟨a1, ps⟩⟩⟩ <;> simp [eq_comm (a := i)]

theorem decodeOutgoing_atQueueParameter : decodeOutgoing (0x09#8 :: r) = .ok i ↔
    ∃ f a0 a1 ps, r = [f, a0, a1] ++ ps ∧ i = .apiTxAtQueueParameter f a0 a1 ps := by
  unfold decodeOutgoing
  rcases r with _ | ⟨f, _ | ⟨a0, _ | ⟨a1, ps⟩⟩⟩ <;> simp [eq_comm (a := i)]

theorem decodeOutgoing_remoteAt : decodeOutgoing (0x17#8 :: r) = .ok i ↔
    ∃ f a64 a16 o a0 a1 ps, r = f :: be64 a64 ++ be16 a16 ++ [o, a0, a1] ++ ps ∧
      i = .apiTxRemoteAtCommand f a64 a16 o a0 a1 ps := by
  simp only [decodeOutgoing, readThen_eq_ok, takeU8_eq_ok, takeU64_eq_ok, takeU16_eq_ok]
  constructor
  · rintro ⟨f, _, rfl, a64, _, rfl, a16, t, rfl, h⟩
    rcases t with _ | ⟨o, _ | ⟨a0, _ | ⟨a1, ps⟩⟩⟩ <;> cases h
    exact ⟨f, a64, a16, o, a0, a1, ps, by simp, rfl⟩
  · rintro ⟨f, a64, a16, o, a0, a1, ps, rfl, rfl⟩
    exact ⟨f, be64 a64 ++ (be16 a16 ++ (o :: a0 :: a1 :: ps)), by simp, a64, _, rfl, a16, _, rfl, rfl⟩

theorem decodeOutgoing_transmit64 : decodeOutgoing (0x00#8 :: r) = .ok i ↔
    ∃ f a64 o d, r = f :: be64 a64 ++ [o] ++ d ∧ i = .apiTxTransmit64 f a64 o d := by
  simp [decodeOutgoing, readThen_eq_ok, takeU8_eq_ok, takeU64_eq_ok, eq_comm (a := i)]

theorem decodeOutgoing_transmit16 : decodeOutgoing (0x01#8 :: r) = .ok i ↔
    ∃ f a16 o d, r = f :: be16 a16 ++ [o] ++ d ∧ i = .apiTxTransmit16 f a16 o d := by
  simp [decodeOutgoing, readThen_eq_ok, takeU8_eq_ok, takeU16_eq_ok, eq_comm (a := i)]

theorem decodeOutgoing_unknown {id : Byte} (h : id ∉ [0x08#8, 0x09#8, 0x17#8, 0x00#8, 0x01#8]) :
    decodeOutgoing (id :: r) = .error (.unknownApiId id) := by
  unfold decodeOutgoing
  split <;> simp_all

/-! ### The incoming port reads the API id alone (R88, R96) -/

theorem decodeIncoming_unknown {id : Byte} (h : id ∉ [0x8A#8, 0x89#8, 0x88#8, 0x97#8, 0x80#8, 0x81#8]) :
    decodeIncoming (id :: r) = .error (.unknownApiId id) := by
  unfold decodeIncoming
  split <;> simp_all

end

/-! ### Bytes that decode are the encoding (R100 to R102, R90, R92) -/

theorem remoteAtInstr_port (f : Byte) (addr : Address) (o a0 a1 : Byte) (ps : List Byte) :
    (remoteAtInstr f addr o a0 a1 ps).port = .command := by
  cases addr <;> rfl

theorem encode_remoteAtInstr (f : Byte) (addr : Address) (o a0 a1 : Byte) (ps : List Byte) :
    encode (remoteAtInstr f addr o a0 a1 ps) = [0x32#8, f] ++ putAddress addr ++ [o, a0, a1] ++ putBytes16 ps := by
  cases addr <;> rfl

theorem transmitInstr_port (f : Byte) (addr : Address) (o : Byte) (d : List Byte) :
    (transmitInstr f addr o d).port = .command := by
  cases addr <;> rfl

theorem encode_transmitInstr (f : Byte) (addr : Address) (o : Byte) (d : List Byte) :
    encode (transmitInstr f addr o d) = [0x33#8, f] ++ putAddress addr ++ [o] ++ putBytes16 d := by
  cases addr <;> rfl

theorem encode_of_decodeCommand {bs : List Byte} {i : Instr} (h : decodeCommand bs = .ok i) :
    i.port = .command ∧ encode i = bs := by
  rcases bs with _ | ⟨c, r⟩
  · cases h
  by_cases hc : c ∈ [0x00#8, 0x01#8, 0x10#8, 0x11#8, 0x12#8, 0x20#8, 0x30#8, 0x31#8, 0x32#8, 0x33#8]
  · simp only [List.mem_cons, List.not_mem_nil, or_false] at hc
    rcases hc with rfl | rfl | rfl | rfl | rfl | rfl | rfl | rfl | rfl | rfl
    · obtain ⟨rfl, rfl⟩ := decodeCommand_reset.1 h
      exact ⟨rfl, rfl⟩
    · obtain ⟨p, rfl, _, rfl⟩ := decodeCommand_sendFrame.1 h
      exact ⟨rfl, rfl⟩
    · obtain ⟨rfl, rfl⟩ := decodeCommand_fillBuffer.1 h
      exact ⟨rfl, rfl⟩
    · obtain ⟨n, rfl, rfl⟩ := decodeCommand_decodeFrame.1 h
      exact ⟨rfl, rfl⟩
    · obtain ⟨n, rfl, rfl⟩ := decodeCommand_recvFrame.1 h
      exact ⟨rfl, rfl⟩
    · obtain ⟨n, rfl, rfl⟩ := decodeCommand_parseFrame.1 h
      exact ⟨rfl, rfl⟩
    · obtain ⟨f, a0, a1, ps, rfl, _, rfl⟩ := decodeCommand_atCommand.1 h
      exact ⟨rfl, rfl⟩
    · obtain ⟨f, a0, a1, ps, rfl, _, rfl⟩ := decodeCommand_atQueueParameter.1 h
      exact ⟨rfl, rfl⟩
    · obtain ⟨f, addr, o, a0, a1, ps, rfl, _, rfl⟩ := decodeCommand_remoteAt.1 h
      exact ⟨remoteAtInstr_port .., encode_remoteAtInstr ..⟩
    · obtain ⟨f, addr, o, d, rfl, _, rfl⟩ := decodeCommand_transmit.1 h
      exact ⟨transmitInstr_port .., encode_transmitInstr ..⟩
  · rw [decodeCommand_reserved hc] at h
    cases h

theorem encode_of_decodeOutgoing {bs : List Byte} {i : Instr} (h : decodeOutgoing bs = .ok i) :
    i.port = .outgoing ∧ encode i = bs := by
  rcases bs with _ | ⟨id, r⟩
  · cases h
  by_cases hid : id ∈ [0x08#8, 0x09#8, 0x17#8, 0x00#8, 0x01#8]
  · simp only [List.mem_cons, List.not_mem_nil, or_false] at hid
    rcases hid with rfl | rfl | rfl | rfl | rfl
    · obtain ⟨f, a0, a1, ps, rfl, rfl⟩ := decodeOutgoing_atCommand.1 h
      exact ⟨rfl, rfl⟩
    · obtain ⟨f, a0, a1, ps, rfl, rfl⟩ := decodeOutgoing_atQueueParameter.1 h
      exact ⟨rfl, rfl⟩
    · obtain ⟨f, a64, a16, o, a0, a1, ps, rfl, rfl⟩ := decodeOutgoing_remoteAt.1 h
      exact ⟨rfl, rfl⟩
    · obtain ⟨f, a64, o, d, rfl, rfl⟩ := decodeOutgoing_transmit64.1 h
      exact ⟨rfl, rfl⟩
    · obtain ⟨f, a16, o, d, rfl, rfl⟩ := decodeOutgoing_transmit16.1 h
      exact ⟨rfl, rfl⟩
  · rw [decodeOutgoing_unknown hid] at h
    cases h

theorem encode_of_decodeIncoming {bs : List Byte} {i : Instr} (h : decodeIncoming bs = .ok i) :
    i.port = .incoming ∧ encode i = bs := by
  unfold decodeIncoming at h
  split at h <;> cases h <;> exact ⟨rfl, rfl⟩

/-! ### What is reserved on the command port is refused (R102) -/

namespace Machine

theorem step_command_reserved {s : State} {bytes : List Byte} {rest : List Event} {e : DecodeError}
    (h : s.events = .command bytes :: rest) (hdecode : decodeCommand bytes = .error e) :
    step s = .refused (.reservedEncoding e) := by
  simp only [step, State.fetch, h, hdecode]

theorem decodeCommand_reservedTag {c f tag : Byte} {r : List Byte} (hc : c = 0x32 ∨ c = 0x33)
    (h : tag ∉ [0x00#8, 0x01#8, 0x02#8, 0x03#8]) : decodeCommand (c :: f :: tag :: r) = .error (.reservedTag tag) := by
  have herr := takeAddress_reserved h r
  rcases hc with rfl | rfl <;> simp [decodeCommand, readCommand, readFields, takeU8_cons, readThen, herr]

theorem atLayout_length (id f a0 a1 : Byte) (ps : List Byte) : (atLayout id f a0 a1 ps).length = 4 + ps.length := by
  simp [atLayout]
  omega

theorem remoteAtPayload_length (f : Byte) (addr : Address) (o a0 a1 : Byte) (ps : List Byte) :
    (remoteAtPayload f addr o a0 a1 ps).length = 15 + ps.length := by
  cases addr <;>
    simp [remoteAtPayload, remoteAtLayout, fields64, be16, be64, noAddr16, noAddr64, broadcast16, broadcast64] <;> omega

theorem transmitLayout_length (id f : Byte) (field : List Byte) (o : Byte) (d : List Byte) :
    (transmitLayout id f field o d).length = 3 + field.length + d.length := by
  simp [transmitLayout]
  omega

theorem execDecodeFrame_beyond {s : State} {n : U32} (h : s.params.outCap < n.toNat) :
    exec (.decodeFrame n) s = .refused .outSizeTooLarge := if_pos h

theorem execRecvFrame_beyond {s : State} {n : U32} (h : s.params.outCap < n.toNat) :
    exec (.recvFrame n) s = .refused .outSizeTooLarge := if_pos h

theorem execParseFrame_beyond {s : State} {n : U16} (h : s.params.outCap < n.toNat) :
    exec (.parseFrame n) s = .refused .sizeTooLarge := if_pos h

/-! ### The obligations -/

/-- Settles O6: each row by what its decoder reads, its operands filled in. -/
theorem decodeOfEncodeIsTheInstruction : Obligations.DecodeOfEncodeIsTheInstruction := by
  intro i hwf
  cases i with
  | reset => exact decodeCommand_reset.2 ⟨rfl, rfl⟩
  | sendFrame p => exact decodeCommand_sendFrame.2 ⟨p, rfl, of_decide_eq_true hwf, rfl⟩
  | fillBuffer => exact decodeCommand_fillBuffer.2 ⟨rfl, rfl⟩
  | decodeFrame n => exact decodeCommand_decodeFrame.2 ⟨n, rfl, rfl⟩
  | recvFrame n => exact decodeCommand_recvFrame.2 ⟨n, rfl, rfl⟩
  | parseFrame n => exact decodeCommand_parseFrame.2 ⟨n, rfl, rfl⟩
  | atCommand f a0 a1 ps => exact decodeCommand_atCommand.2 ⟨f, a0, a1, ps, rfl, of_decide_eq_true hwf, rfl⟩
  | atQueueParameter f a0 a1 ps => exact decodeCommand_atQueueParameter.2 ⟨f, a0, a1, ps, rfl, of_decide_eq_true hwf, rfl⟩
  | remoteAtCommandA64 f a o a0 a1 ps =>
    exact decodeCommand_remoteAt.2 ⟨f, .addr64 a, o, a0, a1, ps, rfl, of_decide_eq_true hwf, rfl⟩
  | remoteAtCommandA16 f x o a0 a1 ps =>
    exact decodeCommand_remoteAt.2 ⟨f, .addr16 x, o, a0, a1, ps, rfl, of_decide_eq_true hwf, rfl⟩
  | remoteAtCommandB64 f o a0 a1 ps =>
    exact decodeCommand_remoteAt.2 ⟨f, .addr64Broadcast, o, a0, a1, ps, rfl, of_decide_eq_true hwf, rfl⟩
  | remoteAtCommandB16 f o a0 a1 ps =>
    exact decodeCommand_remoteAt.2 ⟨f, .addr16Broadcast, o, a0, a1, ps, rfl, of_decide_eq_true hwf, rfl⟩
  | transmitA64 f a o d => exact decodeCommand_transmit.2 ⟨f, .addr64 a, o, d, rfl, of_decide_eq_true hwf, rfl⟩
  | transmitA16 f x o d => exact decodeCommand_transmit.2 ⟨f, .addr16 x, o, d, rfl, of_decide_eq_true hwf, rfl⟩
  | transmitB64 f o d => exact decodeCommand_transmit.2 ⟨f, .addr64Broadcast, o, d, rfl, of_decide_eq_true hwf, rfl⟩
  | transmitB16 f o d => exact decodeCommand_transmit.2 ⟨f, .addr16Broadcast, o, d, rfl, of_decide_eq_true hwf, rfl⟩
  | apiTxAtCommand f a0 a1 ps => exact decodeOutgoing_atCommand.2 ⟨f, a0, a1, ps, rfl, rfl⟩
  | apiTxAtQueueParameter f a0 a1 ps => exact decodeOutgoing_atQueueParameter.2 ⟨f, a0, a1, ps, rfl, rfl⟩
  | apiTxRemoteAtCommand f a x o a0 a1 ps => exact decodeOutgoing_remoteAt.2 ⟨f, a, x, o, a0, a1, ps, rfl, rfl⟩
  | apiTxTransmit64 f a o d => exact decodeOutgoing_transmit64.2 ⟨f, a, o, d, rfl, rfl⟩
  | apiTxTransmit16 f x o d => exact decodeOutgoing_transmit16.2 ⟨f, x, o, d, rfl, rfl⟩
  | apiRxModemStatus body => rfl
  | apiRxTransmitStatus body => rfl
  | apiRxAtResponse body => rfl
  | apiRxRemoteAtResponse body => rfl
  | apiRxReceive64 body => rfl
  | apiRxReceive16 body => rfl

/-- Settles O7: the inversion of each port's decoder. -/
theorem decodedBytesAreTheEncoding : Obligations.DecodedBytesAreTheEncoding := by
  intro port bytes i h
  cases port with
  | command => exact encode_of_decodeCommand h
  | outgoing => exact encode_of_decodeOutgoing h
  | incoming => exact encode_of_decodeIncoming h

/-- Settles O5: reserved codes and tags stop the decoder by name, and each builder's payload has the length of its layout. -/
theorem reservedCommandsRefused : Obligations.ReservedCommandsRefused := by
  refine ⟨fun s bytes rest e => step_command_reserved, fun c r => decodeCommand_reserved,
    fun c f tag r => decodeCommand_reservedTag, fun bytes i h => (encode_of_decodeCommand h).2.symm,
    fun s n h => ⟨execDecodeFrame_beyond h, execRecvFrame_beyond h⟩, fun s n => execParseFrame_beyond, ?_⟩
  intro s f a0 a1 o x y bs
  have at_long (h : 65535 < 4 + bs.length) (id : Byte) : 65535 < (atLayout id f a0 a1 bs).length := by
    rwa [atLayout_length]
  have remote_long (h : 65535 < 15 + bs.length) (addr : Address) : 65535 < (remoteAtPayload f addr o a0 a1 bs).length := by
    rwa [remoteAtPayload_length]
  have wide_long (h : 65535 < 11 + bs.length) (field : List Byte) (hfield : field.length = 8) :
      65535 < (transmitLayout 0x00 f field o bs).length := by
    rwa [transmitLayout_length, hfield]
  have short_long (h : 65535 < 5 + bs.length) (field : List Byte) (hfield : field.length = 2) :
      65535 < (transmitLayout 0x01 f field o bs).length := by
    rwa [transmitLayout_length, hfield]
  refine ⟨fun h => emitPayload_tooLong h s, fun h => ⟨?_, ?_⟩, fun h => ⟨?_, ?_, ?_, ?_⟩, fun h => ⟨?_, ?_⟩, fun h => ⟨?_, ?_⟩⟩
  · exact emitPayload_tooLong (at_long h 0x08) s
  · exact emitPayload_tooLong (at_long h 0x09) s
  · exact emitPayload_tooLong (remote_long h (.addr64 x)) s
  · exact emitPayload_tooLong (remote_long h (.addr16 y)) s
  · exact emitPayload_tooLong (remote_long h .addr64Broadcast) s
  · exact emitPayload_tooLong (remote_long h .addr16Broadcast) s
  · exact emitPayload_tooLong (wide_long h (be64 x) rfl) s
  · exact emitPayload_tooLong (wide_long h broadcast64 rfl) s
  · exact emitPayload_tooLong (short_long h (be16 y) rfl) s
  · exact emitPayload_tooLong (short_long h broadcast16 rfl) s

end Machine
end Sys2Proof
end

section
/-! PROOFS. The encoder's wire bytes: the escape transform, the delimiter and the escape pairs, the raw length, the checksum, and the
transport's answers to the bytes of a frame. -/

namespace Sys2Proof.Machine

/-! ### The escape transform (R81, R82, R86) -/

theorem inEsc_iff {b : Byte} : inEsc b = true ↔ b ∈ [0x7E#8, 0x7D#8, 0x11#8, 0x13#8] := by
  simp [inEsc, or_assoc]

theorem esc_eq_ite (b : Byte) : esc b = if b ∈ [0x7E#8, 0x7D#8, 0x11#8, 0x13#8] then [0x7D#8, b ^^^ 0x20#8] else [b] := by
  simp only [esc, inEsc_iff]
  rfl

theorem esc_length (b : Byte) : (esc b).length = if inEsc b then 2 else 1 := by
  unfold esc
  split <;> rfl

/-- The second byte of an escape pair is not in the escape set. -/
theorem inEsc_xor {b : Byte} (h : inEsc b = true) : inEsc (b ^^^ 0x20#8) = false := by
  rw [inEsc_iff] at h
  simp only [List.mem_cons, List.not_mem_nil, or_false] at h
  rcases h with rfl | rfl | rfl | rfl <;> decide

/-- A raw byte of the escape set is the escape byte. -/
theorem eq_escapeByte_of_mem_esc {b w : Byte} (hw : w ∈ esc b) (hesc : inEsc w = true) : w = escapeByte := by
  unfold esc at hw
  split at hw
  · rename_i hb
    rcases List.mem_pair.1 hw with rfl | rfl
    · rfl
    · cases hesc.symm.trans (inEsc_xor hb)
  · rename_i hb
    rw [List.mem_singleton.1 hw] at hesc
    exact absurd hesc hb

/-- Of the escape set only the escape byte stands in an escaped string. -/
theorem not_mem_flatMap_esc {bs : List Byte} {w : Byte} (hesc : inEsc w = true) (hne : w ≠ escapeByte) :
    w ∉ bs.flatMap esc := by
  intro hw
  obtain ⟨b, _, hb⟩ := List.mem_flatMap.1 hw
  exact hne (eq_escapeByte_of_mem_esc hb hesc)

/-- An escape byte is the first of a pair. -/
theorem pair_of_escapeByte {bs : List Byte} {k : Nat} (h : (bs.flatMap esc)[k]? = some escapeByte) :
    ∃ b, (bs.flatMap esc)[k + 1]? = some b ∧ inEsc (b ^^^ 0x20#8) = true := by
  induction bs generalizing k with
  | nil => simp at h
  | cons b bs ih =>
    by_cases hb : inEsc b = true
    · have hcons : (b :: bs).flatMap esc = escapeByte :: (b ^^^ 0x20#8) :: bs.flatMap esc := by
        simp [esc, hb]
      rw [hcons] at h ⊢
      match k with
      | 0 => exact ⟨b ^^^ 0x20#8, rfl, by rwa [BitVec.xor_assoc, BitVec.xor_self, BitVec.xor_zero]⟩
      | 1 =>
        have hsecond : b ^^^ 0x20#8 = escapeByte := by simpa using h
        have hclash := inEsc_xor hb
        rw [hsecond] at hclash
        cases hclash
      | k + 2 => exact ih h
    · have hcons : (b :: bs).flatMap esc = b :: bs.flatMap esc := by simp [esc, hb]
      rw [hcons] at h ⊢
      match k with
      | 0 =>
        have hfirst : b = escapeByte := by simpa using h
        exact absurd (by rw [hfirst]; rfl) hb
      | k + 1 => exact ih h

theorem flatMap_esc_length (bs : List Byte) : (bs.flatMap esc).length = bs.length + bs.countP inEsc := by
  induction bs with
  | nil => rfl
  | cons b bs ih =>
    rw [List.flatMap_cons, List.length_append, ih, esc_length, List.length_cons, List.countP_cons]
    split <;> omega

theorem frameBody_length (p : List Byte) : (frameBody p).length = p.length + 3 := by
  simp [frameBody, be16]

/-! ### The checksum (R85) -/

theorem sum8_append (as bs : List Byte) : sum8 (as ++ bs) = sum8 as + sum8 bs := by
  induction as with
  | nil => simp [sum8]
  | cons a as ih => rw [List.cons_append, sum8_cons, sum8_cons, ih, BitVec.add_assoc]

theorem sum8_toNat (bs : List Byte) : (sum8 bs).toNat = (bs.map BitVec.toNat).sum % 256 := by
  induction bs with
  | nil => rfl
  | cons b bs ih => rw [sum8_cons, BitVec.toNat_add, ih, List.map_cons, List.sum_cons, Nat.add_mod_mod]

theorem checksumOf_toNat (p : List Byte) : (checksumOf p).toNat = 0xFF - (p.map BitVec.toNat).sum % 256 := by
  rw [checksumOf, BitVec.toNat_sub, sum8_toNat]
  have : (p.map BitVec.toNat).sum % 256 < 256 := Nat.mod_lt _ (by decide)
  simp
  omega

theorem validSum_iff_toNat (bs : List Byte) : validSum (sum8 bs) = true ↔ (bs.map BitVec.toNat).sum % 256 = 0xFF := by
  rw [validSum, beq_iff_eq, ← BitVec.toNat_inj, sum8_toNat]
  rfl

/-- One checksum byte is valid, and it is the encoder's. -/
theorem validSum_iff_checksumOf (p : List Byte) (c : Byte) : validSum (sum8 (p ++ [c])) = true ↔ c = checksumOf p := by
  have hc : sum8 [c] = c := by simp [sum8]
  rw [validSum, beq_iff_eq, sum8_append, hc, checksumOf]
  bv_omega

/-! ### The offers of a frame and their stages (R120 to R125, R261) -/

theorem frameOffers_bytes (p : List Byte) : (frameOffers p).map Prod.fst = wireOf p := by
  simp [frameOffers_stages, wireOf, frameBody, Function.comp_def]

theorem frameOffers_length (p : List Byte) : (frameOffers p).length = (wireOf p).length := by
  rw [← frameOffers_bytes, List.length_map]

theorem frameOffers_stageAt {p : List Byte} {k : Nat} (h : k < (wireOf p).length) :
    ((frameOffers p).map Prod.snd)[k]? = some (stageAt p k) := by
  have hstages : (frameOffers p).map Prod.snd =
      .delim :: (List.replicate ((be16 (BitVec.ofNat 16 p.length)).flatMap esc).length Stage.len ++
        (List.replicate (p.flatMap esc).length Stage.payload ++ List.replicate (esc (checksumOf p)).length Stage.checksum)) := by
    simp [frameOffers_stages, Function.comp_def]
  have hlen : (wireOf p).length = 1 + ((be16 (BitVec.ofNat 16 p.length)).flatMap esc).length + (p.flatMap esc).length +
      (esc (checksumOf p)).length := by
    simp [wireOf, frameBody]
    omega
  rw [hlen] at h
  rw [hstages]
  unfold stageAt
  generalize ((be16 (BitVec.ofNat 16 p.length)).flatMap esc).length = lenRaw at *
  generalize (p.flatMap esc).length = payloadRaw at *
  cases k with
  | zero => rfl
  | succ k =>
    simp only [List.getElem?_cons_succ, List.getElem?_append, List.length_replicate, List.getElem?_replicate]
    by_cases hl : k < lenRaw
    · rw [if_pos hl, if_pos hl, if_neg (by omega), if_pos (by omega)]
    rw [if_neg hl, if_neg (show ¬k + 1 < 1 by omega), if_neg (show ¬k + 1 < 1 + lenRaw by omega)]
    by_cases hp : k - lenRaw < payloadRaw
    · rw [if_pos hp, if_pos hp, if_pos (by omega)]
    · rw [if_neg hp, if_pos (by omega), if_neg (by omega)]

/-! ### The transport's answers to offered bytes (R60, R269) -/

section
variable {s : State} {offers : List (Byte × Stage)}

theorem State.txEmit_accepted (h : s.Accepts offers.length) :
    s.txEmit offers = .next ((s.sent (offers.map Prod.fst) offers.length).ret 0) := by
  have hrun : s.acceptRun 0 offers.length = offers.length := s.acceptRun_all 0 _ (by simpa [State.Accepts] using h)
  simp [State.txEmit, hrun]

theorem State.acceptRun_of_accepts {m n : Nat} (hm : m < n) (h : s.Accepts m) (hstop : s.writeAnswer m ≠ .accept) :
    s.acceptRun 0 n = m :=
  s.acceptRun_eq 0 n m hm (by simpa [State.Accepts] using h) (by simpa using hstop)

theorem State.txEmit_refused {m : Nat} (hm : m < offers.length) (h : s.Accepts m) (hrefuse : s.writeAnswer m = .refuse) :
    s.txEmit offers = .next ((s.sent ((offers.take m).map Prod.fst) (m + 1)).raise (.writeFailed offers[m].2)) := by
  have hrun : s.acceptRun 0 offers.length = m := State.acceptRun_of_accepts hm h (by simp [hrefuse])
  have hkept : s.writeAnswers[m]? ≠ some .over := by simp [← State.writeAnswer_over, hrefuse]
  simp [State.txEmit, hrun, hkept, hm]

theorem State.txEmit_over {m : Nat} (hm : m < offers.length) (h : s.Accepts m) (hover : s.writeAnswer m = .over) :
    s.txEmit offers = .fault .transportOverWrite := by
  have hrun : s.acceptRun 0 offers.length = m := State.acceptRun_of_accepts hm h (by simp [hover])
  simp [State.txEmit, hrun, State.writeAnswer_over.1 hover, hm]

end

/-- An instruction whose meaning is the emission of a payload does all that R120, R121 and R261 say of sending it. -/
theorem emitsFrame_of_exec {i : Instr} {p : List Byte} (hexec : ∀ s, exec i s = emitPayload p s) : EmitsFrame i p := by
  intro s
  rw [hexec]
  refine ⟨fun hlong => emitPayload_tooLong hlong s, fun hfits => ?_⟩
  rw [emitPayload_fits hfits, ← frameOffers_length]
  refine ⟨fun hall => ?_, fun m hm hacc => ⟨fun hrefuse => ?_, fun hover => State.txEmit_over hm hacc hover⟩⟩
  · rw [State.txEmit_accepted hall, frameOffers_bytes]
    rfl
  · have hstage : (frameOffers p)[m].2 = stageAt p m := by
      have := frameOffers_stageAt (frameOffers_length p ▸ hm)
      simpa [hm] using this
    rw [State.txEmit_refused hm hacc hrefuse, hstage, List.map_take, frameOffers_bytes]
    rfl

/-! ### The obligations -/

/-- Settles O9: the escape set as a list, and the four pairs computed. -/
theorem escapeTransform : Obligations.EscapeTransform := ⟨esc_eq_ite, by decide⟩

/-- Settles O10: the tail is an escaped string. -/
theorem encodedFrameHasOneDelimiter : Obligations.EncodedFrameHasOneDelimiter := by
  intro p
  refine ⟨_, rfl, not_mem_flatMap_esc rfl (by decide), not_mem_flatMap_esc rfl (by decide), not_mem_flatMap_esc rfl (by decide), ?_⟩
  intro k hk
  obtain ⟨b, hb, hpair⟩ := pair_of_escapeByte hk
  exact ⟨b, hb, inEsc_iff.1 hpair⟩

/-- Settles O11: sums of bytes as numbers mod 256. -/
theorem checksumRule : Obligations.ChecksumRule := by
  refine fun p => ⟨sum8_toNat p, checksumOf_toNat p, fun c => ⟨?_, validSum_iff_checksumOf p c⟩⟩
  simpa using validSum_iff_toNat (p ++ [c])

/-- Settles O12: one raw byte more for each byte in the escape set, of which there are at most `L + 3`. -/
theorem rawFrameLength : Obligations.RawFrameLength := by
  intro p
  have hlen : (wireOf p).length = 4 + p.length + (frameBody p).countP inEsc := by
    rw [wireOf, List.length_cons, flatMap_esc_length, frameBody_length]
    omega
  have hcount : (frameBody p).countP inEsc ≤ p.length + 3 := frameBody_length p ▸ List.countP_le_length
  exact ⟨hlen, by omega, by omega⟩

/-- Settles O13: the offers and their stages, part by part. -/
theorem encoderOffersTheWire : Obligations.EncoderOffersTheWire :=
  fun p => ⟨frameOffers_bytes p, fun _ => frameOffers_stageAt⟩

/-- Settles O18: each row's meaning is the emission of its layout. -/
theorem outgoingPayloadsAreSent : Obligations.OutgoingPayloadsAreSent := fun _ _ _ _ _ _ _ =>
  ⟨emitsFrame_of_exec fun _ => rfl, emitsFrame_of_exec fun _ => rfl, emitsFrame_of_exec fun _ => rfl,
    emitsFrame_of_exec fun _ => rfl, emitsFrame_of_exec fun _ => rfl⟩

/-- Settles O27: what follows the delimiter is the frame's body escaped. -/
theorem wireReadsAsTheFrame : Obligations.WireReadsAsTheFrame := fun p => ⟨_, rfl, rawOf_flatMap_esc (frameBody p)⟩

end Sys2Proof.Machine
end

section
/-! PROOFS. The two payload ports: the step of a payload, what is no row of its port, and the answers of the demultiplexer's rows. -/

namespace Sys2Proof

/-! ### What the outgoing port does not read (R90, log 20) -/

theorem readThen_eq_error {α β : Type} {x : Read α} {k : α → List Byte → Except DecodeError β} {e : DecodeError} :
    readThen x k = .error e ↔ x = .error e ∨ ∃ a r, x = .ok (a, r) ∧ k a r = .error e := by
  rcases x with e' | ⟨a, r⟩ <;> simp [readThen]

theorem takeU8_eq_error {bs : List Byte} {e : DecodeError} (h : takeU8 bs = .error e) : e = .tooShort := by
  unfold takeU8 at h
  split at h <;> cases h
  rfl

theorem takeU16_eq_error {bs : List Byte} {e : DecodeError} (h : takeU16 bs = .error e) : e = .tooShort := by
  unfold takeU16 at h
  split at h <;> cases h
  rfl

theorem takeU64_eq_error {bs : List Byte} {e : DecodeError} (h : takeU64 bs = .error e) : e = .tooShort := by
  unfold takeU64 at h
  split at h <;> cases h
  rfl

/-- A payload with the id of a row fails in one way only. -/
theorem decodeOutgoing_eq_error {id : Byte} {r : List Byte} {e : DecodeError} (hid : id ∈ [0x08#8, 0x09#8, 0x17#8, 0x00#8, 0x01#8])
    (h : decodeOutgoing (id :: r) = .error e) : e = .tooShort := by
  simp only [List.mem_cons, List.not_mem_nil, or_false] at hid
  rcases hid with rfl | rfl | rfl | rfl | rfl
  · simp only [decodeOutgoing] at h
    split at h <;> cases h
    rfl
  · simp only [decodeOutgoing] at h
    split at h <;> cases h
    rfl
  · simp only [decodeOutgoing, readThen_eq_error] at h
    rcases h with h | ⟨f, r, -, h | ⟨a64, r, -, h | ⟨a16, r, -, h⟩⟩⟩
    · exact takeU8_eq_error h
    · exact takeU64_eq_error h
    · exact takeU16_eq_error h
    · split at h <;> cases h
      rfl
  · simp only [decodeOutgoing, readThen_eq_error] at h
    rcases h with h | ⟨f, r, -, h | ⟨a64, r, -, h | ⟨o, r, -, h⟩⟩⟩
    · exact takeU8_eq_error h
    · exact takeU64_eq_error h
    · exact takeU8_eq_error h
    · cases h
  · simp only [decodeOutgoing, readThen_eq_error] at h
    rcases h with h | ⟨f, r, -, h | ⟨a16, r, -, h | ⟨o, r, -, h⟩⟩⟩
    · exact takeU8_eq_error h
    · exact takeU16_eq_error h
    · exact takeU8_eq_error h
    · cases h

/-- The bytes of a row are at least its fixed fields, R90. -/
theorem shortestPayload_le_of_decodeOutgoing {id : Byte} {r : List Byte} {i : Instr}
    (hid : id ∈ [0x08#8, 0x09#8, 0x17#8, 0x00#8, 0x01#8]) (h : decodeOutgoing (id :: r) = .ok i) :
    shortestPayload id ≤ r.length + 1 := by
  simp only [List.mem_cons, List.not_mem_nil, or_false] at hid
  rcases hid with rfl | rfl | rfl | rfl | rfl
  · obtain ⟨f, a0, a1, ps, rfl, -⟩ := decodeOutgoing_atCommand.1 h
    simp [shortestPayload]
  · obtain ⟨f, a0, a1, ps, rfl, -⟩ := decodeOutgoing_atQueueParameter.1 h
    simp [shortestPayload]
  · obtain ⟨f, a64, a16, o, a0, a1, ps, rfl, -⟩ := decodeOutgoing_remoteAt.1 h
    simp [shortestPayload, be64, be16]
  · obtain ⟨f, a64, o, d, rfl, -⟩ := decodeOutgoing_transmit64.1 h
    simp [shortestPayload, be64]
  · obtain ⟨f, a16, o, d, rfl, -⟩ := decodeOutgoing_transmit16.1 h
    simp [shortestPayload, be16]

theorem decodeOutgoing_tooShort {id : Byte} {r : List Byte} (hid : id ∈ [0x08#8, 0x09#8, 0x17#8, 0x00#8, 0x01#8])
    (hshort : r.length + 1 < shortestPayload id) : decodeOutgoing (id :: r) = .error .tooShort := by
  cases h : decodeOutgoing (id :: r) with
  | ok i => exact absurd (shortestPayload_le_of_decodeOutgoing hid h) (Nat.not_le.2 hshort)
  | error e => rw [decodeOutgoing_eq_error hid h]

namespace Machine

/-! ### The step of a payload (R88, R204, R230) -/

section
variable {s : State} {rest : List Event}

theorem step_outgoing {p : List Byte} {i : Instr} (h : s.events = .outgoing p :: rest) (hdecode : decodeOutgoing p = .ok i) :
    step s = exec i { s with events := rest } := by
  simp only [step, State.fetch, h, hdecode]

theorem step_outgoing_reserved {p : List Byte} {e : DecodeError} (h : s.events = .outgoing p :: rest)
    (hdecode : decodeOutgoing p = .error e) : step s = .refused (.reservedEncoding e) := by
  simp only [step, State.fetch, h, hdecode]

theorem step_incoming {size : U16} {i : Instr} (h : s.events = .incoming size :: rest) (hfits : size.toNat ≤ s.params.outCap)
    (hdecode : decodeIncoming (s.outBytes size.toNat) = .ok i) : step s = exec i { s with events := rest } := by
  simp only [step, State.fetch, h, if_pos hfits, hdecode]

theorem step_incoming_noRow {size : U16} {e : DecodeError} (h : s.events = .incoming size :: rest)
    (hfits : size.toNat ≤ s.params.outCap) (hdecode : decodeIncoming (s.outBytes size.toNat) = .error e) :
    step s = exec (.parseFrame size) { s with events := rest } := by
  simp only [step, State.fetch, h, if_pos hfits, hdecode]

theorem step_incoming_beyond {size : U16} (h : s.events = .incoming size :: rest) (hbeyond : s.params.outCap < size.toNat) :
    step s = exec (.parseFrame size) { s with events := rest } := by
  simp only [step, State.fetch, h, if_neg (Nat.not_le.2 hbeyond)]

end

/-! ### The fields of an incoming payload (R84, R232 to R237) -/

theorem needExactly_ne {m : Nat} {p : List Byte} (h : p.length ≠ m) (r : Record) :
    needExactly m p r = .error .wrongLengthForApi := if_neg h

theorem needAtLeast_lt {m : Nat} {p : List Byte} (h : p.length < m) (r : Record) :
    needAtLeast m p r = .error .wrongLengthForApi := if_neg (Nat.not_le.2 h)

theorem parseAtResponse_layout (f a0 a1 st : Byte) (data : List Byte) :
    parseAtResponse (0x88 :: f :: a0 :: a1 :: st :: data) = .ok (.atResponse f a0 a1 st ⟨5, data.length⟩) := by
  simp [parseAtResponse, needAtLeast, fieldByte, fieldRest]

theorem parseRemoteAtResponse_layout (f a0 a1 st : Byte) (a : U64) (x : U16) (data : List Byte) :
    parseRemoteAtResponse (0x97 :: ([f] ++ be64 a ++ be16 x ++ [a0, a1, st] ++ data)) =
      .ok (.remoteAtResponse f a x a0 a1 st ⟨15, data.length⟩) := by
  have ha : fieldU64 (0x97 :: ([f] ++ be64 a ++ be16 x ++ [a0, a1, st] ++ data)) 2 = a := beFold_be64 a
  have hx : fieldU16 (0x97 :: ([f] ++ be64 a ++ be16 x ++ [a0, a1, st] ++ data)) 10 = x := beFold_be16 x
  rw [parseRemoteAtResponse, ha, hx]
  simp [needAtLeast, fieldByte, fieldRest, be64, be16]

theorem parseReceive64_layout (a : U64) (rssi o : Byte) (data : List Byte) :
    parseReceive64 (0x80 :: (be64 a ++ [rssi, o] ++ data)) = .ok (.receive64 a rssi o ⟨11, data.length⟩) := by
  have ha : fieldU64 (0x80 :: (be64 a ++ [rssi, o] ++ data)) 1 = a := beFold_be64 a
  rw [parseReceive64, ha]
  simp [needAtLeast, fieldByte, fieldRest, be64]

theorem parseReceive16_layout (x : U16) (rssi o : Byte) (data : List Byte) :
    parseReceive16 (0x81 :: (be16 x ++ [rssi, o] ++ data)) = .ok (.receive16 x rssi o ⟨5, data.length⟩) := by
  have hx : fieldU16 (0x81 :: (be16 x ++ [rssi, o] ++ data)) 1 = x := beFold_be16 x
  rw [parseReceive16, hx]
  simp [needAtLeast, fieldByte, fieldRest, be16]

/-! ### The demultiplexer's rows (R230, log 11) -/

section
variable {i : Instr} {x : Except BlockError Record} (hexec : ∀ s, exec i s = .next (s.answer x))
include hexec

theorem rowGives_record {r : Record} (hx : x = .ok r) : RowGives i (.value 0) (some r) := by
  intro s
  rw [hexec, hx]
  rfl

theorem rowGives_error {e : BlockError} (hx : x = .error e) : RowGives i (.error e) none := by
  intro s
  rw [hexec, hx]
  rfl

end

/-! ### The obligations -/

/-- Settles O39: each row's layout is read field by field, and any other length is answered by `Need`. -/
theorem demultiplexerRowsAnswer : Obligations.DemultiplexerRowsAnswer := by
  refine ⟨fun st => rowGives_record (fun s => rfl) rfl, fun f st => rowGives_record (fun s => rfl) rfl,
    fun f a0 a1 st data => rowGives_record (fun s => rfl) (parseAtResponse_layout f a0 a1 st data),
    fun f a0 a1 st a x data => rowGives_record (fun s => rfl) (parseRemoteAtResponse_layout f a0 a1 st a x data),
    fun a rssi o data => rowGives_record (fun s => rfl) (parseReceive64_layout a rssi o data),
    fun x rssi o data => rowGives_record (fun s => rfl) (parseReceive16_layout x rssi o data), fun body => ?_⟩
  refine ⟨fun h => ?_, fun h => ?_, fun h => ⟨?_, ?_⟩, fun h => ?_, fun h => ?_⟩
  · exact rowGives_error (fun s => rfl) (needExactly_ne (by simpa using h) _)
  · exact rowGives_error (fun s => rfl) (needExactly_ne (by simpa using h) _)
  · exact rowGives_error (fun s => rfl) (needAtLeast_lt (Nat.succ_lt_succ h) _)
  · exact rowGives_error (fun s => rfl) (needAtLeast_lt (Nat.succ_lt_succ h) _)
  · exact rowGives_error (fun s => rfl) (needAtLeast_lt (Nat.succ_lt_succ h) _)
  · exact rowGives_error (fun s => rfl) (needAtLeast_lt (Nat.succ_lt_succ h) _)

/-- Settles O2: the equations of `step` for a payload, and what each port's decoder answers on a payload that is no row. -/
theorem stepRunsDecodedPayload : Obligations.StepRunsDecodedPayload := by
  refine ⟨fun s p rest h => ⟨fun i => step_outgoing h, fun e => step_outgoing_reserved h⟩, fun s size rest h => ⟨?_, ?_⟩,
    rfl, rfl, fun id r => decodeOutgoing_unknown, fun id r => ⟨?_, ?_, ?_, ?_⟩, fun id r => decodeIncoming_unknown⟩
  · exact fun hfits => ⟨fun i => step_incoming h hfits, fun e => step_incoming_noRow h hfits⟩
  · intro hbeyond
    have hstep := step_incoming_beyond h hbeyond
    exact ⟨hstep, hstep.trans (execParseFrame_beyond hbeyond)⟩
  · rintro (rfl | rfl) hshort
    · exact decodeOutgoing_tooShort (by decide) hshort
    · exact decodeOutgoing_tooShort (by decide) hshort
  · rintro rfl hshort
    exact decodeOutgoing_tooShort (by decide) hshort
  · rintro rfl hshort
    exact decodeOutgoing_tooShort (by decide) hshort
  · rintro rfl hshort
    exact decodeOutgoing_tooShort (by decide) hshort

/-- Settles O8: the decoder computes each word. -/
theorem specWordsDecode : Obligations.SpecWordsDecode := by
  unfold Obligations.SpecWordsDecode
  decide

end Machine
end Sys2Proof
end

section
/-! PROOFS. SEND_FRAME, 40_encoder.md: its command code (R100) and the emission of its payload (R120). -/

namespace Sys2Proof.Machine

/-- Settles O14: what the command port reads after code 01, and the meaning is the emission of the payload itself. -/
theorem sendFrameResult : Obligations.SendFrameResult := by
  intro payload
  constructor
  · intro hfits
    exact decodeCommand_sendFrame.2 ⟨payload, rfl, hfits, rfl⟩
  · have hexec : ∀ s, exec (.sendFrame payload) s = emitPayload payload s := fun _ => rfl
    exact emitsFrame_of_exec hexec

end Sys2Proof.Machine
end

section
/-! PROOFS. FILL_BUFFER, 41_ring_refill.md: what each region of R140 reads and returns, and what its reads together append to the
window. -/

namespace Sys2Proof.Machine

/-! ### One read (R61) -/

section
variable (s : State) (p n : Nat)

@[simp] theorem State.readIn_params : (s.readIn p n).params = s.params := by simp [State.readIn]
@[simp] theorem State.readIn_recvIdx : (s.readIn p n).recvIdx = s.recvIdx := by simp [State.readIn]
@[simp] theorem State.readIn_recvSize : (s.readIn p n).recvSize = s.recvSize + (s.readResult n).toNat := by simp [State.readIn]
@[simp] theorem State.readIn_rxPending : (s.readIn p n).rxPending = s.rxPending.drop (s.readResult n).toNat := by
  simp [State.readIn]
@[simp] theorem State.readIn_readAnswers : (s.readIn p n).readAnswers = s.readAnswers.tail := by simp [State.readIn]

/-- A read and its bytes counted, where only an answer that is no error is counted. -/
theorem State.readIn_eq_ite (v : Int) : (if (s.rxRead p n).1 < 0 then s.rxRead p n
      else (v, (s.rxRead p n).2.grow (s.rxRead p n).1.toNat)) =
    (if s.readResult n < 0 then s.readResult n else v, s.readIn p n) := by
  rw [← State.rxRead_fst s p n]
  split
  · rename_i hneg
    rw [State.readIn_of_neg p hneg]
  · rfl

end

/-- A queued answer within the request counts up to what is pending (log 4). -/
theorem State.readResult_eq_min {s : State} {a n : Nat} {rest : List Int} (h : s.readAnswers = (a : Int) :: rest) (hn : a ≤ n) :
    s.readResult n = (min a s.rxPending.length : Nat) := by
  have hanswer : s.readAnswer = a := by simp only [State.readAnswer, h]
  rw [State.readResult, hanswer, if_neg (by omega)]
  omega

/-- A queued answer within the request keeps the contract. -/
theorem State.readBreach_eq_false {s : State} {a n : Nat} {rest : List Int} (h : s.readAnswers = (a : Int) :: rest) (hn : a ≤ n) :
    s.readBreach n = false := by
  rw [← Bool.not_eq_true, State.readBreach_of_readAnswers_cons h]
  omega

/-! ### The refill by region (R140, R142) -/

/-- A full ring is not read. -/
theorem State.fill_full {s : State} (h : s.recvSize = s.params.ringCap) : s.fill = (0, s) := by
  rw [State.fill, if_pos h]

theorem State.fillBreach_full {s : State} (h : s.recvSize = s.params.ringCap) : s.fillBreach = false := by
  rw [State.fillBreach, if_pos h]

/-- Phase 1 answered in full, with room before the head: phase 2 follows, R142. -/
def State.Phase2 (s : State) : Prop :=
  s.readResult (s.params.ringCap - s.ringEnd) = (s.params.ringCap - s.ringEnd : Nat) ∧ s.recvIdx ≠ 0

section
variable {s : State} (hend : s.ringEnd < s.params.ringCap)
include hend

theorem State.recvSize_ne_of_ringEnd_lt : s.recvSize ≠ s.params.ringCap := by
  unfold State.ringEnd at hend
  omega

/-- Phase 1 alone is one read up to `C`. -/
theorem State.fill_phase1 (h : ¬s.Phase2) : s.fill =
    (s.readResult (s.params.ringCap - s.ringEnd), s.readIn s.ringEnd (s.params.ringCap - s.ringEnd)) := by
  rw [State.Phase2, ← State.rxRead_fst s s.ringEnd] at h
  unfold State.fill
  dsimp only
  rw [if_neg (State.recvSize_ne_of_ringEnd_lt hend), if_pos hend, if_neg h, State.readIn_eq_ite, State.rxRead_fst, ite_self]

/-- A phase 2 reads below the head and adds to a phase 1 that was answered in full. -/
theorem State.fill_phase2 (h : s.Phase2) {u : State} (hu : u = s.readIn s.ringEnd (s.params.ringCap - s.ringEnd)) : s.fill =
    (if u.readResult s.recvIdx < 0 then u.readResult s.recvIdx
      else (s.params.ringCap - s.ringEnd : Nat) + u.readResult s.recvIdx, u.readIn 0 s.recvIdx) := by
  have hcount : ¬(s.params.ringCap - s.ringEnd : Nat) < (0 : Int) := Int.not_lt.2 (Int.natCast_nonneg _)
  rw [← State.readIn_eq_ite, hu, ← h.1]
  rw [← h.1, ← State.rxRead_fst s s.ringEnd] at hcount
  rw [State.Phase2, ← State.rxRead_fst s s.ringEnd] at h
  unfold State.fill
  dsimp only
  rw [if_neg (State.recvSize_ne_of_ringEnd_lt hend), if_pos hend, if_neg hcount, if_pos h]
  rfl

theorem State.fillBreach_eq_phase1 (h : ¬s.Phase2) : s.fillBreach = s.readBreach (s.params.ringCap - s.ringEnd) := by
  rw [State.Phase2] at h
  unfold State.fillBreach
  dsimp only
  rw [if_neg (State.recvSize_ne_of_ringEnd_lt hend), if_pos hend, ← Bool.decide_and, decide_eq_false h, Bool.and_false,
    Bool.or_false]

theorem State.fillBreach_eq_phase2 (h : s.Phase2) :
    s.fillBreach = (s.readBreach (s.params.ringCap - s.ringEnd) || s.readTaken.readBreach s.recvIdx) := by
  rw [State.Phase2] at h
  unfold State.fillBreach
  dsimp only
  rw [if_neg (State.recvSize_ne_of_ringEnd_lt hend), if_pos hend, ← Bool.decide_and, decide_eq_true h, Bool.and_true]

end

section
variable {s : State} (hroom : s.recvSize ≠ s.params.ringCap) (hend : ¬s.ringEnd < s.params.ringCap)
include hroom hend

/-- A window that reaches `C` or wraps takes one read up to the head. -/
theorem State.fill_wrapped : s.fill =
    (s.readResult (s.params.ringCap - s.recvSize), s.readIn (s.ringEnd - s.params.ringCap) (s.params.ringCap - s.recvSize)) := by
  unfold State.fill
  dsimp only
  rw [if_neg hroom, if_neg hend, State.readIn_eq_ite, State.rxRead_fst, ite_self]

theorem State.fillBreach_eq_wrapped : s.fillBreach = s.readBreach (s.params.ringCap - s.recvSize) := by
  rw [State.fillBreach, if_neg hroom, if_neg hend]

end

/-- The result, where it is no error, is the number of bytes that all the reads have added. -/
theorem State.fill_recvSize {s : State} (h : 0 ≤ s.fill.1) : (s.fill.2.recvSize : Int) = s.recvSize + s.fill.1 := by
  by_cases hfull : s.recvSize = s.params.ringCap
  · simp [State.fill_full hfull]
  by_cases hend : s.ringEnd < s.params.ringCap
  · by_cases hphase2 : s.Phase2
    · rw [State.fill_phase2 hend hphase2 rfl] at h ⊢
      simp only [State.readIn_recvSize, hphase2.1] at h ⊢
      split at h
      · omega
      · rename_i hcount
        rw [if_neg hcount]
        omega
    · rw [State.fill_phase1 hend hphase2] at h ⊢
      simp only [State.readIn_recvSize] at h ⊢
      omega
  · rw [State.fill_wrapped hfull hend] at h ⊢
    simp only [State.readIn_recvSize] at h ⊢
    omega

/-! ### What the reads append to the window (R141, R144) -/

/-- `t` is `s` with the first `r` bytes of `rx_pending` appended to the window: they stand at the next free offsets of the ring, and no
other offset differs. -/
structure State.Appends (s : State) (r : Nat) (t : State) : Prop where
  /-- the ring's invariants, R144 -/
  ringOk : t.RingOk
  /-- the bytes were pending, R61 -/
  pending : r ≤ s.rxPending.length
  /-- arrival order, R141 -/
  window : t.window = s.window ++ s.rxPending.take r
  /-- the bytes leave the front, R27 -/
  rxPending : t.rxPending = s.rxPending.drop r
  /-- they are counted, R141 -/
  recvSize : t.recvSize = s.recvSize + r
  /-- logical indices stand where they stood, R51 -/
  physical : t.physical = s.physical
  /-- `C` stays, R22 -/
  params : t.params = s.params
  /-- the rest of the ring, R25 -/
  ring : ∀ a, (∀ j < r, a ≠ s.physical (s.recvSize + j)) → t.ring.get? a = s.ring.get? a

theorem State.Appends.refl {s : State} (hs : s.RingOk) : s.Appends 0 s where
  ringOk := hs
  pending := Nat.zero_le _
  window := (List.append_nil _).symm
  rxPending := rfl
  recvSize := rfl
  physical := rfl
  params := rfl
  ring _ _ := rfl

/-- Appending twice appends the sum. -/
theorem State.Appends.trans {s u t : State} {r q : Nat} (h : s.Appends r u) (h' : u.Appends q t) : s.Appends (r + q) t where
  ringOk := h'.ringOk
  pending := by
    have hr := h.pending
    have hq := h'.pending
    rw [h.rxPending, List.length_drop] at hq
    omega
  window := by rw [h'.window, h.window, h.rxPending, List.append_assoc, ← List.take_add]
  rxPending := by rw [h'.rxPending, h.rxPending, List.drop_drop]
  recvSize := by rw [h'.recvSize, h.recvSize, Nat.add_assoc]
  physical := h'.physical.trans h.physical
  params := h'.params.trans h.params
  ring a ha := by
    have hfirst : u.ring.get? a = s.ring.get? a := h.ring a fun j hj => ha j (by omega)
    refine (h'.ring a fun j hj => ?_).trans hfirst
    rw [h.physical, h.recvSize, Nat.add_assoc]
    exact ha (r + j) (by omega)

/-- A read into the free region appends what it is answered. -/
theorem State.appends_readIn {s : State} (hs : s.RingOk) {p n : Nat} (hfree : s.FreeAt p n) :
    s.Appends (s.readResult n).toNat (s.readIn p n) := by
  obtain ⟨rfl, hsize, hroom⟩ := hfree
  obtain ⟨ringOk, window, ring, rxPending, recvSize, params, -, -⟩ := State.rxRead_grow hs hsize hroom rfl
  refine ⟨ringOk, (State.readResult_le s n).trans (Nat.min_le_right _ _), window, rxPending, recvSize, ?_, params, ring⟩
  funext i
  simp [State.physical]

/-- A refill appends. -/
theorem State.appends_fill {s : State} (hs : s.RingOk) : ∃ r, s.Appends r s.fill.2 :=
  s.fill_induction (P := fun u => ∃ r, s.Appends r u) ⟨0, .refl hs⟩ fun _ _ _ hfree ⟨_, hu⟩ =>
    ⟨_, hu.trans (State.appends_readIn hu.ringOk (hfree hu.ringOk))⟩

/-! ### How FILL_BUFFER ends (R142, R103) -/

theorem exec_fillBuffer_of_readsKept {s : State} (h : s.ReadsKept) :
    exec .fillBuffer s = .next (fillStatus s.fill.1 s.fill.2) := by
  simp only [exec, execFillBuffer, h, Bool.false_eq_true, if_false]

/-- A refill that counts `v` bytes is answered with `v`. -/
theorem exec_fillBuffer_of_count {s t : State} {v : Nat} (h : s.ReadsKept) (hfill : s.fill = ((v : Int), t)) :
    exec .fillBuffer s = .next (t.ret v) := by
  rw [exec_fillBuffer_of_readsKept h, hfill, fillStatus, if_neg (Int.not_lt.2 (Int.natCast_nonneg v))]

/-- The response of a refill that appends `r` bytes is `r` or a transport error. -/
theorem fillStatus_response {s : State} {r : Nat} (h : s.fill.2.recvSize = s.recvSize + r) :
    (fillStatus s.fill.1 s.fill.2).response = some ⟨.value r, none⟩ ∨
      ∃ e < 0, (fillStatus s.fill.1 s.fill.2).response = some ⟨.error (.transportRead e), none⟩ := by
  rcases s.fill_status with ⟨hneg, heq⟩ | ⟨hcount, heq⟩
  · exact .inr ⟨s.fill.1, hneg, by rw [heq, State.raise_response]⟩
  · have hsize := State.fill_recvSize hcount
    have hr : s.fill.1 = r := by omega
    exact .inl (by rw [heq, State.ret_response, hr])

/-- A status is a response alone. -/
theorem fillStatus_eq (v : Int) (u : State) : fillStatus v u = { u with response := (fillStatus v u).response } := by
  unfold fillStatus
  split
  · rfl
  · rfl

/-- One read with a queued answer within the request: the answer, up to what is pending, is counted and returned. -/
theorem exec_fillBuffer_oneRead {s : State} {p n a : Nat} {rest : List Int}
    (hbreach : s.fillBreach = s.readBreach n) (hfill : s.fill = (s.readResult n, s.readIn p n))
    (hanswers : s.readAnswers = (a : Int) :: rest) (hn : a ≤ n) :
    ∃ t, exec .fillBuffer s = .next t ∧ t.readAnswers = rest ∧
      t.response = some ⟨.value (min a s.rxPending.length : Nat), none⟩ ∧
      t.recvSize = s.recvSize + min a s.rxPending.length := by
  have hresult := State.readResult_eq_min hanswers hn
  have hexec := exec_fillBuffer_of_count (hbreach.trans (State.readBreach_eq_false hanswers hn)) (hresult ▸ hfill)
  refine ⟨_, hexec, ?_, rfl, ?_⟩
  · rw [State.ret_readAnswers, State.readIn_readAnswers, hanswers, List.tail_cons]
  · rw [State.ret_recvSize, State.readIn_recvSize, hresult, Int.toNat_natCast]

/-- Two reads with queued answers: the first, answered in full, and the second, up to what is still pending, are counted together. -/
theorem exec_fillBuffer_twoReads {s : State} {a1 a2 : Nat} {rest : List Int} (hend : s.ringEnd < s.params.ringCap)
    (hidx : s.recvIdx ≠ 0) (hanswers : s.readAnswers = (a1 : Int) :: (a2 : Int) :: rest)
    (hfull : a1 = s.params.ringCap - s.ringEnd) (hpending : a1 ≤ s.rxPending.length) (ha2 : a2 ≤ s.recvIdx) :
    ∃ t, exec .fillBuffer s = .next t ∧ t.readAnswers = rest ∧
      t.response = some ⟨.value (a1 + min a2 (s.rxPending.length - a1) : Nat), none⟩ ∧
      t.recvSize = s.recvSize + (a1 + min a2 (s.rxPending.length - a1)) := by
  have hresult1 := State.readResult_of_readAnswers_cons hanswers hfull.le hpending
  have hphase2 : s.Phase2 := ⟨hfull ▸ hresult1, hidx⟩
  have hkept : s.ReadsKept := by
    have htail : s.readTaken.readAnswers = (a2 : Int) :: rest := by rw [State.readTaken_readAnswers, hanswers, List.tail_cons]
    rw [State.ReadsKept, State.fillBreach_eq_phase2 hend hphase2, State.readBreach_eq_false hanswers hfull.le,
      State.readBreach_eq_false htail ha2, Bool.or_false]
  obtain ⟨u, hu⟩ : ∃ u, u = s.readIn s.ringEnd (s.params.ringCap - s.ringEnd) := ⟨_, rfl⟩
  have hanswers2 : u.readAnswers = (a2 : Int) :: rest := by simp [hu, hanswers]
  have hsize : u.recvSize = s.recvSize + a1 := by simp [hu, hresult1]
  have hresult2 : u.readResult s.recvIdx = (min a2 (s.rxPending.length - a1) : Nat) := by
    have hleft : u.rxPending.length = s.rxPending.length - a1 := by simp [hu, hresult1]
    rw [State.readResult_eq_min hanswers2 ha2, hleft]
  have hfill : s.fill = (((a1 + min a2 (s.rxPending.length - a1) : Nat) : Int), u.readIn 0 s.recvIdx) := by
    rw [State.fill_phase2 hend hphase2 hu, hresult2, if_neg (Int.not_lt.2 (Int.natCast_nonneg _)), ← hfull, Int.natCast_add]
  refine ⟨_, exec_fillBuffer_of_count hkept hfill, ?_, rfl, ?_⟩
  · rw [State.ret_readAnswers, State.readIn_readAnswers, hanswers2, List.tail_cons]
  · rw [State.ret_recvSize, State.readIn_recvSize, hresult2, Int.toNat_natCast, hsize, Nat.add_assoc]

/-! ### The obligations -/

/-- Settles O19: each read appends to the window at the free region's start, and appending composes. -/
theorem fillAppendsInArrivalOrder : Obligations.FillAppendsInArrivalOrder := by
  intro s hs hkept
  obtain ⟨r, h⟩ := State.appends_fill hs
  obtain ⟨-, -, hfits, -⟩ := h.ringOk
  rw [h.params, h.recvSize] at hfits
  have hresponse := fillStatus_response h.recvSize
  have hexec := exec_fillBuffer_of_readsKept hkept
  rw [fillStatus_eq] at hexec hresponse
  exact ⟨_, r, hexec, h.pending, by omega, h.window, h.rxPending, h.recvSize, h.ring, hresponse,
    congrArg (fun u : State => { u with response := (fillStatus s.fill.1 s.fill.2).response }) s.fill_frame⟩

/-- Settles O20: the window's end selects the region, and phase 2 follows a phase 1 answered in full with the head not at 0. -/
theorem fillReadsByRegion : Obligations.FillReadsByRegion := by
  refine ⟨fun s hfull => ?_, fun s a1 a2 rest _ _ hend hidx hanswers hfull hpending ha2 => ?_,
    fun s a1 rest _ _ hend hanswers ha1 hshort => ?_, fun s a1 rest _ hroom hend hanswers ha1 => ?_⟩
  · exact exec_fillBuffer_of_count (v := 0) (State.fillBreach_full hfull) (State.fill_full hfull)
  · exact exec_fillBuffer_twoReads hend hidx hanswers hfull hpending ha2
  · have hphase1 : ¬s.Phase2 := by
      rintro ⟨hfull, hidx⟩
      have hresult := State.readResult_eq_min hanswers ha1
      unfold State.ringEnd at hfull
      omega
    exact exec_fillBuffer_oneRead (State.fillBreach_eq_phase1 hend hphase1) (State.fill_phase1 hend hphase1) hanswers ha1
  · have hwrapped : ¬s.ringEnd < s.params.ringCap := Nat.not_lt.2 hend
    exact exec_fillBuffer_oneRead (State.fillBreach_eq_wrapped hroom.ne hwrapped) (State.fill_wrapped hroom.ne hwrapped)
      hanswers ha1

end Sys2Proof.Machine
end

section
/-! PROOFS. The decoder, 42_decoder.md: how one attempt ends on the raw bytes of a frame, whole, cut short or corrupt; what
DECODE_FRAME does next for each end of an attempt; and what a call leaves in OUT. -/

namespace Sys2Proof.Machine

/-- A payload of `length` bytes, with its checksum, fits the caller's buffer and the ring, R166. -/
abbrev FrameFits (cap outSize length : Nat) : Prop := length + 1 ≤ outSize ∧ length + 4 ≤ cap

/-! ### The length field of an attempt (R165) -/

section
variable {cap outSize i : Nat} {w : List Byte}

/-- With its two bytes read, the attempt goes on to steps 4 to 7. -/
theorem attemptAt_of_length {hi lo sum : Byte} (h0 : w[0]? = some delimiter) (h : readBodyAt w 2 1 0 = .done [hi, lo] i sum) :
    attemptAt cap w outSize = attemptBodyAt cap w outSize (beFold 16 [hi, lo]).toNat i := by
  rw [attemptAt, if_neg (not_not.2 h0)]
  cases hhi : unescAt w 1 with
  | foundStart => simp [readBodyAt, hhi] at h
  | notEnough => simp [readBodyAt, hhi] at h
  | value b j =>
    cases hlo : unescAt w j with
    | foundStart => simp [readBodyAt, hhi, hlo, consBody] at h
    | notEnough => simp [readBodyAt, hhi, hlo, consBody] at h
    | value b' j' =>
      simp only [readBodyAt, hhi, hlo, consBody, BodyEnd.done.injEq, List.cons.injEq, and_true] at h
      obtain ⟨⟨rfl, rfl⟩, rfl, -⟩ := h
      simp only [hlo]

/-- A delimiter inside it drops the frame, 92 D9. -/
theorem attemptAt_of_start_in_length (h0 : w[0]? = some delimiter) (h : readBodyAt w 2 1 0 = .foundStart) :
    attemptAt cap w outSize = .drop := by
  rw [attemptAt, if_neg (not_not.2 h0)]
  cases hhi : unescAt w 1 with
  | foundStart => rfl
  | notEnough => rfl
  | value b j =>
    cases hlo : unescAt w j with
    | foundStart => simp only [hlo]
    | notEnough => simp only [hlo]
    | value b' j' => simp [readBodyAt, hhi, hlo, consBody] at h

/-! ### Steps 4 to 7 of an attempt (R166 to R172) -/

variable {length : Nat}

theorem attemptBodyAt_of_beyond (h : ¬FrameFits cap outSize length) :
    attemptBodyAt cap w outSize length i = .drop := if_pos (by omega)

theorem attemptBodyAt_of_foundStart (h : readBodyAt w (length + 1) i 0 = .foundStart) :
    attemptBodyAt cap w outSize length i = .drop := by
  rw [attemptBodyAt, h]
  exact ite_self _

variable (hfits : FrameFits cap outSize length)
include hfits

theorem attemptBodyAt_of_notEnough (h : readBodyAt w (length + 1) i 0 = .notEnough) :
    attemptBodyAt cap w outSize length i = triageAt cap w := by
  rw [attemptBodyAt, if_neg (by omega), h]

theorem attemptBodyAt_of_done {bytes : List Byte} {next : Nat} {sum : Byte}
    (h : readBodyAt w (length + 1) i 0 = .done bytes next sum) :
    attemptBodyAt cap w outSize length i = if validSum sum then .accept bytes next else .drop := by
  rw [attemptBodyAt, if_neg (by omega), h]

end

/-! ### The triage of a frame held in part (R170) -/

/-- A full ring makes room, R170. -/
theorem triageAt_full {cap : Nat} {w : List Byte} (h : w.length = cap) : triageAt cap w = .drop := if_pos h

/-- With room in the ring and no delimiter but the head, the frame waits, R170. -/
theorem triageAt_wait {cap : Nat} {raw : List Byte} (hroom : raw.length + 1 ≠ cap) (h : delimiter ∉ raw) :
    triageAt cap (delimiter :: raw) = .wait := by
  rw [triageAt, if_neg (by simpa using hroom), if_neg]
  simp only [List.any_eq_true, Bool.and_eq_true, decide_eq_true_eq, beq_iff_eq, not_exists, not_and]
  intro j _ hj hdelim
  obtain ⟨m, rfl⟩ := Nat.exists_eq_add_of_le' hj
  exact h (List.mem_of_getElem? (List.getElem?_cons_succ ▸ hdelim))

/-! ### One attempt on the raw bytes of a frame (R164 to R172) -/

theorem attemptAt_of_head {cap outSize : Nat} {w : List Byte} (h : w[0]? ≠ some delimiter) :
    attemptAt cap w outSize = .drop := if_pos h

/-- A length field that stands whole is read as the length, however it is escaped. -/
theorem attemptAt_of_rawLength {cap outSize length : Nat} {raw : List Byte} (hlength : length ≤ 65535)
    (h : RawOf raw (be16 (BitVec.ofNat 16 length))) (post : List Byte) :
    attemptAt cap (delimiter :: raw ++ post) outSize =
      attemptBodyAt cap (delimiter :: raw ++ post) outSize length (delimiter :: raw).length := by
  have hread := readBodyAt_raw [delimiter] post h 0
  rw [← List.length_append] at hread
  have hvalue : (beFold 16 (be16 (BitVec.ofNat 16 length))).toNat = length := by
    rw [beFold_be16, BitVec.toNat_ofNat, Nat.mod_eq_of_lt (by omega)]
  have hattempt := attemptAt_of_length (cap := cap) (outSize := outSize) rfl hread
  rwa [← be16, hvalue] at hattempt

/-- The raw bytes of a frame after its delimiter, with payload `payload` and checksum byte `c`. -/
abbrev RawFrame (raw payload : List Byte) (c : Byte) : Prop :=
  RawOf raw (be16 (BitVec.ofNat 16 payload.length) ++ payload ++ [c])

section
variable {cap outSize k : Nat} {raw payload post : List Byte} {c : Byte} (h : RawFrame raw payload c)
include h

/-- The length field takes two to four raw bytes. -/
theorem RawFrame.split : ∃ rawLen rawBody, raw = rawLen ++ rawBody ∧ rawLen.length ≤ 4 ∧
    RawOf rawLen (be16 (BitVec.ofNat 16 payload.length)) ∧ RawOf rawBody (payload ++ [c]) := by
  rw [RawFrame, List.append_assoc] at h
  obtain ⟨rawLen, rawBody, rfl, hlen, hbody⟩ := rawOf_append h
  exact ⟨rawLen, rawBody, rfl, (rawOf_length hlen).2, hlen, hbody⟩

variable (hlength : payload.length ≤ 65535)
include hlength

/-- A delimiter that cuts the frame short, in the length field or after it, drops it, R169. -/
theorem RawFrame.attemptAt_start (hk : k < raw.length) :
    attemptAt cap (delimiter :: raw.take k ++ delimiter :: post) outSize = .drop := by
  obtain ⟨rawLen, rawBody, rfl, -, hlen, hbody⟩ := h.split
  by_cases hin : k < rawLen.length
  · rw [List.take_append_of_le_length hin.le]
    exact attemptAt_of_start_in_length rfl (readBodyAt_raw_start [delimiter] post hlen k 0 hin)
  · rw [List.length_append] at hk
    have hread := readBodyAt_raw_start (delimiter :: rawLen) post hbody (k - rawLen.length) 0 (by omega)
    rw [List.length_append, List.length_singleton] at hread
    rw [List.take_append, List.take_of_length_le (Nat.not_lt.1 hin), ← List.cons_append, List.append_assoc,
      attemptAt_of_rawLength hlength hlen, ← List.append_assoc]
    exact attemptBodyAt_of_foundStart hread

/-- A frame that is held in part, its length field whole, comes to the triage, R170. -/
theorem RawFrame.attemptAt_part (hfits : FrameFits cap outSize payload.length) (h5 : 5 ≤ k)
    (hk : k < raw.length) :
    attemptAt cap (delimiter :: raw.take k) outSize = triageAt cap (delimiter :: raw.take k) := by
  obtain ⟨rawLen, rawBody, rfl, hle, hlen, hbody⟩ := h.split
  rw [List.length_append] at hk
  have hread := readBodyAt_raw_take (delimiter :: rawLen) hbody (k - rawLen.length) 0 (by omega)
  rw [List.length_append, List.length_singleton] at hread
  rw [List.take_append, List.take_of_length_le (by omega), ← List.cons_append, attemptAt_of_rawLength hlength hlen]
  exact attemptBodyAt_of_notEnough hfits hread

/-- A frame that is held whole and fits is accepted exactly with the right checksum, R171, R172. -/
theorem RawFrame.attemptAt_whole (hfits : FrameFits cap outSize payload.length) :
    attemptAt cap (delimiter :: raw ++ post) outSize =
      if c = checksumOf payload then .accept (payload ++ [c]) (1 + raw.length) else .drop := by
  obtain ⟨rawLen, rawBody, rfl, -, hlen, hbody⟩ := h.split
  have hread := readBodyAt_raw (delimiter :: rawLen) post hbody 0
  have hnext : (delimiter :: rawLen ++ rawBody).length = 1 + (rawLen ++ rawBody).length := Nat.add_comm _ 1
  rw [List.length_append, List.length_singleton, ← List.length_append, hnext] at hread
  rw [← List.cons_append, List.append_assoc, attemptAt_of_rawLength hlength hlen, ← List.append_assoc,
    attemptBodyAt_of_done hfits hread]
  simp only [zero_add, validSum_iff_checksumOf]

/-- A frame that does not fit is dropped as soon as its length field is held, R166. -/
theorem RawFrame.attemptAt_beyond (hbeyond : ¬FrameFits cap outSize payload.length) (h4 : 4 ≤ k) :
    attemptAt cap (delimiter :: raw.take k ++ post) outSize = .drop := by
  obtain ⟨rawLen, rawBody, rfl, hle, hlen, -⟩ := h.split
  rw [List.take_append, List.take_of_length_le (by omega), ← List.cons_append, List.append_assoc,
    attemptAt_of_rawLength hlength hlen]
  exact attemptBodyAt_of_beyond hbeyond

/-- A wrong checksum drops the frame, whether or not it fits, R172. -/
theorem RawFrame.attemptAt_wrong_checksum (hc : c ≠ checksumOf payload) :
    attemptAt cap (delimiter :: raw ++ post) outSize = .drop := by
  by_cases hfits : FrameFits cap outSize payload.length
  · rw [h.attemptAt_whole hlength hfits, if_neg hc]
  · have hdrop := h.attemptAt_beyond (k := raw.length + 4) (post := post) hlength hfits (Nat.le_add_left _ _)
    rwa [List.take_of_length_le (Nat.le_add_right _ _)] at hdrop

/-- A full ring that holds a part of the frame drops it, whether or not it fits, R170. -/
theorem RawFrame.attemptAt_full (h5 : 5 ≤ k) (hk : k < raw.length) (hfull : k + 1 = cap) :
    attemptAt cap (delimiter :: raw.take k) outSize = .drop := by
  by_cases hfits : FrameFits cap outSize payload.length
  · rw [h.attemptAt_part hlength hfits h5 hk]
    exact triageAt_full (by rw [List.length_cons, List.length_take_of_le hk.le, hfull])
  · have hdrop := h.attemptAt_beyond (post := []) hlength hfits (show 4 ≤ k by omega)
    rwa [List.append_nil] at hdrop

end

/-! ### DECODE_FRAME by the end of its first attempt (R160, R161) -/

section
variable {s : State} {outSize : Nat}

/-- A state with its head below `C` is itself after a commit of nothing. -/
theorem State.commit_zero (h : s.recvIdx < s.params.ringCap) : s.commit 0 = s := by
  simp only [State.commit, Nat.add_zero, Nat.mod_eq_of_lt h, Nat.sub_zero]

theorem decodeLoop_of_few (fuel : Nat) (h : s.recvSize < 6) : decodeLoop outSize fuel s = (s, none) := by
  cases fuel with
  | zero => rfl
  | succ fuel => exact if_pos h

theorem State.decodeFrame_of_few (h : s.recvSize < 6) : s.decodeFrame outSize = s.ret 0 := if_pos h

variable {fuel : Nat} (h6 : 6 ≤ s.recvSize)
include h6

/-- A drop takes the loop to the next iteration, R164. -/
theorem decodeLoop_of_drop (h : s.attempt outSize = .drop) :
    decodeLoop outSize (fuel + 1) s = decodeLoop outSize fuel s.drop1 := by
  rw [decodeLoop, if_neg (Nat.not_lt.2 h6), h]

/-- A frame that waits ends the loop, R170. -/
theorem decodeLoop_of_wait (h : s.attempt outSize = .wait) : decodeLoop outSize (fuel + 1) s = (s, none) := by
  rw [decodeLoop, if_neg (Nat.not_lt.2 h6), h]

/-- A frame that is accepted ends the loop, R171. -/
theorem decodeLoop_of_accept {bytes : List Byte} {raw : Nat} (h : s.attempt outSize = .accept bytes raw) :
    decodeLoop outSize (fuel + 1) s = (s.commit raw, some bytes) := by
  rw [decodeLoop, if_neg (Nat.not_lt.2 h6), h]

/-- With 6 bytes held the loop is entered. -/
theorem State.decodeFrame_of_held (hsize : s.recvSize = fuel + 1) : s.decodeFrame outSize =
    finishDecode outSize (decodeLoop outSize (fuel + 1) s).1 (decodeLoop outSize (fuel + 1) s).2 := by
  rw [State.decodeFrame, if_neg (Nat.not_lt.2 h6), hsize]

theorem State.decodeFrame_of_wait (h : s.attempt outSize = .wait) : s.decodeFrame outSize = (s.freeOut outSize).ret 0 := by
  obtain ⟨fuel, hsize⟩ := Nat.exists_eq_add_of_le' (show 1 ≤ s.recvSize by omega)
  rw [State.decodeFrame_of_held h6 hsize, decodeLoop_of_wait h6 h, finishDecode]

theorem State.decodeFrame_of_accept {bytes : List Byte} {raw : Nat} (h : s.attempt outSize = .accept bytes raw) :
    s.decodeFrame outSize = finishDecode outSize (s.commit raw) (some bytes) := by
  obtain ⟨fuel, hsize⟩ := Nat.exists_eq_add_of_le' (show 1 ≤ s.recvSize by omega)
  rw [State.decodeFrame_of_held h6 hsize, decodeLoop_of_accept h6 h]

end

section
variable {s : State} {outSize : Nat}

/-- After a drop that leaves 6 bytes, the call goes on as from the dropped state. -/
theorem State.decodeFrame_of_drop (h7 : 7 ≤ s.recvSize) (h : s.attempt outSize = .drop) :
    s.decodeFrame outSize = s.drop1.decodeFrame outSize := by
  obtain ⟨fuel, hsize⟩ := Nat.exists_eq_add_of_le' (show 2 ≤ s.recvSize by omega)
  have hsize1 : s.drop1.recvSize = fuel + 1 := by
    rw [State.drop1_recvSize, hsize]
    rfl
  rw [State.decodeFrame_of_held (by omega) hsize, decodeLoop_of_drop (by omega) h, State.decodeFrame_of_held (by omega) hsize1]

/-- After a drop that leaves fewer, the loop ends. -/
theorem State.decodeFrame_of_last_drop (hsize : s.recvSize = 6) (h : s.attempt outSize = .drop) :
    s.decodeFrame outSize = (s.drop1.freeOut outSize).ret 0 := by
  have hfew : s.drop1.recvSize < 6 := by
    rw [State.drop1_recvSize, hsize]
    decide
  rw [State.decodeFrame_of_held hsize.ge hsize, decodeLoop_of_drop hsize.ge h, decodeLoop_of_few _ hfew, finishDecode]

end

/-- Garbage before 6 bytes or more is skipped in the same call, R178. -/
theorem State.decodeFrame_skips_garbage {s : State} {outSize : Nat} {garbage held : List Byte}
    (hidx : s.recvIdx < s.params.ringCap) (hwindow : s.window = garbage ++ held) (hclean : delimiter ∉ garbage)
    (h6 : 6 ≤ held.length) : s.decodeFrame outSize = (s.commit garbage.length).decodeFrame outSize := by
  induction garbage generalizing s with
  | nil => rw [List.length_nil, State.commit_zero hidx]
  | cons b garbage ih =>
    rw [List.mem_cons, not_or] at hclean
    obtain ⟨hb, hclean⟩ := hclean
    have hsize : s.recvSize = garbage.length + held.length + 1 := by
      rw [← State.window_length, hwindow, List.length_append, List.length_cons]
      omega
    have hdrop : s.attempt outSize = .drop := by
      rw [State.attempt_eq s outSize (by omega), hwindow]
      exact attemptAt_of_head (by simpa using Ne.symm hb)
    have hrest : s.drop1.window = garbage ++ held := by
      rw [State.window_drop1, hwindow]
      rfl
    rw [State.decodeFrame_of_drop (by omega) hdrop, ih (Nat.mod_lt _ (by omega)) hrest hclean,
      State.drop1_eq_commit, State.commit_commit, List.length_cons, Nat.add_comm 1]

/-! ### OUT and the response after a call (R168, R171, R174) -/

/-- Freeing OUT below `n` puts fresh free values there, R174, log 7. -/
theorem State.outByte_freeOut_of_lt (s : State) {n a : Nat} (h : a < n) :
    (s.freeOut n).outByte a = Config.anyOutByte (s.outDraw a + 1) a := by
  simp [State.outByte, State.outDraw, Memory.get?_forget, h, Nat.not_le.2 h]

/-- What is written at `OUT[0]` stands there. -/
theorem State.outBytes_writeOut (s : State) {bytes : List Byte} {n : Nat} (h : n ≤ bytes.length) :
    (s.writeOut 0 bytes).outBytes n = bytes.take n := by
  apply List.ext_getElem
  · simp [State.outBytes, h]
  · intro i hi _
    have hin : i < bytes.length := lt_of_lt_of_le (by simpa [State.outBytes] using hi) h
    simp [State.outBytes, State.outByte_writeOut, hin]

/-- No decode reads the response: its own result replaces it (log 9). -/
theorem decodeLoop_ret (outSize fuel : Nat) (s : State) (v : Int) :
    decodeLoop outSize fuel (s.ret v) = ((decodeLoop outSize fuel s).1.ret v, (decodeLoop outSize fuel s).2) := by
  induction fuel generalizing s with
  | zero => rfl
  | succ fuel ih =>
    by_cases hfew : s.recvSize < 6
    · rw [decodeLoop_of_few _ hfew, decodeLoop_of_few (s := s.ret v) _ hfew]
    · have h6 : 6 ≤ s.recvSize := Nat.not_lt.1 hfew
      have hsame : (s.ret v).attempt outSize = s.attempt outSize :=
        State.SameView.attempt (s := s.ret v) (t := s) ⟨⟨rfl, rfl⟩, rfl, rfl⟩ outSize (Nat.zero_lt_of_lt h6)
      cases hend : s.attempt outSize with
      | drop =>
        rw [decodeLoop_of_drop h6 hend, decodeLoop_of_drop (s := s.ret v) h6 (hsame.trans hend)]
        exact ih s.drop1
      | wait => rw [decodeLoop_of_wait h6 hend, decodeLoop_of_wait (s := s.ret v) h6 (hsame.trans hend)]
      | accept bytes raw =>
        rw [decodeLoop_of_accept h6 hend, decodeLoop_of_accept (s := s.ret v) h6 (hsame.trans hend)]
        rfl

theorem finishDecode_ret (outSize : Nat) (s : State) (v : Int) (frame : Option (List Byte)) :
    finishDecode outSize (s.ret v) frame = finishDecode outSize s frame := by
  cases frame with
  | none => rfl
  | some bytes => rfl

theorem State.decodeFrame_ret (outSize : Nat) (s : State) (v : Int) :
    (s.ret v).decodeFrame outSize = s.decodeFrame outSize := by
  by_cases hfew : s.recvSize < 6
  · rw [State.decodeFrame_of_few hfew, State.decodeFrame_of_few (s := s.ret v) hfew]
    rfl
  · have h6 := Nat.not_lt.1 hfew
    obtain ⟨fuel, hsize⟩ := Nat.exists_eq_add_of_le' (show 1 ≤ s.recvSize by omega)
    rw [State.decodeFrame_of_held h6 hsize, State.decodeFrame_of_held (s := s.ret v) h6 hsize, decodeLoop_ret,
      finishDecode_ret]

/-! ### DECODE_FRAME on a frame (R176) -/

/-- Committing a frame at the head leaves what follows it, R54. -/
theorem State.window_commit_frame {s : State} {raw rest : List Byte} (h : s.window = delimiter :: raw ++ rest) :
    (s.commit (1 + raw.length)).window = rest := by
  rw [State.window_commit, h, Nat.add_comm, ← List.length_cons, List.drop_left]

section
variable {s : State} {outSize : Nat} {raw payload rest : List Byte} (hraw : RawOf raw (frameBody payload))
  (hwindow : s.window = delimiter :: raw ++ rest) (h6 : 6 ≤ 1 + raw.length + rest.length) (hlength : payload.length ≤ 65535)
  (hout : payload.length + 1 ≤ outSize) (hcap : payload.length + 4 ≤ s.params.ringCap)
include hraw hwindow h6 hlength hout hcap

/-- A frame at the head that meets R176 is committed. -/
theorem State.decodeFrame_of_frame : s.decodeFrame outSize =
    finishDecode outSize (s.commit (1 + raw.length)) (some (payload ++ [checksumOf payload])) := by
  have hsize : s.recvSize = 1 + raw.length + rest.length := by
    rw [← State.window_length, hwindow, List.length_append, List.length_cons, Nat.add_comm 1]
  refine State.decodeFrame_of_accept (by omega) ?_
  rw [State.attempt_eq s outSize (by omega), hwindow, RawFrame.attemptAt_whole hraw hlength ⟨hout, hcap⟩, if_pos rfl]

/-- With a payload of a byte or more, payload and checksum are in OUT and the result is the payload's length. -/
theorem State.decodeFrame_returns_frame (hpos : 1 ≤ payload.length) : s.decodeFrame outSize =
    (((s.commit (1 + raw.length)).freeOut outSize).writeOut 0 (payload ++ [checksumOf payload])).ret payload.length := by
  have hmany : ¬(payload ++ [checksumOf payload]).length ≤ 1 := by
    rw [List.length_append, List.length_singleton]
    omega
  rw [State.decodeFrame_of_frame hraw hwindow h6 hlength hout hcap, finishDecode, if_neg hmany, List.length_append,
    List.length_singleton, Nat.add_sub_cancel]

/-- What such a call leaves in the window, in OUT and as its result. -/
theorem State.decodeFrame_frame_result (hpos : 1 ≤ payload.length) : (s.decodeFrame outSize).window = rest ∧
    (s.decodeFrame outSize).recvIdx = (s.recvIdx + (1 + raw.length)) % s.params.ringCap ∧
    (s.decodeFrame outSize).response = some ⟨.value payload.length, none⟩ ∧
    ∀ k ≤ payload.length + 1, (s.decodeFrame outSize).outBytes k = (payload ++ [checksumOf payload]).take k := by
  rw [State.decodeFrame_returns_frame hraw hwindow h6 hlength hout hcap hpos]
  refine ⟨State.window_commit_frame hwindow, rfl, rfl, fun k hk => ?_⟩
  exact State.outBytes_writeOut _ (by simpa using hk)

end

/-! ### What every call leaves (R160, R173, R180) -/

/-- A result that is a number is the number returned. -/
theorem State.ret_response_eq {s : State} {v : Int} {len : Nat} (h : (s.ret v).response = some ⟨.value len, none⟩) :
    v = len := by
  simpa using h

/-- A call advances the head over held bytes, and but for that changes OUT, the count of free values and the response alone. -/
theorem State.decodeFrame_effect {s : State} {outSize : Nat} (hidx : s.recvIdx < s.params.ringCap) :
    ∃ k ≤ s.recvSize, ∃ (out : Memory) (draws : List Nat) (result : Nat), (result = 0 ∨ result + 1 ≤ outSize) ∧
      s.decodeFrame outSize =
        { s.commit k with out := out, outDraws := draws, response := some ⟨.value result, none⟩ } := by
  rcases s.decodeFrame_cases outSize with ⟨-, heq⟩ | ⟨-, k, u, hk, hu, hend⟩
  · exact ⟨0, Nat.zero_le _, s.out, s.outDraws, 0, .inl rfl, by rw [heq, State.commit_zero hidx]; rfl⟩
  · have hmoved : u = s.commit k := by
      rcases hu with rfl | ⟨rfl, rfl⟩
      · rfl
      · rw [State.commit_zero hidx]
    subst hmoved
    rcases hend with heq | ⟨bytes, hmany, hfits, -, -, heq⟩
    · exact ⟨k, hk, _, _, 0, .inl rfl, heq⟩
    · exact ⟨k, hk, _, _, bytes.length - 1, .inr (by omega), heq⟩

/-- DECODE_FRAME within OUT_CAP completes, R160. -/
theorem exec_decodeFrame {s : State} {n : U32} (hn : n.toNat ≤ s.params.outCap) :
    exec (.decodeFrame n) s = .next (s.decodeFrame n.toNat) := exec_decodeFrame_next.2 ⟨hn, rfl⟩

/-- RECV_FRAME with reads that keep the contract: the fill's error, or a decode of what the fill left, R180. -/
theorem exec_recvFrame_of_readsKept {s : State} {n : U32} (hn : n.toNat ≤ s.params.outCap) (h : s.ReadsKept) :
    exec (.recvFrame n) s = .next
      (if s.fill.1 < 0 then s.fill.2.raise (.transportRead s.fill.1) else s.fill.2.decodeFrame n.toNat) := by
  simp [exec, execRecvFrame, h, Nat.not_lt.2 hn]

/-! ### The obligations -/

/-- Settles O23: the window's bytes at `i` and `i + 1` select the answer. -/
theorem unescapeOnEveryWindow : Obligations.UnescapeOnEveryWindow := by
  intro s i
  rw [State.unesc_eq, unescAt]
  refine ⟨fun hpast => ?_, fun hdelim => ?_, fun hesc hnone => ?_, fun hesc hdelim => ?_, fun x hesc hx hne => ?_,
    fun b hb hdelim hesc => ?_⟩
  · rw [List.getElem?_eq_none hpast]
  · rw [hdelim]
    rfl
  · rw [hesc, hnone]
    rfl
  · rw [hesc, hdelim]
    rfl
  · rw [hesc, hx]
    exact if_neg hne
  · rw [hb]
    exact (if_neg hdelim).trans (if_neg hesc)

/-- Settles O24: the loop's guard fails at once. -/
theorem decodeNeedsSixBytes : Obligations.DecodeNeedsSixBytes := by
  intro s n hn hfew
  have hsize : s.recvSize < 6 := hfew.elim id fun ⟨⟨_, _, hle, _⟩, hcap⟩ => hle.trans_lt hcap
  rw [exec_decodeFrame hn, State.decodeFrame_of_few hsize]
  rfl

/-- Settles O26: the garbage is skipped and the frame behind it returned. -/
theorem decodeFindsFrameAfterGarbage : Obligations.DecodeFindsFrameAfterGarbage := by
  intro s n garbage raw payload rest ⟨_, hidx, _⟩ hraw hwindow hclean h6 hpos hlength hout hcap hn
  rw [List.append_assoc] at hwindow
  have hskip := State.decodeFrame_skips_garbage (outSize := n.toNat) hidx hwindow hclean (by simp; omega)
  have hhead : (s.commit garbage.length).window = delimiter :: raw ++ rest := by
    rw [State.window_commit, hwindow, List.drop_left]
    rfl
  obtain ⟨hrest, hmoved, hresponse, hbytes⟩ := State.decodeFrame_frame_result hraw hhead h6 hlength hout hcap hpos
  rw [State.commit_recvIdx, State.commit_params, Nat.mod_add_mod, Nat.add_assoc] at hmoved
  rw [exec_decodeFrame hn, hskip]
  exact ⟨_, rfl, hrest, hmoved, hresponse, (hbytes _ le_rfl).trans (List.take_of_length_le (by simp))⟩

/-- Settles O28: the first call leaves the second frame at the head. -/
theorem twoFramesDecodeInOrder : Obligations.TwoFramesDecodeInOrder := by
  intro s n rawP rawQ p q rest _ hrawP hrawQ hwindow h6 hposP hposQ hlenP hlenQ houtP houtQ hcapP hcapQ hn
  rw [List.append_assoc] at hwindow
  obtain ⟨hwindowT, -, hresponseT, hbytesT⟩ :=
    State.decodeFrame_frame_result hrawP hwindow (by simp; omega) hlenP houtP hcapP hposP
  obtain ⟨hparams, -, -, -⟩ := s.decodeFrame_frame n.toNat
  obtain ⟨hwindowU, -, hresponseU, hbytesU⟩ :=
    State.decodeFrame_frame_result hrawQ hwindowT h6 hlenQ houtQ (hparams ▸ hcapQ) hposQ
  refine ⟨_, _, exec_decodeFrame hn, exec_decodeFrame (hparams ▸ hn), hresponseT, ?_, hresponseU, ?_, hwindowU⟩
  · rw [hbytesT _ (Nat.le_succ _), List.take_left]
  · rw [hbytesU _ (Nat.le_succ _), List.take_left]

/-- Settles O29: `00 00 FF` is the frame of no payload, whose commit leaves nothing in OUT. -/
theorem zeroLengthFrameConsumed : Obligations.ZeroLengthFrameConsumed := by
  intro s n raw rest _ hraw hwindow h6 hcap hout hn
  have hframe := State.decodeFrame_of_frame (payload := []) hraw hwindow h6 (Nat.zero_le _) hout hcap
  rw [exec_decodeFrame hn, hframe]
  exact ⟨_, rfl, State.window_commit_frame hwindow, rfl, rfl⟩

/-- Settles O30: the first attempt ends in a drop, whichever the corruption. -/
theorem corruptionDropsOneByte : Obligations.CorruptionDropsOneByte := by
  intro s n payload raw rest c _ hn h6 hlength hcorrupt
  have hdrop : s.attempt n.toNat = .drop := by
    rw [State.attempt_eq s n.toNat (by omega)]
    rcases hcorrupt with hhead | ⟨hraw, hwindow, hbeyond⟩ | ⟨hraw, k, hk, hwindow⟩ | ⟨hraw, hc, hwindow⟩ |
      ⟨hraw, hfull, k, hk, hwindow⟩
    · exact attemptAt_of_head hhead
    · rw [hwindow]
      exact (attemptAt_of_rawLength hlength hraw rest).trans (attemptBodyAt_of_beyond (by omega))
    · rw [hwindow]
      exact RawFrame.attemptAt_start hraw hlength hk
    · rw [hwindow]
      exact RawFrame.attemptAt_wrong_checksum hraw hlength hc
    · have hsize : k + 1 = s.recvSize := by
        rw [← State.window_length, hwindow, List.length_cons, List.length_take_of_le hk.le]
      rw [hwindow]
      exact RawFrame.attemptAt_full hraw hlength (by omega) hk (hsize.trans hfull)
  refine ⟨fun h7 => ?_, fun hsize => ?_⟩
  · rw [exec_decodeFrame hn, exec_decodeFrame (s := s.drop1) hn, State.decodeFrame_of_drop h7 hdrop]
  · rw [exec_decodeFrame hn, State.decodeFrame_of_last_drop hsize hdrop]
    exact ⟨_, rfl, s.window_drop1, rfl, rfl⟩

/-- Settles O31: the attempt waits, and waiting changes neither the window nor the head. -/
theorem partialFrameWaits : Obligations.PartialFrameWaits := by
  intro s n payload raw c k _ hraw hwindow h5 hk hroom hlength hout hcap hn
  have hpart : (raw.take k).length = k := List.length_take_of_le hk.le
  have h6 : 6 ≤ s.recvSize := by
    rw [← State.window_length, hwindow, List.length_cons, hpart]
    omega
  have hwait : s.attempt n.toNat = .wait := by
    rw [State.attempt_eq s n.toNat (by omega), hwindow]
    refine (RawFrame.attemptAt_part hraw hlength ⟨hout, hcap⟩ h5 hk).trans (triageAt_wait (by omega) fun hdelim => ?_)
    exact rawOf_no_delimiter hraw (List.mem_of_mem_take hdelim)
  rw [exec_decodeFrame hn, State.decodeFrame_of_wait h6 hwait]
  exact ⟨_, rfl, rfl, rfl, rfl⟩

/-- Settles O25: the head advances over `k` held bytes, and OUT below `out_size` and the response are all that is left to change. -/
theorem decodeCompletesWithinItsFrame : Obligations.DecodeCompletesWithinItsFrame := by
  intro s n ⟨_, hidx, _⟩ hn
  obtain ⟨k, hk, out, draws, result, hresult, hend⟩ := s.decodeFrame_effect (outSize := n.toNat) hidx
  have hkept := fun a (ha : n.toNat ≤ a) => s.decodeFrame_outByte ha
  rw [hend] at hkept
  rw [exec_decodeFrame hn, hend]
  exact ⟨_, k, result, rfl, hk, s.window_commit k, rfl, rfl, rfl, hresult, hkept, rfl⟩

/-- Settles O32: a length of at least 1 is that of an accepted frame, which stands whole in OUT. -/
theorem returnedFrameSumsTo255 : Obligations.ReturnedFrameSumsTo255 := by
  intro s t n len hexec hresponse hpos
  obtain ⟨-, rfl⟩ := exec_decodeFrame_next.1 hexec
  rcases s.decodeFrame_cases n.toNat with ⟨-, heq⟩ | ⟨-, k, u, -, -, heq | ⟨bytes, hlen, -, -, hsum, heq⟩⟩ <;>
    rw [heq] at hresponse ⊢ <;> have hvalue := State.ret_response_eq hresponse
  · omega
  · omega
  · have hbytes := (u.freeOut n.toNat).outBytes_writeOut (bytes := bytes) le_rfl
    rw [List.take_length] at hbytes
    rw [show len + 1 = bytes.length by omega]
    exact (congrArg sum8 hbytes).trans hsum

/-- Settles O33: OUT below `out_size` is freed once, and a frame is written up to its checksum only. -/
theorem outBeyondTheFrameIsFree : Obligations.OutBeyondTheFrameIsFree := by
  intro s t n len a hexec h6 hresponse ha hbeyond
  obtain ⟨-, rfl⟩ := exec_decodeFrame_next.1 hexec
  rcases s.decodeFrame_cases n.toNat with ⟨hfew, -⟩ | ⟨-, k, u, -, hu, hend⟩
  · omega
  · have hdraw : u.outDraw a = s.outDraw a := by
      rcases hu with rfl | ⟨-, rfl⟩ <;> rfl
    have hfree := u.outByte_freeOut_of_lt ha
    rw [hdraw] at hfree
    rcases hend with heq | ⟨bytes, hlen, -, -, -, heq⟩ <;> rw [heq] at hresponse ⊢ <;>
      have hvalue := State.ret_response_eq hresponse
    · exact hfree
    · have hpast := (u.freeOut n.toNat).outByte_writeOut 0 bytes a
      rw [if_neg (by omega), hfree] at hpast
      exact hpast

/-- Settles O35: RECV_FRAME makes FILL_BUFFER's case split, and the count that FILL_BUFFER answers is not read by the decode. -/
theorem recvIsFillThenDecode : Obligations.RecvIsFillThenDecode := by
  intro s n
  refine ⟨decodeCommand_recvFrame.2 ⟨n, rfl, rfl⟩, fun hbeyond => if_pos hbeyond, fun hn => ⟨fun hkept => ?_,
    fun x hfault => ?_, fun t hfill => ?_⟩⟩
  · exact ⟨_, exec_recvFrame_of_readsKept hn hkept⟩
  · have hbreach : s.fillBreach = true := by
      by_contra hkept
      rw [exec_fillBuffer_of_readsKept (Bool.eq_false_of_not_eq_true hkept)] at hfault
      cases hfault
    obtain ⟨hfillFaults, hrecvFaults⟩ := exec_faults_of_fillBreach hn hbreach
    exact hrecvFaults.trans (hfillFaults.symm.trans hfault)
  · have hkept : s.ReadsKept := by
      refine Bool.eq_false_of_not_eq_true fun hbreach => ?_
      rw [(exec_faults_of_fillBreach hn hbreach).1] at hfill
      cases hfill
    rw [exec_fillBuffer_of_readsKept hkept] at hfill
    injection hfill with hfill
    rw [exec_recvFrame_of_readsKept hn hkept]
    rcases s.fill_status with ⟨hneg, heq⟩ | ⟨hcount, heq⟩ <;> rw [heq] at hfill <;> subst hfill
    · exact ⟨⟨_, rfl⟩, fun _ _ => congrArg _ (if_pos hneg), fun _ hvalue => by cases hvalue⟩
    · refine ⟨⟨_, rfl⟩, fun _ herror => (by cases herror), fun _ _ => ?_⟩
      rw [if_neg (Int.not_lt.2 hcount), exec_decodeFrame (s := State.ret _ _) (s.fill_params ▸ hn), State.decodeFrame_ret]

end Sys2Proof.Machine
end

section
/-! PROOFS. The builder commands, 43_builders.md: AT_COMMAND, AT_QUEUE_PARAMETER, REMOTE_AT_COMMAND and TRANSMIT, the last two over every
address variant at once. -/

namespace Sys2Proof.Machine

/-! ### REMOTE_AT_COMMAND and TRANSMIT over an address (R101, R202, R203) -/

section
variable (f : Byte) (addr : Address) (o a0 a1 : Byte) (bs : List Byte)

theorem decodeCommand_remoteAtInstr (hfits : bs.length ≤ 65535) :
    decodeCommand ([0x32#8, f] ++ putAddress addr ++ [o, a0, a1] ++ putBytes16 bs) = .ok (remoteAtInstr f addr o a0 a1 bs) :=
  decodeCommand_remoteAt.2 ⟨f, addr, o, a0, a1, bs, rfl, hfits, rfl⟩

theorem decodeCommand_transmitInstr (hfits : bs.length ≤ 65535) :
    decodeCommand ([0x33#8, f] ++ putAddress addr ++ [o] ++ putBytes16 bs) = .ok (transmitInstr f addr o bs) :=
  decodeCommand_transmit.2 ⟨f, addr, o, bs, rfl, hfits, rfl⟩

theorem exec_remoteAtInstr (s : State) :
    exec (remoteAtInstr f addr o a0 a1 bs) s = emitPayload (remoteAtPayload f addr o a0 a1 bs) s := by
  cases addr <;> rfl

theorem exec_transmitInstr (s : State) : exec (transmitInstr f addr o bs) s = emitPayload (transmitPayload f addr o bs) s := by
  cases addr <;> rfl

theorem emitsFrame_remoteAtInstr : EmitsFrame (remoteAtInstr f addr o a0 a1 bs) (remoteAtPayload f addr o a0 a1 bs) :=
  emitsFrame_of_exec (exec_remoteAtInstr f addr o a0 a1 bs)

theorem emitsFrame_transmitInstr : EmitsFrame (transmitInstr f addr o bs) (transmitPayload f addr o bs) :=
  emitsFrame_of_exec (exec_transmitInstr f addr o bs)

end

/-! ### The obligations -/

/-- Settles O15: what the command port reads after codes 30 and 31, and each meaning is the emission of the layout of R90. -/
theorem atCommandsSendTheirPayload : Obligations.AtCommandsSendTheirPayload := by
  intro f a0 a1 params
  refine ⟨fun hfits => ⟨?_, ?_⟩, ?_, ?_⟩
  · exact decodeCommand_atCommand.2 ⟨f, a0, a1, params, rfl, hfits, rfl⟩
  · exact decodeCommand_atQueueParameter.2 ⟨f, a0, a1, params, rfl, hfits, rfl⟩
  · have hexec : ∀ s, exec (.atCommand f a0 a1 params) s = emitPayload (atLayout 0x08 f a0 a1 params) s := fun _ => rfl
    exact emitsFrame_of_exec hexec
  · have hexec : ∀ s, exec (.atQueueParameter f a0 a1 params) s = emitPayload (atLayout 0x09 f a0 a1 params) s := fun _ => rfl
    exact emitsFrame_of_exec hexec

/-- Settles O16: the four variants are the four addresses, whose tags are those of `putAddress` and whose fields are those of
`fields64`. -/
theorem remoteAtCommandsSendTheirPayload : Obligations.RemoteAtCommandsSendTheirPayload := by
  intro f o a0 a1 a x params
  have hsent (addr : Address) := emitsFrame_remoteAtInstr f addr o a0 a1 params
  refine ⟨fun hfits => ?_, hsent (.addr64 a), hsent (.addr16 x), hsent .addr64Broadcast, hsent .addr16Broadcast⟩
  have hread (addr : Address) := decodeCommand_remoteAtInstr f addr o a0 a1 params hfits
  exact ⟨hread (.addr64 a), hread (.addr16 x), hread .addr64Broadcast, hread .addr16Broadcast⟩

/-- Settles O17: the four variants are the four addresses, by which `transmitPayload` chooses the frame type. -/
theorem transmitsSendTheirPayload : Obligations.TransmitsSendTheirPayload := by
  intro f o a x data
  have hsent (addr : Address) := emitsFrame_transmitInstr f addr o data
  refine ⟨fun hfits => ?_, hsent (.addr64 a), hsent .addr64Broadcast, hsent (.addr16 x), hsent .addr16Broadcast⟩
  have hread (addr : Address) := decodeCommand_transmitInstr f addr o data hfits
  exact ⟨hread (.addr64 a), hread (.addr16 x), hread .addr64Broadcast, hread .addr16Broadcast⟩

end Sys2Proof.Machine
end

section
/-! PROOFS. PARSE_FRAME, 44_parser.md: it does what the demultiplexer's row of its payload's id does, so each payload's answer is that of
its row; the payloads that are no row; and the bytes a record's slice denotes. -/

namespace Sys2Proof.Machine

/-! ### PARSE_FRAME and the demultiplexer (R230, R88, log 11) -/

theorem execParseFrame_fits {s : State} {size : U16} (hfits : size.toNat ≤ s.params.outCap) :
    exec (.parseFrame size) s = .next (s.answer (demux (s.outBytes size.toNat))) := if_neg (Nat.not_lt.2 hfits)

/-- The decoder of the incoming port and the demultiplexer select the same row. -/
theorem exec_of_decodeIncoming {p : List Byte} {i : Instr} (h : decodeIncoming p = .ok i) (s : State) :
    exec i s = .next (s.answer (demux p)) := by
  unfold decodeIncoming at h
  split at h <;> cases h <;> rfl

/-- A payload of a row is answered as its row answers. -/
theorem parsesTo_of_rowGives {p : List Byte} {i : Instr} {status : Status} {record : Option Record}
    (hdecode : decodeIncoming p = .ok i) (hrow : RowGives i status record) : ParsesTo p status record := by
  rintro s size hfits rfl
  rw [execParseFrame_fits hfits, ← exec_of_decodeIncoming hdecode, hrow]

/-- A payload the demultiplexer refuses raises its error, and nothing else changes. -/
theorem parsesTo_of_demux_error {p : List Byte} {e : BlockError} (h : demux p = .error e) : ParsesTo p (.error e) none := by
  rintro s size hfits rfl
  rw [execParseFrame_fits hfits, h]
  rfl

theorem demux_unknown {id : Byte} (hid : id ∉ [0x8A#8, 0x89#8, 0x88#8, 0x97#8, 0x80#8, 0x81#8]) (body : List Byte) :
    demux (id :: body) = .error .unknownApiId := by
  unfold demux
  split <;> simp_all

/-! ### The bytes of a slice (R238, R302) -/

theorem State.outByte_congr {s t : State} (hout : s.out = t.out) (hdraws : s.outDraws = t.outDraws) (a : Nat) :
    s.outByte a = t.outByte a := by
  simp only [State.outByte, State.outDraw, hout, hdraws]

/-- `S(o)` of the payload `OUT[0..n)` denotes the payload's bytes from `o` on. -/
theorem State.sliceBytes_rest (s : State) (o n : Nat) : s.sliceBytes ⟨o, n - o⟩ = (s.outBytes n).drop o := by
  apply List.ext_getElem
  · simp [State.sliceBytes, State.outBytes]
  · intro j _ _
    simp [State.sliceBytes, State.outBytes]

/-! ### The obligations -/

/-- Settles O41: PARSE_FRAME answers what the demultiplexer answers, and so does the row that the payload decodes to. -/
theorem parseRunsTheRowOfItsId : Obligations.ParseRunsTheRowOfItsId := by
  intro s size i hfits hdecode
  rw [execParseFrame_fits hfits, exec_of_decodeIncoming hdecode]

/-- Settles O36: the two status rows of the demultiplexer. -/
theorem statusFramesParse : Obligations.StatusFramesParse := by
  obtain ⟨hmodem, htransmit, -, -, -, -, hshort⟩ := demultiplexerRowsAnswer
  refine ⟨fun st => parsesTo_of_rowGives rfl (hmodem st), fun f st => parsesTo_of_rowGives rfl (htransmit f st),
    fun body hlen => ?_, fun body hlen => ?_⟩
  · obtain ⟨hmodem', -⟩ := hshort body
    exact parsesTo_of_rowGives rfl (hmodem' (by omega))
  · obtain ⟨-, htransmit', -⟩ := hshort body
    exact parsesTo_of_rowGives rfl (htransmit' (by omega))

/-- Settles O37: the AtResponse and RemoteAtResponse rows of the demultiplexer. -/
theorem atResponsesParse : Obligations.AtResponsesParse := by
  obtain ⟨-, -, hat, hremote, -, -, hshort⟩ := demultiplexerRowsAnswer
  refine ⟨fun f a0 a1 st data => parsesTo_of_rowGives rfl (hat f a0 a1 st data),
    fun f a0 a1 st a x data => parsesTo_of_rowGives rfl (hremote f a0 a1 st a x data), fun body hlen => ?_, fun body hlen => ?_⟩
  · obtain ⟨-, -, hfour, -⟩ := hshort body
    obtain ⟨hat', -⟩ := hfour (by omega)
    exact parsesTo_of_rowGives rfl hat'
  · obtain ⟨-, -, -, hremote', -⟩ := hshort body
    exact parsesTo_of_rowGives rfl (hremote' (by omega))

/-- Settles O38: the Receive64 and Receive16 rows of the demultiplexer. -/
theorem receiveFramesParse : Obligations.ReceiveFramesParse := by
  obtain ⟨-, -, -, -, hreceive64, hreceive16, hshort⟩ := demultiplexerRowsAnswer
  refine ⟨fun a rssi o data => parsesTo_of_rowGives rfl (hreceive64 a rssi o data),
    fun x rssi o data => parsesTo_of_rowGives rfl (hreceive16 x rssi o data), fun body hlen => ?_, fun body hlen => ?_⟩
  · obtain ⟨-, -, -, -, hreceive64'⟩ := hshort body
    exact parsesTo_of_rowGives rfl (hreceive64' (by omega))
  · obtain ⟨-, -, hfour, -⟩ := hshort body
    obtain ⟨-, hreceive16'⟩ := hfour (by omega)
    exact parsesTo_of_rowGives rfl hreceive16'

/-- Settles O40: the demultiplexer's answers to no byte and to an id of no row. -/
theorem unknownAndEmptyPayloads : Obligations.UnknownAndEmptyPayloads :=
  ⟨parsesTo_of_demux_error rfl, fun _ body hid => parsesTo_of_demux_error (demux_unknown hid body)⟩

/-- Settles O42: a slice from the header's length on is the payload with its header dropped, and each of its bytes is OUT's. -/
theorem slicesBorrowFromOut : Obligations.SlicesBorrowFromOut := by
  refine ⟨fun s header data n h => ?_, fun s t sl hout hdraws => ?_⟩
  · have hlen : n = header.length + data.length := by simpa [State.outBytes] using congrArg List.length h
    calc s.sliceBytes ⟨header.length, data.length⟩
      _ = s.sliceBytes ⟨header.length, n - header.length⟩ := by rw [hlen, Nat.add_sub_cancel_left]
      _ = (header ++ data).drop header.length := by rw [s.sliceBytes_rest, h]
      _ = data := List.drop_left
  · exact List.map_congr_left fun j _ => State.outByte_congr hout hdraws (sl.offset + j)

end Sys2Proof.Machine
end

section
/-! PROOFS. The errors, 60_exceptions.md: their numbers, the response of a refill whose read fails, and that a number returned is never
negative. -/

namespace Sys2Proof.Machine

/-! ### A read answered with an error (R61, R262) -/

section
variable {s : State} {e : Int} {rest : List Int} (h : s.readAnswers = e :: rest) (hneg : e < 0)
include h hneg

theorem State.readResult_of_error (n : Nat) : s.readResult n = e := by
  have hanswer : s.readAnswer = e := by simp only [State.readAnswer, h]
  rw [State.readResult, hanswer, if_pos hneg]

/-- An error is no breach of the contract. -/
theorem State.readBreach_of_error (n : Nat) : s.readBreach n = false := by
  rw [← Bool.not_eq_true, State.readBreach_of_readAnswers_cons h]
  omega

/-- On an error no byte moves: the answer alone is used up. -/
theorem State.readIn_of_error (p n : Nat) : s.readIn p n = { s with readAnswers := rest } := by
  have hnone : (s.readResult n).toNat = 0 := by
    rw [State.readResult_of_error h hneg]
    omega
  simp only [State.readIn, State.rxRead, State.grow, State.readTaken, hnone, h]
  rfl

/-- An error of the first read ends the refill, in each region with room. -/
theorem State.fill_of_first_error (hroom : s.recvSize ≠ s.params.ringCap) :
    s.ReadsKept ∧ s.fill = (e, { s with readAnswers := rest }) := by
  by_cases hend : s.ringEnd < s.params.ringCap
  · have hphase1 : ¬s.Phase2 := by
      rintro ⟨hfull, -⟩
      rw [State.readResult_of_error h hneg] at hfull
      omega
    rw [State.ReadsKept, State.fillBreach_eq_phase1 hend hphase1, State.fill_phase1 hend hphase1,
      State.readResult_of_error h hneg, State.readIn_of_error h hneg]
    exact ⟨State.readBreach_of_error h hneg _, rfl⟩
  · rw [State.ReadsKept, State.fillBreach_eq_wrapped hroom hend, State.fill_wrapped hroom hend,
      State.readResult_of_error h hneg, State.readIn_of_error h hneg]
    exact ⟨State.readBreach_of_error h hneg _, rfl⟩

end

/-- An error of phase 2 leaves what phase 1 has read in, R142. -/
theorem State.fill_of_second_error {s : State} {a1 : Nat} {e : Int} {rest : List Int} (hend : s.ringEnd < s.params.ringCap)
    (hidx : s.recvIdx ≠ 0) (hanswers : s.readAnswers = (a1 : Int) :: e :: rest) (hfull : a1 = s.params.ringCap - s.ringEnd)
    (hpending : a1 ≤ s.rxPending.length) (hneg : e < 0) :
    s.ReadsKept ∧ s.fill = (e, { s.readIn s.ringEnd a1 with readAnswers := rest }) := by
  have hresult := State.readResult_of_readAnswers_cons hanswers hfull.le hpending
  have hphase2 : s.Phase2 := ⟨hfull ▸ hresult, hidx⟩
  have htail : s.readTaken.readAnswers = e :: rest := by rw [State.readTaken_readAnswers, hanswers, List.tail_cons]
  have htail' : (s.readIn s.ringEnd a1).readAnswers = e :: rest := by rw [State.readIn_readAnswers, hanswers, List.tail_cons]
  constructor
  · rw [State.ReadsKept, State.fillBreach_eq_phase2 hend hphase2, State.readBreach_eq_false hanswers hfull.le,
      State.readBreach_of_error htail hneg, Bool.or_false]
  · rw [State.fill_phase2 hend hphase2 (congrArg (s.readIn s.ringEnd) hfull), State.readResult_of_error htail' hneg,
      if_pos hneg, State.readIn_of_error htail' hneg]

/-- A refill that fails is answered with the transport's error. -/
theorem exec_fillBuffer_of_error {s t : State} {e : Int} (h : s.ReadsKept) (hfill : s.fill = (e, t)) (hneg : e < 0) :
    exec .fillBuffer s = .next (t.raise (.transportRead e)) := by
  rw [exec_fillBuffer_of_readsKept h, hfill, fillStatus, if_pos hneg]

/-! ### What is returned as a number is not negative (R103, R264) -/

section
variable {s : State} {v : Int} {record : Option Record}

theorem State.decodeFrame_value_nonneg {outSize : Nat} (h : (s.decodeFrame outSize).response = some ⟨.value v, record⟩) : 0 ≤ v := by
  rcases s.decodeFrame_cases outSize with ⟨-, heq⟩ | ⟨-, k, u, -, -, heq | ⟨bytes, -, -, -, -, heq⟩⟩ <;>
    rw [heq] at h <;> cases h
  · exact le_rfl
  · exact le_rfl
  · exact Int.natCast_nonneg (bytes.length - 1)

theorem fillStatus_value_nonneg (h : (fillStatus s.fill.1 s.fill.2).response = some ⟨.value v, record⟩) : 0 ≤ v := by
  rcases s.fill_status with ⟨-, heq⟩ | ⟨hcount, heq⟩ <;> rw [heq] at h <;> cases h
  exact hcount

theorem State.answer_value_nonneg {x : Except BlockError Record} (h : (s.answer x).response = some ⟨.value v, record⟩) : 0 ≤ v := by
  cases x with
  | ok r =>
    cases h
    exact le_rfl
  | error e => cases h

/-- A negative result of an instruction is one of the errors of R260. -/
theorem exec_value_nonneg {i : Instr} {t : State} (h : exec i s = .next t) (hr : t.response = some ⟨.value v, record⟩) : 0 ≤ v := by
  rcases exec_next h with ⟨-, rfl⟩ | ⟨bs, m, st, rfl, rfl | ⟨g, rfl⟩⟩ | ⟨-, -, rfl⟩ | ⟨n, -, -, rfl⟩ |
    ⟨n, -, -, -, ⟨-, rfl⟩ | ⟨-, rfl⟩⟩ | ⟨p, rfl⟩
  · cases hr
    exact le_rfl
  · cases hr
    exact le_rfl
  · cases hr
  · exact fillStatus_value_nonneg hr
  · exact State.decodeFrame_value_nonneg hr
  · cases hr
  · exact State.decodeFrame_value_nonneg hr
  · exact State.answer_value_nonneg hr

end

/-- R260: WriteFailed lies below the initializer's codes. -/
theorem stageCode_le (st : Stage) : stageCode st ≤ -11 := by
  cases st <;> decide

/-! ### The obligations -/

/-- Settles O21: an error moves no byte, so the refill leaves what it had read in before, which is nothing or all of phase 1. -/
theorem fillReadErrors : Obligations.FillReadErrors := by
  constructor
  · intro s e rest hroom hanswers hneg
    obtain ⟨hkept, hfill⟩ := State.fill_of_first_error hanswers hneg hroom
    exact exec_fillBuffer_of_error hkept hfill hneg
  · intro s a1 e rest hs _ hend hidx hanswers hfull hpending hneg
    obtain ⟨hkept, hfill⟩ := State.fill_of_second_error hend hidx hanswers hfull hpending hneg
    have hresult := State.readResult_of_readAnswers_cons hanswers le_rfl hpending
    have hphase1 : s.Appends a1 (s.readIn s.ringEnd a1) := by
      have := State.appends_readIn hs (hfull ▸ State.freeAt_end hend : s.FreeAt s.ringEnd a1)
      rwa [hresult, Int.toNat_natCast] at this
    exact ⟨_, exec_fillBuffer_of_error hkept hfill hneg, rfl, hphase1.recvSize, hphase1.window⟩

/-- Settles O52: of what a command returns, numbers are not negative, and every error but the transport's is below -10. -/
theorem noInitializerCodes : Obligations.NoInitializerCodes := by
  rintro i s t ⟨status, record⟩ hlength hid hexec hr hlow hhigh
  cases status with
  | value v =>
    have hpos := exec_value_nonneg hexec hr
    exact absurd (hpos.trans hhigh) (by decide)
  | error e =>
    cases e with
    | transportRead e => exact ⟨e, rfl⟩
    | writeFailed st => exact absurd (hlow.trans (stageCode_le st)) (by decide)
    | wrongLengthForApi => exact absurd (hlow.trans_eq hlength) (by decide)
    | unknownApiId => exact absurd (hlow.trans_eq hid) (by decide)

/-- Settles O51: the table of R260 read off. -/
theorem errorNumbers : Obligations.ErrorNumbers := fun _ =>
  ⟨rfl, rfl, rfl, rfl, fun _ => rfl, rfl, rfl, rfl, rfl⟩

end Sys2Proof.Machine
end

section
/-! PROOFS. RESET, 70_reset_and_hazards.md: its command code (R100) and its next state (R290). -/

namespace Sys2Proof.Machine

/-- RESET completes from every state: it empties the window at index 0 and returns 0. -/
theorem exec_reset (s : State) : exec .reset s = .next (State.ret 0 { s with recvIdx := 0, recvSize := 0 }) := rfl

/-- Settles O43: `00` with no field after it is RESET, and what RESET leaves is the state above, its response written out. -/
theorem resetResult : Obligations.ResetResult :=
  ⟨decodeCommand_reset.2 ⟨rfl, rfl⟩, exec_reset⟩

end Sys2Proof.Machine
end
